-- ==== Sys2Proof/Word.lean ====
section
/-!
DEFINITION. The widths of CSUM16 (spec/00_scope.md rules R5 and R6): bytes, 16-bit words, 32-bit words, the 17-bit
result of the first fold stage, and the size of each memory domain. Everything is unsigned (R82).
-/

namespace Sys2Proof

/-- A byte of a buffer; also PROTO (R5, PROTOW). -/
abbrev Byte := BitVec 8

/-- A 16-bit word: WORDW, CSW and LEN16W of R5. -/
abbrev Half := BitVec 16

/-- A 32-bit word: SUMW of R5, AW and LENW of R6, a frame word (R50). -/
abbrev Word := BitVec 32

/-- The width of T1 (R15). -/
abbrev Stage := BitVec 17

/-- How many bytes each domain has: addresses run from 0 to 2^AW - 1 with AW = 32 (R18). -/
def addressSpace : Nat := 4294967296

end Sys2Proof
end

