-- ==== Sys2Proof/Config.lean ====
section
/-!
DEFINITION. The build parameters of CSUM16 (spec/00_scope.md rules R5 and R6, spec/92_eei_decisions.md) and the free
values of the model. A constant declared opaque has no body: nothing can be proved about its value, so a theorem
that mentions it holds for every value.
-/

namespace Sys2Proof

/-- Where the unpaired last byte of an odd buffer goes (R6 ODD_PLACEMENT, spec/93 U10). -/
inductive OddPlacement where
  | high
  | low
  deriving DecidableEq, Repr

/-- The form of the fold (R6 FOLD_FORM, spec/93 U8): the always-correct two stages, or the shortcut that drops the carry. -/
inductive FoldForm where
  | twoStage
  | carryDropped
  deriving DecidableEq, Repr

/-- The form of the length and protocol word of PHC (R6 PHC_WORD_FORM, spec/93 U9). -/
inductive PhcWordForm where
  | beLanes
  | docLiteral
  deriving DecidableEq, Repr

/-- What FAST does with an unaligned base (R6 FAST_UNALIGNED_POLICY, spec/93 U15). -/
inductive UnalignedPolicy where
  | signal
  | fallback
  deriving DecidableEq, Repr

namespace Config

/-- ODD_PLACEMENT = HIGH (R73, spec/92 D4). -/
def oddPlacement : OddPlacement := .high

/-- FOLD_FORM = TWO_STAGE (R113, spec/92 D5). -/
def foldForm : FoldForm := .twoStage

/-- PHC_WORD_FORM = BE_LANES (R119, spec/90 C1, spec/92 D6). -/
def phcWordForm : PhcWordForm := .beLanes

/-- FAST_UNALIGNED_POLICY = SIGNAL (R144, spec/92 D7). -/
def fastUnaligned : UnalignedPolicy := .signal

/-- FAST_MIN of R5. -/
def fastMin : Nat := 5

/-- FAST_MAX of R5. -/
def fastMax : Nat := 15

/-- TIDW, open in R6; 8 is the default spec/92 D10 allows a model to take (log entry 15). No rule depends on it. -/
def tidWidth : Nat := 8

/-- How many contexts the engine has beyond the first: N_CTX - 1, open in R6 (log entry 14). -/
opaque extraContexts : Nat

/-- N_CTX, open and at least 1 (R6, R153). -/
def contextCount : Nat := extraContexts + 1

/-- A free 32-bit value: RESULT of a response that is not OK (spec/93 U1, log entry 3), POS where a command has none. -/
opaque freeWord : Nat → Word

/-- A free byte: a destination byte after CopyFault or reset (spec/93 U2 and U3, log entry 4), HOLD before it is written. -/
opaque freeByte : Nat → Byte

/-- A free bit: HOLDV where a command does not write it (spec/93 U13, log entry 5). -/
opaque freeBit : Nat → Bool

/-- A free 17-bit value: T1 before it is written (spec/93 U13, log entry 5). -/
opaque freeStage : Nat → Stage

/-- A free 16-bit value: T2 before it is written (spec/93 U13, log entry 5). -/
opaque freeHalf : Nat → Half

/-- A free choice: which of its old and new values a racing source byte is read as (R49, log entry 10). -/
opaque freePick : Nat → Nat

end Config

/-- The transaction identifier (R63). -/
abbrev Tid := BitVec Config.tidWidth

end Sys2Proof
end

