-- ==== Sys2Proof/Machine/Arith.lean ====
section
/-!
DEFINITION. The arithmetic every command shares (spec/40_arithmetic.md rules R70 to R79, spec/44_pseudo_header.md rule R119): addition
with end-around carry, words from bytes, the running sum of a byte sequence, the carry fold and the final checksum.
Values are computed as exact numbers and narrowed at the end.
-/

namespace Sys2Proof.Machine

/-- 32-bit addition with end-around carry (R70): t = a + b exactly, then t[31:0] + t[32]. -/
def add1c32 (a b : Word) : Word :=
  BitVec.ofNat 32 ((a.toNat + b.toNat) % 4294967296 + (a.toNat + b.toNat) / 4294967296)

/-- Big-endian 16-bit word (R72): the first byte is the high one. -/
def be16 (b0 b1 : Byte) : Half := b0 ++ b1

/-- Big-endian 32-bit word (R72). -/
def be32 (b0 b1 b2 b3 : Byte) : Word := b0 ++ b1 ++ b2 ++ b3

/-- The last word of an odd-length buffer under each placement (R73, spec/93 U10). -/
def oddWordOf : OddPlacement → Byte → Half
  | .high, b => be16 b 0
  | .low, b => be16 0 b

/-- The last word of an odd-length buffer on this hardware (R73). -/
def oddWord (b : Byte) : Half := oddWordOf Config.oddPlacement b

/-- Words(b) of R73: bytes paired by position, an unpaired last byte completed by an implicit zero. -/
def wordsOf : List Byte → List Half
  | [] => []
  | [b] => [oddWord b]
  | b0 :: b1 :: rest => be16 b0 b1 :: wordsOf rest

/-- Adds 16-bit words to a running sum, in order (R74). -/
def sumWords (s : Word) : List Half → Word
  | [] => s
  | w :: rest => sumWords (add1c32 s (w.setWidth 32)) rest

/-- AccBytes(seed, b) of R74. -/
def accBytes (seed : Word) (b : List Byte) : Word := sumWords seed (wordsOf b)

/-- First fold stage (R77, R111): T1 = SUM[15:0] + SUM[31:16], 17 bits. -/
def foldStage1 (s : Word) : Stage :=
  (s.extractLsb' 0 16).setWidth 17 + (s.extractLsb' 16 16).setWidth 17

/-- Second fold stage under each form (R77, spec/93 U8): the carry of T1 is added back, or dropped. -/
def foldStage2Of : FoldForm → Stage → Half
  | .twoStage, t1 => t1.extractLsb' 0 16 + (t1.extractLsb' 16 1).setWidth 16
  | .carryDropped, t1 => t1.extractLsb' 0 16

/-- Second fold stage of this hardware (R111): T2 = T1[15:0] + T1[16], 16 bits. -/
def foldStage2 (t1 : Stage) : Half := foldStage2Of Config.foldForm t1

/-- The carry fold of a running sum (R77). -/
def fold16 (s : Word) : Half := foldStage2 (foldStage1 s)

/-- The complement at the end of the pipeline (R111, R112). -/
def complementFold (t2 : Half) : Half := ~~~t2

/-- The final checksum of a running sum (R79). -/
def csum16 (s : Word) : Half := complementFold (fold16 s)

/-- A checksum as a RESULT: bits 15:0, with bits 31:16 zero (R56). -/
def checksumResult (c : Half) : Word := c.setWidth 32

/-- The length and protocol word under each form (R119, spec/93 U9). -/
def lengthProtocolWordOf : PhcWordForm → Byte → Half → Word
  | .beLanes, proto, len16 => (proto.setWidth 32 <<< 16) ||| len16.setWidth 32
  | .docLiteral, proto, len16 =>
    ((len16.extractLsb' 0 8 ++ len16.extractLsb' 8 8).setWidth 32 <<< 16) ||| (proto.setWidth 32 <<< 8)

/-- LPW of R119 on this hardware. -/
def lengthProtocolWord (proto : Byte) (len16 : Half) : Word :=
  lengthProtocolWordOf Config.phcWordForm proto len16

end Sys2Proof.Machine
end

