-- ==== Sys2Proof/Syntax.lean ====
section
/-!
DEFINITION. The command frame (spec/30_encoding.md rules R50 to R52), the memory domains (spec/20_memory.md rule R36) and the
five commands with the operands of rule R54.
-/

namespace Sys2Proof

/-- The two memory domains (R36): domain 0 never faults, domain 1 is supervised. -/
inductive Domain where
  | direct
  | supervised
  deriving DecidableEq, Repr

/-- A command frame: the eight words W[0] to W[7] (R11, R50). -/
structure Frame where
  w0 : Word
  w1 : Word
  w2 : Word
  w3 : Word
  w4 : Word
  w5 : Word
  w6 : Word
  w7 : Word
  deriving DecidableEq, Repr

/-- The five commands of R53, each with exactly the operands it reads (R22, R54); ignored words leave no trace. -/
inductive Instr where
  /-- ACC, the Accumulator (R85). -/
  | acc (seed base size len : Word)
  /-- COPY, the FusedCopyChecksum unit (R95); the domains are SRC_SUP and DST_SUP. -/
  | copy (sdom ddom : Domain) (seed srcBase srcSize len dstBase dstSize : Word)
  /-- FOLD, the Folder (R110). -/
  | fold (sum : Word)
  /-- PHC, the PseudoHeaderCombiner (R118). -/
  | phc (proto : Byte) (len16 : Half) (sum saddr daddr : Word)
  /-- FAST, the FastHeaderChecksum path (R128). -/
  | fast (words : Half) (base size : Word)
  deriving DecidableEq, Repr

end Sys2Proof
end

