-- ==== Sys2Proof/WellFormed.lean ====
section
/-!
DEFINITION. Which command words are legal, written field by field from the list of illegal frames in spec/30_encoding.md
rule R57. The decoder uses the match and mask pairs of rule R53 instead; that the two agree is a statement.
No operand value makes a command ill-formed (R57, last sentence): each operand has its width in its type, so every
term of Instr is well-formed, and what can be ill-formed is a command word.
-/

namespace Sys2Proof

/-- The three fields of W[0] (R51). -/
structure CommandWord where
  opc : Byte
  mod : Byte
  arg : Half
  deriving DecidableEq, Repr

/-- OPC names a command (R53, R57). -/
def CommandWord.opcodeKnown (c : CommandWord) : Bool :=
  decide (1 ≤ c.opc.toNat) && decide (c.opc.toNat ≤ 5)

/-- The must-be-zero bits of MOD are zero: all of it for ACC, FOLD and FAST, bits 23:18 for COPY, none for PHC (R51). -/
def CommandWord.modLegal (c : CommandWord) : Bool :=
  if c.opc = 2#8 then decide (c.mod.toNat < 4)
  else if c.opc = 4#8 then true
  else decide (c.mod = 0#8)

/-- ARG must be zero for ACC, COPY and FOLD; PHC and FAST use it (R51). -/
def CommandWord.argLegal (c : CommandWord) : Bool :=
  if c.opc = 4#8 ∨ c.opc = 5#8 then true else decide (c.arg = 0#16)

/-- A command word that R57 does not list as illegal. -/
def CommandWord.wellFormed (c : CommandWord) : Bool :=
  c.opcodeKnown && c.modLegal && c.argLegal

/-- The command word a command is written with (R51, R53). -/
def Instr.commandWord : Instr → CommandWord
  | .acc _ _ _ _ => ⟨1, 0, 0⟩
  | .copy sdom ddom _ _ _ _ _ _ =>
    ⟨2, (if ddom = .supervised then 2 else 0) + (if sdom = .supervised then 1 else 0), 0⟩
  | .fold _ => ⟨3, 0, 0⟩
  | .phc proto len16 _ _ _ => ⟨4, proto, len16⟩
  | .fast words _ _ => ⟨5, 0, words⟩

/-- A command whose command word is legal. -/
def Instr.wellFormed (i : Instr) : Bool := i.commandWord.wellFormed

end Sys2Proof
end

