-- ==== Sys2Proof/Decode.lean ====
section
/-!
DEFINITION. The decoder and the encoder (spec/30_encoding.md rules R51 to R58). The decoder is total on frames: a row of
the opcode map is selected by its match and mask, then the operands are taken from the frame; a frame that no row
selects is rejected by name. Frame words are numbers and have no byte order (R31, R50).
-/

namespace Sys2Proof

/-- The rows of the opcode map (R53). -/
inductive Opcode where
  | acc
  | copy
  | fold
  | phc
  | fast
  deriving DecidableEq, Repr

/-- One row of the opcode map: a frame selects it when W[0] masked is the match (R53). -/
structure OpcodeRow where
  op : Opcode
  pattern : Word
  mask : Word
  deriving DecidableEq, Repr

/-- Why a frame selects no command (R57); both are answered InvalidCommand (R145). -/
inductive Rejection where
  | unknownOpcode (opc : Byte)
  | mustBeZero (opc : Byte)
  deriving DecidableEq, Repr

/-- What the decoder answers (R58). -/
inductive Decoded where
  | command (i : Instr)
  | rejected (r : Rejection)
  deriving DecidableEq, Repr

/-- The opcode map, in the order of R53. -/
def opcodeRows : List OpcodeRow :=
  [⟨.acc, 0x01000000#32, 0xFFFFFFFF#32⟩,
   ⟨.copy, 0x02000000#32, 0xFFFCFFFF#32⟩,
   ⟨.fold, 0x03000000#32, 0xFFFFFFFF#32⟩,
   ⟨.phc, 0x04000000#32, 0xFF000000#32⟩,
   ⟨.fast, 0x05000000#32, 0xFFFF0000#32⟩]

/-- OPC = W[0][31:24] (R54). -/
def opcField (w : Word) : Byte := w.extractLsb' 24 8

/-- MOD = W[0][23:16], PROTO for PHC (R54). -/
def modField (w : Word) : Byte := w.extractLsb' 16 8

/-- ARG = W[0][15:0], LEN16 for PHC and WORDS for FAST (R54). -/
def argField (w : Word) : Half := w.extractLsb' 0 16

/-- The three fields of a command word (R51). -/
def commandWordOf (w : Word) : CommandWord := ⟨opcField w, modField w, argField w⟩

/-- A domain bit: 1 names SUPERVISED, 0 names DIRECT (R51). -/
def domainOfBit (b : Bool) : Domain := if b then .supervised else .direct

/-- The bit that names a domain (R51). -/
def bitOfDomain : Domain → Word
  | .direct => 0
  | .supervised => 1

/-- Whether W[0] selects a row (R53). -/
def OpcodeRow.selects (r : OpcodeRow) (w0 : Word) : Bool := w0 &&& r.mask == r.pattern

/-- The row W[0] selects, if any (R58). -/
def selectOpcode (w0 : Word) : Option Opcode :=
  (opcodeRows.find? (fun r => r.selects w0)).map OpcodeRow.op

/-- The operands of a selected command (R54). -/
def assemble (op : Opcode) (f : Frame) : Instr :=
  match op with
  | .acc => .acc f.w1 f.w2 f.w3 f.w4
  | .copy =>
    .copy (domainOfBit (f.w0.getLsbD 16)) (domainOfBit (f.w0.getLsbD 17)) f.w1 f.w2 f.w3 f.w4 f.w5 f.w6
  | .fold => .fold f.w1
  | .phc => .phc (modField f.w0) (argField f.w0) f.w1 f.w2 f.w3
  | .fast => .fast (argField f.w0) f.w2 f.w3

/-- The name of a rejection: an opcode outside 0x01 to 0x05, or a must-be-zero bit that is set (R57). -/
def rejection (w0 : Word) : Rejection :=
  if (commandWordOf w0).opcodeKnown then .mustBeZero (opcField w0) else .unknownOpcode (opcField w0)

/-- The decoding procedure (R58). -/
def decode (f : Frame) : Decoded :=
  match selectOpcode f.w0 with
  | some op => .command (assemble op f)
  | none => .rejected (rejection f.w0)

/-- W[0] of a command (R53, R95, R118, R128). -/
def encodeWord0 : Instr → Word
  | .acc _ _ _ _ => 0x01000000#32
  | .copy sdom ddom _ _ _ _ _ _ =>
    0x02000000#32 ||| (bitOfDomain ddom <<< 17) ||| (bitOfDomain sdom <<< 16)
  | .fold _ => 0x03000000#32
  | .phc proto len16 _ _ _ =>
    0x04000000#32 ||| (proto.setWidth 32 <<< 16) ||| len16.setWidth 32
  | .fast words _ _ => 0x05000000#32 ||| words.setWidth 32

/-- The frame of a command, ignored words zero (R52, R60). -/
def encode (i : Instr) : Frame :=
  match i with
  | .acc seed base size len => ⟨encodeWord0 i, seed, base, size, len, 0, 0, 0⟩
  | .copy _ _ seed srcBase srcSize len dstBase dstSize =>
    ⟨encodeWord0 i, seed, srcBase, srcSize, len, dstBase, dstSize, 0⟩
  | .fold sum => ⟨encodeWord0 i, sum, 0, 0, 0, 0, 0, 0⟩
  | .phc _ _ sum saddr daddr => ⟨encodeWord0 i, sum, saddr, daddr, 0, 0, 0, 0⟩
  | .fast _ base size => ⟨encodeWord0 i, 0, base, size, 0, 0, 0, 0⟩

/-- Frame word k of a number whose bits count on from word to word, bit 0 the least significant bit of W[0]. -/
def tableFrameWord (nbits w k : Nat) : Word := BitVec.ofNat 32 (w % 2 ^ nbits / 2 ^ (32 * k))

/-- The frame an opcode-table number stands for: the words above nbits are zero. -/
def tableFrame (nbits w : Nat) : Frame :=
  ⟨tableFrameWord nbits w 0, tableFrameWord nbits w 1, tableFrameWord nbits w 2, tableFrameWord nbits w 3,
   tableFrameWord nbits w 4, tableFrameWord nbits w 5, tableFrameWord nbits w 6, tableFrameWord nbits w 7⟩

/-- The command a decoder's answer holds, if it holds one. -/
def decodedCommand : Decoded → Option Instr
  | .command i => some i
  | .rejected _ => none

/-- The command an opcode-table number decodes to; none where the decoder rejects it. -/
def decodeTableWord (nbits w : Nat) : Option Instr := decodedCommand (decode (tableFrame nbits w))

end Sys2Proof
end

