-- ==== Sys2Proof/Machine/State.lean ====
section
/-!
DEFINITION. The state of CSUM16 and its surroundings as plain data: the command port, the transactions in flight with
their transient registers (spec/10_state.md rules R11, R15, R19), the responses (R12), the two memory domains (R18), the
environment's answers (R40) and the moves of the outside world that are still to come (spec/00_scope.md rule R8).
INVENTORY.md lists every field with its rule and its reset value.
-/

namespace Sys2Proof.Machine

/-- A memory domain as a list of address and byte in canonical form: addresses strictly rising, no byte equal to what
an unlisted address reads as. Only Machine/Ops.lean reads or writes one. -/
abbrev Memory := List Host.Cell

/-- A command frame with the transaction identifier that accompanies it (R63). -/
structure Command where
  tid : Tid
  frame : Frame
  deriving DecidableEq, Repr

/-- The five outcomes of a command (R140, spec/93 U14). -/
inductive Status where
  | ok
  | copyFault
  | invalidLength
  | invalidAlignment
  | invalidCommand
  deriving DecidableEq, Repr

/-- A response frame R[0], R[1] with the TID of the command it answers (R12, R55). -/
structure Response where
  tid : Tid
  r0 : Word
  r1 : Word
  deriving DecidableEq, Repr

/-- Which part of a command comes next (log entry 18): its additions, then the stages of the carry-fold pipeline
(R112) and the complement. ACC and COPY stay in gather. -/
inductive Phase where
  | gather
  | stage1
  | stage2
  | output
  deriving DecidableEq, Repr

/-- A transaction in flight: its identity, its captured frame and command, and the transient registers of R15. -/
structure Context where
  /-- The TID its response will carry (R63). -/
  tid : Tid
  /-- W[0] to W[7], captured by value when the command was accepted (R11). -/
  frame : Frame
  /-- The command the frame was decoded to (R58). -/
  instr : Instr
  /-- SUM (R15). -/
  sum : Word
  /-- POS (R14, R15). -/
  pos : Word
  /-- HOLD (R15). -/
  hold : Byte
  /-- HOLDV (R15). -/
  holdv : Bool
  /-- T1 (R15). -/
  t1 : Stage
  /-- T2 (R15). -/
  t2 : Half
  /-- The part of the command that comes next; the model's own. -/
  phase : Phase
  /-- The byte COPY has read and not yet written (R34, log entry 17); none between two bytes. -/
  latch : Option Byte
  /-- Addresses of source bytes another agent wrote while this transaction was in flight, or a COPY still in flight had
  written before, each with a value it held before (R49, spec/93 U6, log entry 10). -/
  stale : List Host.Cell
  /-- Addresses of destination bytes this COPY has written so far, each with the value it held before (spec/93 U6, log
  entry 10). -/
  undo : List Host.Cell
  deriving DecidableEq, Repr

/-- The environment's answer to one supervised access (R40). -/
inductive Answer where
  | succeed
  | fault
  deriving DecidableEq, Repr

/-- What a requester does (R8): it presents a command, takes a response, stores a byte. -/
inductive RequesterMove where
  | offer (c : Command)
  | collect (k : Nat)
  | store (d : Domain) (a : Word) (b : Byte)
  deriving DecidableEq, Repr

/-- What the environment does (R8, R20): it answers a supervised access, lets another agent write memory, accepts the
k-th waiting command, lets the k-th transaction in flight take one micro-step or run on, resets the engine. R8 gives the
reset to no agent and R161 speaks of a requester that resets; that it is this agent's move, whoever asks for it, is a
DESIGN CHOICE (log entry 28). -/
inductive EnvironmentMove where
  | answer (a : Answer)
  | store (d : Domain) (a : Word) (b : Byte)
  | accept (k : Nat)
  | tick (k : Nat)
  | resume (k : Nat)
  | reset
  deriving DecidableEq, Repr

/-- Whose move comes next (R8). -/
inductive Event where
  | engine
  | requester (m : RequesterMove)
  | environment (m : EnvironmentMove)
  deriving DecidableEq, Repr

/-- The machine. -/
structure State where
  /-- The command being accepted: W[0..7] as captured, and its TID (R11, R63). -/
  cmd : Command
  /-- Commands offered and still waiting, oldest first (R153). -/
  port : List Command
  /-- The transactions in flight (R19), at most N_CTX; the one accepted or let proceed last stands last (log entry 8). -/
  contexts : List Context
  /-- Responses written and not yet taken, oldest first (R12, R55). -/
  responses : List Response
  /-- Domain DIRECT (R36). -/
  direct : Memory
  /-- Domain SUPERVISED (R36). -/
  supervised : Memory
  /-- The environment's answers to the next supervised accesses, in the order they are asked (R40, log entry 7). -/
  answers : List Answer
  /-- The moves of the outside world still to come (R8, log entry 8). -/
  agenda : List Event
  /-- How many free values have been drawn (log entry 6). -/
  draws : Nat
  deriving DecidableEq, Repr

/-- Reasons the machine stops with a fault. -/
inductive Fault where
  /-- Raised by every memory access of a command whose exact address is 2^32 or more (R18, R84). The checks of R37 keep
  every command below it, so no state a command can reach raises it. Safe: the model stops. -/
  | noSuchAddress
  deriving DecidableEq, Repr

/-- Reasons a step has no meaning. -/
inductive Refusal where
  /-- Raised by exec for an instruction that has no meaning yet. Safe: the model stops. -/
  | notModelled (mnemonic : String)
  /-- Raised by COPY after its checks when source and destination share a byte in one domain (R105, spec/93 U4): the spec
  gives the command no meaning. Safe: the model stops. -/
  | overlappingCopy
  /-- Raised by COPY after its checks when its destination shares a byte with the destination of a COPY in flight (R49,
  R108, spec/93 U6): a race to which the spec gives no effect. Safe: the model stops. -/
  | busyDestination
  /-- Raised by a store of another agent to a byte of the destination of a COPY in flight (R49, spec/93 U6). Safe: the
  model stops. -/
  | storeToBusyDestination
  deriving DecidableEq, Repr

/-- The frame of eight zero words, illegal by design (R57). -/
def zeroFrame : Frame := ⟨0, 0, 0, 0, 0, 0, 0, 0⟩

/-- What the command registers hold after reset: R21 leaves it unspecified, zero is the model's choice (log entry 2). -/
def Command.atReset : Command := ⟨0, zeroFrame⟩

/-- The machine right after reset (R21, R160): idle, nothing in flight, no response, nothing listed in memory. -/
def State.reset : State where
  cmd := Command.atReset
  port := []
  contexts := []
  responses := []
  direct := []
  supervised := []
  answers := []
  agenda := []
  draws := 0

end Sys2Proof.Machine
end

