-- ==== Sys2Proof/Machine/Operands.lean ====
section
/-!
DEFINITION. Operand forms: the buffer view and its checks (spec/20_memory.md rule R37), the byte ranges a command reads and
writes (R34, R39), and when two ranges share a byte (spec/42_fused_copy.md rule R105).
-/

namespace Sys2Proof.Machine

/-- A range of bytes of one domain. -/
structure ByteRange where
  dom : Domain
  base : Nat
  len : Nat
  deriving DecidableEq, Repr

/-- Whether a range holds the byte at address a of domain d. -/
def ByteRange.covers (r : ByteRange) (d : Domain) (a : Nat) : Bool :=
  decide (r.dom = d) && decide (r.base ≤ a) && decide (a < r.base + r.len)

/-- Whether two ranges share a byte (R105): same domain, neither empty, and they meet. -/
def ByteRange.meets (r q : ByteRange) : Bool :=
  decide (r.dom = q.dom) && decide (0 < r.len) && decide (0 < q.len) &&
    decide (r.base < q.base + q.len) && decide (q.base < r.base + r.len)

/-- The length of FAST in bytes: 4 * WORDS (R54). -/
def fastBytes (words : Half) : Nat := 4 * words.toNat

/-- The two checks of a view (R37): it must end within the address space, and hold the n bytes to process. -/
def viewInvalid (base size : Word) (n : Nat) : Bool :=
  decide (addressSpace < base.toNat + size.toNat) || decide (size.toNat < n)

/-- The bytes a command reads (R34). -/
def sourceOf : Instr → Option ByteRange
  | .acc _ base _ len => some ⟨.direct, base.toNat, len.toNat⟩
  | .copy sdom _ _ srcBase _ len _ _ => some ⟨sdom, srcBase.toNat, len.toNat⟩
  | .fold _ => none
  | .phc _ _ _ _ _ => none
  | .fast words base _ => some ⟨.direct, base.toNat, fastBytes words⟩

/-- The bytes a command writes: only COPY has any (R39). -/
def destinationOf : Instr → Option ByteRange
  | .acc _ _ _ _ => none
  | .copy _ ddom _ _ _ len dstBase _ => some ⟨ddom, dstBase.toNat, len.toNat⟩
  | .fold _ => none
  | .phc _ _ _ _ _ => none
  | .fast _ _ _ => none

/-- Whether two ranges, where both exist, share a byte. -/
def rangesMeet : Option ByteRange → Option ByteRange → Bool
  | some r, some q => r.meets q
  | _, _ => false

/-- Whether a range, where it exists, holds a byte. -/
def rangeCovers : Option ByteRange → Domain → Nat → Bool
  | some r, d, a => r.covers d a
  | none, _, _ => false

/-- Whether a command's source and destination share a byte in one domain (R105). -/
def selfOverlap (i : Instr) : Bool := rangesMeet (sourceOf i) (destinationOf i)

/-- Whether a command would write a byte of the destination of one in flight (R49, R108). -/
def destinationsMeet (i other : Instr) : Bool := rangesMeet (destinationOf i) (destinationOf other)

end Sys2Proof.Machine
end

