-- ==== Sys2Proof/Machine/Flags.lean ====
section
/-!
DEFINITION. CSUM16 has no flags (spec/10_state.md rule R16); the one indication of an outcome is STATUS. This file holds the
status codes (spec/30_encoding.md rule R56) and the checks that decide a status before any memory access, in the order
of spec/60_exceptions.md rule R146.
-/

namespace Sys2Proof.Machine

/-- STATUS in R[0][3:0], bits 31:4 zero (R56). -/
def Status.code : Status → Word
  | .ok => 0
  | .copyFault => 1
  | .invalidLength => 2
  | .invalidAlignment => 3
  | .invalidCommand => 4

/-- The checks of ACC (R86). -/
def accCheck (base size len : Word) : Option Status :=
  if viewInvalid base size len.toNat then some .invalidLength else none

/-- The checks of COPY (R96): source view and length, then destination view and length. -/
def copyCheck (srcBase srcSize len dstBase dstSize : Word) : Option Status :=
  if viewInvalid srcBase srcSize len.toNat then some .invalidLength
  else if viewInvalid dstBase dstSize len.toNat then some .invalidLength
  else none

/-- FOLD has no check beyond its encoding (R110). -/
def foldCheck : Option Status := none

/-- PHC has no check beyond its encoding (R118). -/
def phcCheck : Option Status := none

/-- Whether WORDS is outside the valid range (R129). -/
def wordCountInvalid (words : Half) : Bool :=
  decide (words.toNat < Config.fastMin) || decide (Config.fastMax < words.toNat)

/-- Whether FAST signals the alignment of its base (R129, spec/93 U15). -/
def alignmentInvalid (policy : UnalignedPolicy) (base : Word) : Bool :=
  match policy with
  | .signal => decide (base.extractLsb' 0 2 ≠ 0)
  | .fallback => false

/-- The checks of FAST (R129): word count, view, length against size, then alignment. -/
def fastCheck (words : Half) (base size : Word) : Option Status :=
  if wordCountInvalid words then some .invalidLength
  else if viewInvalid base size (fastBytes words) then some .invalidLength
  else if alignmentInvalid Config.fastUnaligned base then some .invalidAlignment
  else none

end Sys2Proof.Machine
end

