-- ==== Sys2Proof/Machine/Ops.lean ====
section
/-!
DEFINITION. The named operations over memory, responses and transactions: reading and writing one byte, free values,
supervised accesses (spec/20_memory.md rule R40), raising a status (the "trap entry" of spec/60_exceptions.md rule R148) and
returning a result, opening a transaction, and running one to its response or its next unanswered access.
-/

namespace Sys2Proof.Machine

/-- What a byte that memory does not list reads as (log entry 1). -/
def unlistedByte : Byte := 0

/-- The byte at an address. -/
def Memory.read (m : Memory) (a : Nat) : Byte :=
  match m with
  | [] => unlistedByte
  | (b, v) :: rest => if b = a then v else Memory.read rest a

/-- Puts a cell before the first one with a higher address. -/
def insertCell (a : Nat) (v : Byte) (m : Memory) : Memory :=
  match m with
  | [] => [(a, v)]
  | (b, u) :: rest => if a < b then (a, v) :: (b, u) :: rest else (b, u) :: insertCell a v rest

/-- The memory without the cells of one address. -/
def dropCell (a : Nat) (m : Memory) : Memory := m.filter (fun p => decide (p.1 ≠ a))

/-- Stores a byte, keeping the canonical form: a byte that an unlisted address reads as is not listed. -/
def Memory.write (m : Memory) (a : Nat) (v : Byte) : Memory :=
  if v = unlistedByte then dropCell a m else insertCell a v (dropCell a m)

/-- The canonical form from an address on: strictly rising, inside the address space, no unlisted value. -/
def cellsFrom (lo : Nat) (m : Memory) : Bool :=
  match m with
  | [] => true
  | (a, v) :: rest => decide (lo ≤ a) && decide (a < addressSpace) && decide (v ≠ unlistedByte) && cellsFrom (a + 1) rest

/-- The canonical form of a memory. -/
def Memory.wf (m : Memory) : Bool := cellsFrom 0 m

/-- Bytes(dom, base, n): n bytes in ascending order (spec/00_scope.md section 6.3). -/
def Memory.bytes (m : Memory) (base : Nat) : Nat → List Byte
  | 0 => []
  | n + 1 => m.read base :: Memory.bytes m (base + 1) n

/-- Stores a sequence of bytes in ascending order. -/
def Memory.writeBytes (m : Memory) (base : Nat) : List Byte → Memory
  | [] => m
  | b :: rest => Memory.writeBytes (m.write base b) (base + 1) rest

/-- The memory of a domain (R36). -/
def State.mem (s : State) : Domain → Memory
  | .direct => s.direct
  | .supervised => s.supervised

/-- The state with the memory of one domain replaced. -/
def State.setMem (s : State) (d : Domain) (m : Memory) : State :=
  match d with
  | .direct => { s with direct := m }
  | .supervised => { s with supervised := m }

/-- Notes in a transaction that another agent overwrites a byte of its source, with the value it held (R49). -/
def Context.noteOverwrite (d : Domain) (a : Nat) (old : Byte) (c : Context) : Context :=
  if rangeCovers (sourceOf c.instr) d a then { c with stale := c.stale ++ [(a, old)] } else c

/-- Writes one byte of a domain; every transaction in flight that has it in its source takes note (R49). -/
def State.poke (s : State) (d : Domain) (a : Nat) (v : Byte) : State :=
  { s.setMem d ((s.mem d).write a v) with
    contexts := s.contexts.map (Context.noteOverwrite d a ((s.mem d).read a)) }

/-- Counts one more free value as drawn (log entry 6). -/
def State.draw (s : State) : State := { s with draws := s.draws + 1 }

/-- Puts a free value into each of n bytes, independently (R102, R161). -/
def State.scramble (s : State) (d : Domain) (a : Nat) : Nat → State
  | 0 => s
  | n + 1 => State.scramble ((s.poke d a (Config.freeByte s.draws)).draw) d (a + 1) n

/-- Puts free values into a range, where there is one. -/
def State.scrambleRange (s : State) : Option ByteRange → State
  | some r => s.scramble r.dom r.base r.len
  | none => s

/-- Writes a response frame (R12, R55): both words at once, after the responses already written. -/
def State.respond (s : State) (tid : Tid) (st : Status) (result : Word) : State :=
  { s with responses := s.responses ++ [⟨tid, st.code, result⟩] }

/-- raise: a response with a status that is not OK and a free RESULT (R141, R148); nothing else happens. -/
def State.raise (s : State) (tid : Tid) (st : Status) : State :=
  (s.respond tid st (Config.freeWord s.draws)).draw

/-- The values overwritten at one address, oldest first. -/
def staleAt (cells : List Host.Cell) (a : Nat) : List Byte :=
  (cells.filter (fun p => decide (p.1 = a))).map Prod.snd

/-- Picks one of the values a racing byte may be read as (R49). -/
def pickByte (now : Byte) (old : List Byte) (n : Nat) : Byte :=
  (now :: old).getD (Config.freePick n % (old.length + 1)) now

/-- The byte a transaction reads at an address of its source: what memory holds, or freely the old or a new value where
another agent has written it since the transaction was accepted, or a COPY in flight before (R49, spec/93 U6). -/
def State.sourceByte (s : State) (c : Context) (d : Domain) (a : Nat) : Byte :=
  match staleAt c.stale a with
  | [] => (s.mem d).read a
  | old => pickByte ((s.mem d).read a) old s.draws

/-- The state after that read: a free choice counts as one draw. -/
def State.afterSource (s : State) (c : Context) (a : Nat) : State :=
  match staleAt c.stale a with
  | [] => s
  | _ => s.draw

/-- What a transaction that asks for an access of a domain is told (R40). -/
inductive Asked where
  | granted (s : State)
  | faulted (s : State)
  | unanswered
  deriving Repr

/-- Asks for one byte access (R40): DIRECT never consults the environment, SUPERVISED takes its next answer. -/
def State.ask (s : State) (d : Domain) : Asked :=
  match d with
  | .direct => .granted s
  | .supervised =>
    match s.answers with
    | [] => .unanswered
    | .succeed :: rest => .granted { s with answers := rest }
    | .fault :: rest => .faulted { s with answers := rest }

/-- What one micro-step of a transaction leads to. -/
inductive Progress where
  /-- It goes on. -/
  | busy (c : Context) (s : State)
  /-- It is suspended on a supervised access that is not answered yet (R104). -/
  | waiting (c : Context) (s : State)
  /-- return v (spec/00_scope.md section 6.4). -/
  | returned (v : Word) (s : State)
  /-- raise st. -/
  | raised (st : Status) (s : State)
  /-- An access outside the address space. -/
  | stopped (r : Fault)
  deriving Repr

/-- An access at a, where a is an address (R18). -/
def atAddress (a : Nat) (p : Progress) : Progress :=
  if a < addressSpace then p else .stopped .noSuchAddress

/-- CopyFault (R101, R102): every byte of the destination range becomes a free value, then the status is raised. -/
def copyFault (dest : ByteRange) (s : State) : Progress :=
  .raised .copyFault (s.scramble dest.dom dest.base dest.len)

/-- One byte enters the sum (R74, stream form): kept in HOLD, or paired with HOLD and added. -/
def Context.feed (c : Context) (x : Byte) : Context :=
  if c.holdv then
    { c with sum := add1c32 c.sum ((be16 c.hold x).setWidth 32), holdv := false, pos := c.pos + 1 }
  else { c with hold := x, holdv := true, pos := c.pos + 1 }

/-- The end of the byte loop (R74, R97): an unpaired byte is added as the last word. -/
def Context.flush (c : Context) : Context :=
  if c.holdv then { c with sum := add1c32 c.sum ((oddWord c.hold).setWidth 32), holdv := false } else c

/-- The carry-fold pipeline (R112), the same for FOLD, PHC and FAST: stage 1, stage 2, complement and return. -/
def foldPipeline (c : Context) (s : State) : Progress :=
  match c.phase with
  | .gather => .busy { c with phase := .stage1 } s
  | .stage1 => .busy { c with t1 := foldStage1 c.sum, phase := .stage2 } s
  | .stage2 => .busy { c with t2 := foldStage2 c.t1, phase := .output } s
  | .output => .returned (checksumResult (complementFold c.t2)) s

/-- The bytes of a command's source that a COPY in flight has already overwritten in its destination, each with the
value it held before (spec/93 U6). -/
def overwrittenFor (i : Instr) (c : Context) : List Host.Cell :=
  match destinationOf c.instr with
  | some r => c.undo.filter (fun p => rangeCovers (sourceOf i) r.dom p.1 && r.covers r.dom p.1)
  | none => []

/-- The same for every COPY in flight. -/
def State.overwritten (s : State) (i : Instr) : List Host.Cell := s.contexts.flatMap (overwrittenFor i)

/-- A new transaction for the command being accepted: the frame and TID are captured (R11), every transient register
holds a free value until the command writes it (R15, R21, log entry 5). A source byte that a COPY in flight has written
reads as its old or its new value (spec/93 U6). -/
def State.newContext (s : State) (i : Instr) : Context where
  tid := s.cmd.tid
  frame := s.cmd.frame
  instr := i
  sum := Config.freeWord s.draws
  pos := Config.freeWord s.draws
  hold := Config.freeByte s.draws
  holdv := Config.freeBit s.draws
  t1 := Config.freeStage s.draws
  t2 := Config.freeHalf s.draws
  phase := .gather
  latch := none
  stale := s.overwritten i
  undo := []

/-- Puts a transaction among those in flight, behind the others, be it new or one that was let proceed and has not ended.
The place is a DESIGN CHOICE (log entry 8): R44 and spec/93 U17 give transactions in flight no order. -/
def State.park (s : State) (c : Context) : State := { s with contexts := s.contexts ++ [c] }

/-- Whether a command would write the destination of a COPY in flight (R49, R108). -/
def State.touchesBusy (s : State) (i : Instr) : Bool :=
  s.contexts.any (fun c => destinationsMeet i c.instr)

/-- Accepts a command after its checks (R146): a failed check is raised, a command without a meaning is refused, any
other opens a transaction and goes on. -/
def gate (check : Option Status) (i : Instr) (s : State)
    (go : Context → State → Host.Outcome State Fault Refusal) : Host.Outcome State Fault Refusal :=
  match check with
  | some st => .next (s.raise s.cmd.tid st)
  | none =>
    if selfOverlap i then .refused .overlappingCopy
    else if s.touchesBusy i then .refused .busyDestination
    else go (s.newContext i) s.draw

/-- What a micro-step leaves when it is taken alone: a transaction that has not ended is in flight again, behind the
others (DESIGN CHOICE, log entry 8). -/
def settle (tid : Tid) : Progress → Host.Outcome State Fault Refusal
  | .busy c s => .next (s.park c)
  | .waiting c s => .next (s.park c)
  | .returned v s => .next (s.respond tid .ok v)
  | .raised st s => .next (s.raise tid st)
  | .stopped r => .fault r

/-- Runs a transaction to its response or to its next unanswered access, at most n micro-steps (the grain: log entry 9);
one that has not ended is in flight again, behind the others (DESIGN CHOICE, log entry 8). -/
def drive (f : Context → State → Progress) : Nat → Context → State → Host.Outcome State Fault Refusal
  | 0, c, s => .next (s.park c)
  | n + 1, c, s =>
    match f c s with
    | .busy c' s' => drive f n c' s'
    | .waiting c' s' => .next (s'.park c')
    | .returned v s' => .next (s'.respond c.tid .ok v)
    | .raised st s' => .next (s'.raise c.tid st)
    | .stopped r => .fault r

/-- Abandons a transaction at reset (R161): the destination range of a COPY is unspecified, no response is written. -/
def State.abandon (s : State) (c : Context) : State := s.scrambleRange (destinationOf c.instr)

/-- Reset of the engine (R160, R161): the transactions in flight are abandoned, no response is owed, the command
registers are as after reset; what waits at the port and what the outside world holds stays. -/
def State.engineReset (s : State) : State :=
  s.contexts.foldl State.abandon { s with contexts := [], responses := [], cmd := Command.atReset }

end Sys2Proof.Machine
end

