-- ==== Sys2Proof/Machine/Accumulator.lean ====
section
/-!
DEFINITION. Command ACC, the Accumulator (spec/41_accumulator.md rules R85 to R90).
-/

namespace Sys2Proof.Machine

/-- The registers ACC writes first: SUM <- SEED, HOLDV <- 0, POS <- 0 (R74, R15). -/
def accStart (seed : Word) (c : Context) : Context := { c with sum := seed, pos := 0, holdv := false }

/-- One micro-step of ACC: a byte of DIRECT is read and enters the sum, or the sum is returned (R34, R87). -/
def accTick (base len : Word) (c : Context) (s : State) : Progress :=
  if c.pos.toNat < len.toNat then
    let a := base.toNat + c.pos.toNat
    atAddress a (.busy (c.feed (s.sourceByte c .direct a)) (s.afterSource c a))
  else .returned c.flush.sum s

/-- How many micro-steps ACC takes at most. -/
def accSteps (len : Word) : Nat := len.toNat + 1

/-- ACC (R86, R87). -/
def execAcc (seed base size len : Word) (s : State) : Host.Outcome State Fault Refusal :=
  gate (accCheck base size len) (.acc seed base size len) s
    (fun c t => drive (accTick base len) (accSteps len) (accStart seed c) t)

end Sys2Proof.Machine
end

