-- ==== Sys2Proof/Machine/FastHeader.lean ====
section
/-!
DEFINITION. Command FAST, the FastHeaderChecksum path (spec/45_fast_header.md rules R128 to R134).
-/

namespace Sys2Proof.Machine

/-- FAST starts with SUM <- 0 and POS <- 0 (R130, R15). -/
def fastStart (c : Context) : Context := { c with sum := 0, pos := 0 }

/-- The 32-bit big-endian word a transaction reads at an address of DIRECT, byte by byte (R34, R35, R130). -/
def fastWord (a : Nat) (c : Context) (s : State) : Word :=
  let s1 := s.afterSource c a
  let s2 := s1.afterSource c (a + 1)
  let s3 := s2.afterSource c (a + 2)
  be32 (s.sourceByte c .direct a) (s1.sourceByte c .direct (a + 1)) (s2.sourceByte c .direct (a + 2))
    (s3.sourceByte c .direct (a + 3))

/-- The state after that read. -/
def afterFastWord (a : Nat) (c : Context) (s : State) : State :=
  (((s.afterSource c a).afterSource c (a + 1)).afterSource c (a + 2)).afterSource c (a + 3)

/-- One micro-step of FAST: a word is read and added, or the pipeline moves (R130). -/
def fastTick (words : Half) (base : Word) (c : Context) (s : State) : Progress :=
  match c.phase with
  | .gather =>
    if c.pos.toNat < fastBytes words then
      let a := base.toNat + c.pos.toNat
      atAddress (a + 3) (.busy { c with sum := add1c32 c.sum (fastWord a c s), pos := c.pos + 4 } (afterFastWord a c s))
    else foldPipeline c s
  | _ => foldPipeline c s

/-- How many micro-steps FAST takes: its words, the end of the loop, two stages, the output. -/
def fastSteps (words : Half) : Nat := words.toNat + 4

/-- FAST (R129, R130). -/
def execFast (words : Half) (base size : Word) (s : State) : Host.Outcome State Fault Refusal :=
  gate (fastCheck words base size) (.fast words base size) s
    (fun c t => drive (fastTick words base) (fastSteps words) (fastStart c) t)

end Sys2Proof.Machine
end

