-- ==== Sys2Proof/Machine/Folder.lean ====
section
/-!
DEFINITION. Command FOLD, the Folder (spec/43_folder.md rules R110 to R113).
-/

namespace Sys2Proof.Machine

/-- FOLD starts at the first stage of the pipeline with its operand in SUM (R111). -/
def foldStart (sum : Word) (c : Context) : Context := { c with sum := sum, phase := .stage1 }

/-- One micro-step of FOLD: the next stage of the pipeline (R111, R112). -/
def foldTick (c : Context) (s : State) : Progress := foldPipeline c s

/-- How many micro-steps FOLD takes: two stages and the output. -/
def foldSteps : Nat := 3

/-- FOLD (R110, R111). -/
def execFold (sum : Word) (s : State) : Host.Outcome State Fault Refusal :=
  gate foldCheck (.fold sum) s (fun c t => drive foldTick foldSteps (foldStart sum c) t)

end Sys2Proof.Machine
end

