-- ==== Sys2Proof/Machine/FusedCopy.lean ====
section
/-!
DEFINITION. Command COPY, the FusedCopyChecksum unit (spec/42_fused_copy.md rules R95 to R105).
-/

namespace Sys2Proof.Machine

/-- The registers COPY writes first: SUM <- SEED, HOLDV <- 0, POS <- 0 (R97). -/
def copyStart (seed : Word) (c : Context) : Context := { c with sum := seed, pos := 0, holdv := false }

/-- The read of byte POS (R97): the access is asked for, the byte is read and waits to be written. -/
def copyRead (sdom : Domain) (srcBase : Word) (dest : ByteRange) (c : Context) (s : State) : Progress :=
  match s.ask sdom with
  | .unanswered => .waiting c s
  | .faulted t => copyFault dest t
  | .granted t =>
    let a := srcBase.toNat + c.pos.toNat
    atAddress a (.busy { c with latch := some (t.sourceByte c sdom a) } (t.afterSource c a))

/-- The write of byte POS (R97): the access is asked for, the byte is written, then it enters the sum. -/
def copyWrite (ddom : Domain) (dstBase : Word) (dest : ByteRange) (x : Byte) (c : Context) (s : State) : Progress :=
  match s.ask ddom with
  | .unanswered => .waiting c s
  | .faulted t => copyFault dest t
  | .granted t =>
    let a := dstBase.toNat + c.pos.toNat
    atAddress a
      (.busy { c.feed x with latch := none, undo := c.undo ++ [(a, (t.mem ddom).read a)] } (t.poke ddom a x))

/-- One micro-step of COPY: a read, a write, or the return of the sum (R34, R97). -/
def copyTick (sdom ddom : Domain) (srcBase len dstBase : Word) (c : Context) (s : State) : Progress :=
  let dest : ByteRange := ⟨ddom, dstBase.toNat, len.toNat⟩
  if c.pos.toNat < len.toNat then
    match c.latch with
    | none => copyRead sdom srcBase dest c s
    | some x => copyWrite ddom dstBase dest x c s
  else .returned c.flush.sum s

/-- How many micro-steps COPY takes at most. -/
def copySteps (len : Word) : Nat := 2 * len.toNat + 1

/-- COPY (R96, R97, R101, R105). -/
def execCopy (sdom ddom : Domain) (seed srcBase srcSize len dstBase dstSize : Word) (s : State) :
    Host.Outcome State Fault Refusal :=
  gate (copyCheck srcBase srcSize len dstBase dstSize) (.copy sdom ddom seed srcBase srcSize len dstBase dstSize) s
    (fun c t => drive (copyTick sdom ddom srcBase len dstBase) (copySteps len) (copyStart seed c) t)

end Sys2Proof.Machine
end

