-- ==== Sys2Proof/Machine/PseudoHeader.lean ====
section
/-!
DEFINITION. Command PHC, the PseudoHeaderCombiner (spec/44_pseudo_header.md rules R118 to R123).
-/

namespace Sys2Proof.Machine

/-- s3 of R120: the two addresses and the length and protocol word added with end-around carry. -/
def phcSum (proto : Byte) (len16 : Half) (sum saddr daddr : Word) : Word :=
  add1c32 (add1c32 (add1c32 sum saddr) daddr) (lengthProtocolWord proto len16)

/-- PHC starts with its operand in SUM (R15). -/
def phcStart (sum : Word) (c : Context) : Context := { c with sum := sum }

/-- One micro-step of PHC: the three additions, then the pipeline (R120). -/
def phcTick (proto : Byte) (len16 : Half) (saddr daddr : Word) (c : Context) (s : State) : Progress :=
  match c.phase with
  | .gather => .busy { c with sum := phcSum proto len16 c.sum saddr daddr, phase := .stage1 } s
  | _ => foldPipeline c s

/-- How many micro-steps PHC takes: the additions, two stages, the output. -/
def phcSteps : Nat := 4

/-- PHC (R118, R120). -/
def execPhc (proto : Byte) (len16 : Half) (sum saddr daddr : Word) (s : State) : Host.Outcome State Fault Refusal :=
  gate phcCheck (.phc proto len16 sum saddr daddr) s
    (fun c t => drive (phcTick proto len16 saddr daddr) phcSteps (phcStart sum c) t)

end Sys2Proof.Machine
end

