-- ==== Sys2Proof/Machine/Dispatch.lean ====
section
/-!
DEFINITION. One arm per command (spec/30_encoding.md rule R53), each one direct call of its meaning.
-/

namespace Sys2Proof.Machine

def exec (i : Instr) (s : State) : Host.Outcome State Fault Refusal :=
  match i with
  | .acc seed base size len => Sys2Proof.Machine.execAcc seed base size len s
  | .copy sdom ddom seed srcBase srcSize len dstBase dstSize => Sys2Proof.Machine.execCopy sdom ddom seed srcBase srcSize len dstBase dstSize s
  | .fold sum => Sys2Proof.Machine.execFold sum s
  | .phc proto len16 sum saddr daddr => Sys2Proof.Machine.execPhc proto len16 sum saddr daddr s
  | .fast words base size => Sys2Proof.Machine.execFast words base size s

end Sys2Proof.Machine
end

