-- ==== Sys2Proof/Machine/Engine.lean ====
section
/-!
DEFINITION. The engine's own moves and those of the outside world (spec/00_scope.md rule R8): fetching a command from the port and
running it, letting a transaction in flight proceed, and every event of the agenda.
-/

namespace Sys2Proof.Machine

/-- The checks of a command (R86, R96, R110, R118, R129). -/
def checkOf : Instr → Option Status
  | .acc _ base size len => accCheck base size len
  | .copy _ _ _ srcBase srcSize len dstBase dstSize => copyCheck srcBase srcSize len dstBase dstSize
  | .fold _ => foldCheck
  | .phc _ _ _ _ _ => phcCheck
  | .fast words base size => fastCheck words base size

/-- The first register writes of a command. -/
def startOf : Instr → Context → Context
  | .acc seed _ _ _, c => accStart seed c
  | .copy _ _ seed _ _ _ _ _, c => copyStart seed c
  | .fold sum, c => foldStart sum c
  | .phc _ _ sum _ _, c => phcStart sum c
  | .fast _ _ _, c => fastStart c

/-- One micro-step of a command. -/
def tickOf : Instr → Context → State → Progress
  | .acc _ base _ len => accTick base len
  | .copy sdom ddom _ srcBase _ len dstBase _ => copyTick sdom ddom srcBase len dstBase
  | .fold _ => foldTick
  | .phc proto len16 _ saddr daddr => phcTick proto len16 saddr daddr
  | .fast words base _ => fastTick words base

/-- How many micro-steps a command takes at most. -/
def stepsOf : Instr → Nat
  | .acc _ _ _ len => accSteps len
  | .copy _ _ _ _ _ len _ _ => copySteps len
  | .fold _ => foldSteps
  | .phc _ _ _ _ _ => phcSteps
  | .fast words _ _ => fastSteps words

/-- Whether a context is free, so that a command can be accepted (R153). -/
def State.hasRoom (s : State) : Bool := decide (s.contexts.length ≤ Config.extraContexts)

/-- The state with a command taken from the port and captured (R11). -/
def State.capture (s : State) (c : Command) (rest : List Command) : State := { s with cmd := c, port := rest }

/-- Fetches and runs the captured command: decoded, it is executed; rejected, it is answered InvalidCommand with no
memory access (R57, R58, R145). -/
def runCaptured (s : State) : Host.Outcome State Fault Refusal :=
  match decode s.cmd.frame with
  | .command i => exec i s
  | .rejected _ => .next (s.raise s.cmd.tid .invalidCommand)

/-- Accepts the captured command without letting it proceed: checks are made, then it is in flight (R19). -/
def acceptCaptured (s : State) : Host.Outcome State Fault Refusal :=
  match decode s.cmd.frame with
  | .command i => gate (checkOf i) i s (fun c t => .next (t.park (startOf i c)))
  | .rejected _ => .next (s.raise s.cmd.tid .invalidCommand)

/-- Takes the k-th waiting command into a free context without letting it proceed; with no such command or no free
context it waits (R153). -/
def accept (k : Nat) (s : State) : Host.Outcome State Fault Refusal :=
  match s.port[k]? with
  | none => .next s
  | some c => if s.hasRoom then acceptCaptured (s.capture c (s.port.eraseIdx k)) else .next s

/-- The state without the k-th transaction in flight. -/
def State.without (s : State) (k : Nat) : State := { s with contexts := s.contexts.eraseIdx k }

/-- Lets the k-th transaction in flight take one micro-step (R20, R44). -/
def tick (k : Nat) (s : State) : Host.Outcome State Fault Refusal :=
  match s.contexts[k]? with
  | none => .next s
  | some c => settle c.tid (tickOf c.instr c (s.without k))

/-- Lets the k-th transaction in flight run to its response or its next unanswered access (R104). -/
def resume (k : Nat) (s : State) : Host.Outcome State Fault Refusal :=
  match s.contexts[k]? with
  | none => .next s
  | some c => drive (tickOf c.instr) (stepsOf c.instr) c (s.without k)

/-- The engine's own move: the oldest waiting command is fetched and run if a context is free, else the transaction at the
head of `contexts` is resumed, else nothing happens (R19, R153). R44 and spec/93 U17 allow any order; this one is a DESIGN
CHOICE (log entry 8): one that does not end goes behind the others (`State.park`), so repeated moves go round. -/
def advance (s : State) : Host.Outcome State Fault Refusal :=
  match s.port with
  | [] => resume 0 s
  | c :: rest => if s.hasRoom then runCaptured (s.capture c rest) else resume 0 s

/-- Whether a byte is in the destination of a COPY in flight (R49). -/
def State.destinationBusy (s : State) (d : Domain) (a : Nat) : Bool :=
  s.contexts.any (fun c => rangeCovers (destinationOf c.instr) d a)

/-- A byte written by a requester or another agent: a source byte in use takes note (R49); a destination byte in use is
a race with no effect given (spec/93 U6). -/
def outsideStore (d : Domain) (a : Word) (b : Byte) (s : State) : Host.Outcome State Fault Refusal :=
  if s.destinationBusy d a.toNat then .refused .storeToBusyDestination else .next (s.poke d a.toNat b)

/-- A requester's move (R8). -/
def requesterStep (m : RequesterMove) (s : State) : Host.Outcome State Fault Refusal :=
  match m with
  | .offer c => .next { s with port := s.port ++ [c] }
  | .collect k => .next { s with responses := s.responses.eraseIdx k }
  | .store d a b => outsideStore d a b s

/-- The environment's move (R8, R20, R40, R160). -/
def environmentStep (m : EnvironmentMove) (s : State) : Host.Outcome State Fault Refusal :=
  match m with
  | .answer a => .next { s with answers := s.answers ++ [a] }
  | .store d a b => outsideStore d a b s
  | .accept k => accept k s
  | .tick k => tick k s
  | .resume k => resume k s
  | .reset => .next s.engineReset

/-- One event of the agenda. -/
def serve (e : Event) (s : State) : Host.Outcome State Fault Refusal :=
  match e with
  | .engine => advance s
  | .requester m => requesterStep m s
  | .environment m => environmentStep m s

/-- The state with a command put where the engine's next move fetches it: it heads the port, the next move is the
engine's, and a context is free. -/
def State.placeCommand (s : State) (c : Command) : State :=
  { s with port := c :: s.port, agenda := [], contexts := if s.hasRoom then s.contexts else [] }

end Sys2Proof.Machine
end

