-- ==== Sys2Proof/Machine/Step.lean ====
section
/-!
DEFINITION. One step of the machine: the next event of the agenda, or the engine's own move when the agenda is empty
(spec/00_scope.md rule R8, log entry 8).
-/

namespace Sys2Proof.Machine

/-- One step. -/
def step (s : State) : Host.Outcome State Fault Refusal :=
  match s.agenda with
  | [] => advance s
  | e :: rest => serve e { s with agenda := rest }

/-- The state with the command of an opcode-table number at the head of the port, TID 0, so that the next step fetches
and runs it (log entry 21). -/
def State.withFetchWord (s : State) (nbits w : Nat) : State := s.placeCommand ⟨0, tableFrame nbits w⟩

end Sys2Proof.Machine
end

