-- ==== Sys2Proof/Machine/Requester.lean ====
section
/-!
DEFINITION. What a requester does with commands and responses (spec/10_state.md rule R13, spec/20_memory.md rule R32,
spec/30_encoding.md rule R61): none of it is the engine's, it is here so that whole exchanges can be stated.
-/

namespace Sys2Proof.Machine

/-- Issues a command under a TID (R63). -/
def issueMove (tid : Tid) (i : Instr) : Event := .requester (.offer ⟨tid, encode i⟩)

/-- The running sum or checksum a requester may use: RESULT when STATUS is OK (R13, R56, R165). -/
def usableResult (r : Response) : Option Word := if r.r0 = Status.code .ok then some r.r1 else none

/-- The two stores that put a checksum into a header field, high byte at the lower address (R32, R115, R167). -/
def storeField (a : Word) (c : Half) : List Event :=
  [.requester (.store .direct a (c.extractLsb' 8 8)), .requester (.store .direct (a + 1) (c.extractLsb' 0 8))]

/-- CSUM of R61, first command. -/
def csumFirst (base size len : Word) : Instr := .acc 0 base size len

/-- CSUM of R61, second command, from the response to the first. -/
def csumSecond (r : Response) : Option Instr := (usableResult r).map Instr.fold

/-- VERIFY of R61: the buffer is good when the folded result is 0. -/
def verified (r : Response) : Bool := decide (usableResult r = some 0)

end Sys2Proof.Machine
end

