-- ==== Sys2Proof/Safety.lean ====
section
/-!
DEFINITION. What claims are stated in: the invariant of the machine, the "disjoint buffers" under which the spec gives its
guarantee (spec/20_memory.md rule R49), the views that pass the bounds check (R37), and a few readings of a step's outcome.
-/

namespace Sys2Proof.Machine

/-- A view that passes the checks of R37 for n bytes. -/
abbrev ViewFits (base size : Word) (n : Nat) : Prop :=
  base.toNat + size.toNat ≤ 4294967296 ∧ n ≤ size.toNat

/-- A command reads no byte that a COPY in flight writes. -/
def State.readsUndisturbed (s : State) (i : Instr) : Bool :=
  s.contexts.all (fun c => !rangesMeet (sourceOf i) (destinationOf c.instr))

/-- The buffers of a command are disjoint from those of every transaction in flight (R49): it reads and writes no
destination in use, and writes no source in use. -/
def State.disjointFrom (s : State) (i : Instr) : Bool :=
  s.contexts.all (fun c =>
    !rangesMeet (sourceOf i) (destinationOf c.instr) && !destinationsMeet i c.instr &&
      !rangesMeet (sourceOf c.instr) (destinationOf i))

/-- How many supervised accesses a COPY of n bytes makes (R34, R153). -/
def supervisedAccesses (sdom ddom : Domain) (n : Nat) : Nat :=
  (if sdom = .supervised then n else 0) + (if ddom = .supervised then n else 0)

/-- The responses a step wrote. -/
def newResponses (s t : State) : List Response := t.responses.drop s.responses.length

/-- Two responses a requester cannot tell apart: RESULT counts only when STATUS is OK (R56). -/
abbrev SameAnswer (r q : Response) : Prop := r.tid = q.tid ∧ r.r0 = q.r0 ∧ (r.r0 = 0 → r.r1 = q.r1)

/-- A transaction apart from its notes of racing bytes. -/
abbrev SameTransaction (c d : Context) : Prop := { c with stale := [] } = { d with stale := [] }

/-- The words of a frame that a command reads, the others zero (R22). -/
def readWords (i : Instr) (f : Frame) : Frame :=
  match i with
  | .acc _ _ _ _ => ⟨f.w0, f.w1, f.w2, f.w3, f.w4, 0, 0, 0⟩
  | .copy _ _ _ _ _ _ _ _ => ⟨f.w0, f.w1, f.w2, f.w3, f.w4, f.w5, f.w6, 0⟩
  | .fold _ => ⟨f.w0, f.w1, 0, 0, 0, 0, 0, 0⟩
  | .phc _ _ _ _ _ => ⟨f.w0, f.w1, f.w2, f.w3, 0, 0, 0, 0⟩
  | .fast _ _ _ => ⟨f.w0, 0, f.w2, f.w3, 0, 0, 0, 0⟩

/-- The fold stages hold what the pipeline has computed so far (R111, R112). -/
def pipelineLegal (c : Context) : Bool :=
  match c.phase with
  | .gather => true
  | .stage1 => true
  | .stage2 => decide (c.t1 = foldStage1 c.sum)
  | .output => decide (c.t1 = foldStage1 c.sum) && decide (c.t2 = foldStage2 c.t1)

/-- POS and HOLDV of a byte loop (R14, R74): POS is at most the length, a byte is held exactly when POS is odd. -/
def byteLoopLegal (c : Context) (len : Word) : Bool :=
  decide (c.pos.toNat ≤ len.toNat) && decide (c.holdv = decide (c.pos.toNat % 2 = 1)) && decide (c.phase = .gather)

/-- The transient registers fit the command (R14, R15, R34, R120). -/
def registersLegal (c : Context) : Bool :=
  match c.instr with
  | .acc _ _ _ len => byteLoopLegal c len && decide (c.latch = none)
  | .copy _ _ _ _ _ len _ _ => byteLoopLegal c len && (decide (c.latch = none) || decide (c.pos.toNat < len.toNat))
  | .fold sum =>
    decide (c.phase ≠ .gather) && decide (c.sum = sum) && pipelineLegal c && decide (c.latch = none)
  | .phc proto len16 sum saddr daddr =>
    decide (c.sum = if c.phase = .gather then sum else phcSum proto len16 sum saddr daddr) && pipelineLegal c &&
      decide (c.latch = none)
  | .fast words _ _ =>
    decide (c.pos.toNat ≤ fastBytes words) && decide (c.pos.toNat % 4 = 0) &&
      (decide (c.phase = .gather) || decide (c.pos.toNat = fastBytes words)) && pipelineLegal c &&
      decide (c.latch = none)

/-- A transaction in flight that the engine can hold: its frame decodes to its command (R11), the command passed its
checks (R146) and has a meaning (R105), its registers fit. -/
def contextLegal (c : Context) : Bool :=
  decide (decode c.frame = .command c.instr) && decide (checkOf c.instr = none) && !selfOverlap c.instr &&
    registersLegal c

/-- A response the engine can write: one of the five codes in R[0], bits 31:4 zero (R56, spec/93 U14). -/
def responseLegal (r : Response) : Bool := decide (r.r0.toNat ≤ 4)

/-- The invariant of the machine. -/
structure State.Inv (s : State) : Prop where
  /-- Domain DIRECT is in canonical form. -/
  direct_wf : s.direct.wf = true
  /-- Domain SUPERVISED is in canonical form. -/
  supervised_wf : s.supervised.wf = true
  /-- At most N_CTX transactions are in flight (R153). -/
  room : s.contexts.length ≤ Config.contextCount
  /-- Every transaction in flight is legal. -/
  contexts_legal : ∀ c ∈ s.contexts, contextLegal c = true
  /-- No two transactions in flight write the same byte. R108 and U6 call two such COPYs a race; that none are in flight
  together is the model's choice to refuse the second (log entry 11). -/
  destinations_apart : s.contexts.Pairwise (fun c d => destinationsMeet c.instr d.instr = false)
  /-- Every response is legal. -/
  responses_legal : ∀ r ∈ s.responses, responseLegal r = true

end Sys2Proof.Machine
end

