-- ==== Sys2Proof/Certificates/Slice0/Obligations.lean ====
section
/-!
DEFINITION. The statements for the provers, from the numbered rules of spec/. Every docstring names the rule or section a
statement rests on; OBLIGATIONS.json lists them.
-/

open Sys2Proof Sys2Proof.Machine

/-! ## Arithmetic -/

/-- R70: addition with end-around carry, its bound, both forms of its value, its examples. -/
def Obligations.AddEndAroundCarry : Prop :=
  (∀ a b : Word,
    a.toNat + b.toNat ≤ 2 ^ 33 - 2 ∧
    ((a.toNat + b.toNat) / 2 ^ 32 = 1 → (a.toNat + b.toNat) % 2 ^ 32 ≤ 2 ^ 32 - 2) ∧
    (add1c32 a b).toNat = (a.toNat + b.toNat) % 2 ^ 32 + (a.toNat + b.toNat) / 2 ^ 32 ∧
    (add1c32 a b).toNat =
      if a.toNat + b.toNat < 2 ^ 32 then a.toNat + b.toNat else a.toNat + b.toNat - (2 ^ 32 - 1)) ∧
  add1c32 0xFFFFFFFF#32 0x00000001#32 = 0x00000001#32 ∧ add1c32 0xFFFFFFFE#32 0x00000001#32 = 0xFFFFFFFF#32 ∧
  add1c32 0xFFFFFFFF#32 0xFFFFFFFF#32 = 0xFFFFFFFF#32 ∧ add1c32 0#32 0#32 = 0#32

/-- R71 (a) to (e): congruence modulo 2^32 - 1, zero, the two zeros apart, commutativity, associativity, and the value of
a fold over a list, which depends on no order. -/
def Obligations.AddEndAroundLaws : Prop :=
  (∀ a b : Word, (add1c32 a b).toNat % (2 ^ 32 - 1) = (a.toNat + b.toNat) % (2 ^ 32 - 1)) ∧
  (∀ a b : Word, add1c32 a b = 0 ↔ a = 0 ∧ b = 0) ∧
  (∀ a : Word, add1c32 a 0 = a) ∧
  (∀ a b : Word, add1c32 a b = add1c32 b a) ∧
  (∀ a b c : Word, add1c32 (add1c32 a b) c = add1c32 a (add1c32 b c)) ∧
  (∀ (a : Word) (l m : List Word), l.Perm m → l.foldl add1c32 a = m.foldl add1c32 a) ∧
  (∀ (a : Word) (l : List Word),
    (l.foldl add1c32 a = 0 ↔ a = 0 ∧ ∀ x ∈ l, x = 0) ∧
    (l.foldl add1c32 a).toNat % (2 ^ 32 - 1) = (a.toNat + (l.map BitVec.toNat).sum) % (2 ^ 32 - 1))

/-- R74: AccBytes as the fold over Words, its value on the empty sequence, its closed form, and the stream form with
HOLD and HOLDV, which gives the same value. -/
def Obligations.RunningSumForms : Prop :=
  (∀ (seed : Word) (b : List Byte),
    accBytes seed b = (wordsOf b).foldl (fun s w => add1c32 s (w.setWidth 32)) seed) ∧
  (∀ seed : Word, accBytes seed [] = seed) ∧
  (∀ (seed : Word) (b : List Byte),
    (accBytes seed b = 0 ↔ seed = 0 ∧ ∀ x ∈ b, x = 0) ∧
    (accBytes seed b).toNat % (2 ^ 32 - 1) =
      (seed.toNat + ((wordsOf b).map BitVec.toNat).sum) % (2 ^ 32 - 1)) ∧
  (∀ (c : Context) (seed : Word) (b : List Byte),
    (b.foldl Context.feed { c with sum := seed, holdv := false }).flush.sum = accBytes seed b)

/-- R75: the running sum of a concatenation, split at an even point, and the words of a concatenation it follows from. -/
def Obligations.SplitAtEvenPoint : Prop :=
  ∀ (s : Word) (a b : List Byte), a.length % 2 = 0 →
    accBytes s (a ++ b) = accBytes (accBytes s a) b ∧ wordsOf (a ++ b) = wordsOf a ++ wordsOf b

/-- R76: split at an odd point the chained sum is that of the sequence with a zero byte put in between; the rule's
example shows that the concatenation can differ. -/
def Obligations.SplitAtOddPoint : Prop :=
  (∀ (s : Word) (a b : List Byte), a.length % 2 = 1 →
    accBytes (accBytes s a) b = accBytes s (a ++ [0x00#8] ++ b)) ∧
  accBytes (accBytes 0 [0x01#8, 0x02#8, 0x03#8]) [0x04#8, 0x05#8] = 0x00000807#32 ∧
  accBytes 0 ([0x01#8, 0x02#8, 0x03#8] ++ [0x04#8, 0x05#8]) = 0x00000906#32

/-- The loop of R77: while the upper 16 bits are not zero, they are added into the lower ones; at most n passes. -/
def foldLoop : Nat → Nat → Nat
  | 0, s => s
  | n + 1, s => if s / 2 ^ 16 = 0 then s else foldLoop n (s % 2 ^ 16 + s / 2 ^ 16)

/-- R77: the two stages, that neither loses a carry, and that they equal the loop, which needs at most two passes. -/
def Obligations.TwoStageFold : Prop :=
  ∀ s : Word,
    (foldStage1 s).toNat = s.toNat % 2 ^ 16 + s.toNat / 2 ^ 16 ∧ (foldStage1 s).toNat ≤ 0x1FFFE ∧
    (fold16 s).toNat = (foldStage1 s).toNat % 2 ^ 16 + (foldStage1 s).toNat / 2 ^ 16 ∧
    (2 ^ 16 ≤ (foldStage1 s).toNat → (foldStage1 s).toNat % 2 ^ 16 ≤ 0xFFFE) ∧
    foldLoop 2 s.toNat / 2 ^ 16 = 0 ∧
    ∀ n, 2 ≤ n → foldLoop n s.toNat = (fold16 s).toNat

/-- R78: the value of the fold modulo 65535, the equalities the rule derives from it, and that the unfolded sums of the
last one can differ. -/
def Obligations.FoldCharacterised : Prop :=
  fold16 0 = 0 ∧
  (∀ s : Word, s ≠ 0 → 1 ≤ (fold16 s).toNat ∧ (fold16 s).toNat % 65535 = s.toNat % 65535) ∧
  (∀ s : Word, fold16 s = 0xFFFF#16 ↔ s ≠ 0 ∧ s.toNat % 65535 = 0) ∧
  (∀ s : Word, s.toNat ≤ 0xFFFF → (fold16 s).toNat = s.toNat) ∧
  (∀ a b : Word, (fold16 (add1c32 a b)).toNat % 65535 = (a.toNat + b.toNat) % 65535) ∧
  (∀ a b : Word, fold16 (add1c32 a b) = 0 ↔ a = 0 ∧ b = 0) ∧
  (∀ a b : Word,
    fold16 (add1c32 a b) = fold16 (add1c32 ((fold16 a).setWidth 32) ((fold16 b).setWidth 32))) ∧
  (∀ (s : Word) (h l : Half),
    fold16 (add1c32 s (h ++ l)) = fold16 (add1c32 (add1c32 s (h.setWidth 32)) (l.setWidth 32))) ∧
  (∃ (s : Word) (h l : Half), add1c32 s (h ++ l) ≠ add1c32 (add1c32 s (h.setWidth 32)) (l.setWidth 32))

/-- R79: the final checksum, when it is 0 and when 0xFFFF, and the rule's examples. -/
def Obligations.FinalChecksum : Prop :=
  (∀ s : Word, (csum16 s).toNat = 0xFFFF - (fold16 s).toNat ∧ csum16 s = ~~~(fold16 s)) ∧
  (∀ s : Word, csum16 s = 0 ↔ s ≠ 0 ∧ s.toNat % 65535 = 0) ∧
  (∀ s : Word, csum16 s = 0xFFFF#16 ↔ s = 0) ∧
  csum16 0x0002479C#32 = 0xB861#16 ∧ csum16 0xFFFFFFFF#32 = 0x0000#16 ∧ csum16 0x0001FFFF#32 = 0xFFFE#16

/-- R80: a sequence of even length with its checksum stored big-endian at an even offset folds to all ones, for any
seed. -/
def Obligations.SelfVerification : Prop :=
  ∀ (seed : Word) (pre post : List Byte), pre.length % 2 = 0 → post.length % 2 = 0 →
    let field := csum16 (accBytes seed (pre ++ [0x00#8, 0x00#8] ++ post))
    let filled := pre ++ [field.extractLsb' 8 8, field.extractLsb' 0 8] ++ post
    fold16 (accBytes seed filled) = 0xFFFF#16 ∧ csum16 (accBytes seed filled) = 0

/-! ## Encoding -/

/-- Decode of encode is the command, for every command and every value of its operands. -/
def Obligations.DecodeEncode : Prop :=
  ∀ i : Instr, i.wellFormed = true → decode (encode i) = .command i

/-- A decoded frame is the encoding of its command, but for the words the command ignores (R22, R52). -/
def Obligations.EncodeDecode : Prop :=
  ∀ (f : Frame) (i : Instr), decode f = .command i → encode i = readWords i f

/-- R145, R57: the list of illegal command words, and the answer to a captured frame that holds one: InvalidCommand, no
memory accessed. Operand words never make a frame illegal. -/
def Obligations.IllegalFrames : Prop :=
  (∀ f : Frame,
    (∃ r, decode f = .rejected r) ↔
      (f.w0.extractLsb' 24 8 = 0x00#8 ∨ 0x06#8 ≤ f.w0.extractLsb' 24 8 ∨
       ((f.w0.extractLsb' 24 8 = 0x01#8 ∨ f.w0.extractLsb' 24 8 = 0x03#8) ∧ f.w0.extractLsb' 0 24 ≠ 0) ∨
       (f.w0.extractLsb' 24 8 = 0x02#8 ∧ (f.w0.extractLsb' 18 6 ≠ 0 ∨ f.w0.extractLsb' 0 16 ≠ 0)) ∨
       (f.w0.extractLsb' 24 8 = 0x05#8 ∧ f.w0.extractLsb' 16 8 ≠ 0))) ∧
  (∀ (s : State) (r : Rejection), decode s.cmd.frame = .rejected r → ∃ v : Word,
    runCaptured s = .next { s with responses := s.responses ++ [⟨s.cmd.tid, 4, v⟩], draws := s.draws + 1 })

/-- The match and mask pairs agree with the fields of W[0] read one by one (R51, R53, R57). -/
def Obligations.DecodesWellFormedWords : Prop :=
  ∀ f : Frame, (∃ i, decode f = .command i) ↔ (commandWordOf f.w0).wellFormed = true

/-- Two frames that agree on W[0] and on the words the command reads decode to the same command (R22, spec/93 U5). -/
def Obligations.IgnoredWordsHaveNoEffect : Prop :=
  ∀ (f g : Frame) (i : Instr), decode f = .command i → readWords i f = readWords i g → decode g = .command i

/-- No two rows of the opcode map select the same command word (R53). -/
def Obligations.OpcodeRowsDisjoint : Prop :=
  opcodeRows.Pairwise (fun r q => ∀ w : Word, ¬(r.selects w = true ∧ q.selects w = true))

/-- The five texts and frames of R62, word by word, encoded and decoded. -/
def Obligations.EncodingExamples : Prop :=
  ∀ row ∈ ([
      (.acc 0 0x1000#32 20#32 20#32, ⟨0x01000000#32, 0, 0x00001000#32, 0x00000014#32, 0x00000014#32, 0, 0, 0⟩),
      (.copy .supervised .direct 0 0x8000#32 6#32 5#32 0x2000#32 8#32,
        ⟨0x02010000#32, 0, 0x00008000#32, 0x00000006#32, 0x00000005#32, 0x00002000#32, 0x00000008#32, 0⟩),
      (.fold 0x0002479C#32, ⟨0x03000000#32, 0x0002479C#32, 0, 0, 0, 0, 0, 0⟩),
      (.phc 17#8 8#16 0 0x0A000001#32 0x0A000002#32,
        ⟨0x04110008#32, 0, 0x0A000001#32, 0x0A000002#32, 0, 0, 0, 0⟩),
      (.fast 5#16 0x1000#32 20#32, ⟨0x05000005#32, 0, 0x00001000#32, 0x00000014#32, 0, 0, 0, 0⟩)] :
      List (Instr × Frame)),
    encode row.1 = row.2 ∧ decode row.2 = .command row.1

/-! ## The step -/

/-- R22, R11: accepting a command now and letting it run later, with nothing in between, ends as running it at once. -/
def Obligations.AdmissionIsInvisible : Prop :=
  ∀ (s t : State) (c : Command) (rest : List Command), s.port = c :: rest → s.hasRoom = true →
    accept 0 s = .next t → t.contexts.length = s.contexts.length + 1 →
    resume s.contexts.length t = runCaptured (s.capture c rest)

/-- R42, R44: taking one micro-step of the last transaction in flight and then letting it run ends as letting it run at
once, for a legal transaction. -/
def Obligations.MicroStepsCompose : Prop :=
  ∀ (s t : State) (k : Nat) (c : Context), s.contexts.length = k + 1 → s.contexts[k]? = some c →
    contextLegal c = true → tick k s = .next t → t.contexts.length = s.contexts.length →
    resume k t = resume k s

/-- R153: under the invariant, a transaction in flight that is not a COPY, or whose supervised accesses have all been
answered with success, responds when it is let run, with its TID. -/
def Obligations.InFlightResponds : Prop :=
  ∀ (s : State) (k : Nat) (c : Context), s.Inv → s.contexts[k]? = some c →
    (∀ sdom ddom seed srcBase srcSize len dstBase dstSize,
      c.instr = .copy sdom ddom seed srcBase srcSize len dstBase dstSize →
      ∃ rest, s.answers = List.replicate (supervisedAccesses sdom ddom len.toNat) .succeed ++ rest) →
    ∃ (t : State) (v : Word), resume k s = .next t ∧ t.responses = s.responses ++ [⟨c.tid, 0, v⟩] ∧
      t.contexts.length + 1 = s.contexts.length

/-- With no event pending, a free context and a command waiting, a step captures the command and is exec of what it
decodes to; a frame that decodes to no command is answered InvalidCommand (R11, R58, R57). That the engine takes the
oldest waiting command then is the model's schedule (log entry 8). -/
def Obligations.StepRunsDecodedCommand : Prop :=
  ∀ (s : State) (c : Command) (rest : List Command), s.agenda = [] → s.port = c :: rest → s.hasRoom = true →
    (∀ i : Instr, decode c.frame = .command i → step s = exec i { s with cmd := c, port := rest }) ∧
    (∀ r : Rejection, decode c.frame = .rejected r →
      step s = .next (({ s with cmd := c, port := rest } : State).raise c.tid .invalidCommand))

/-- R153: while every context is busy, a step leaves the waiting commands as they are, whichever agent takes it, but that
an offer adds its command behind them: a command offered then waits, it is neither refused nor lost. What the engine does
instead of accepting one is the model's schedule (log entry 8) and is not stated. -/
def Obligations.OfferedCommandWaits : Prop :=
  ∀ s t : State, s.hasRoom = false → step s = .next t →
    (t.port = s.port ∧ ∀ c rest, s.agenda ≠ .requester (.offer c) :: rest) ∨
    ∃ c rest, s.agenda = .requester (.offer c) :: rest ∧ t.port = s.port ++ [c]

/-- What a requester and the environment put in (R8, R13, R40): a command goes to the port, an answer behind the answers
already given, a response is taken, and nothing else changes. The form of these moves is the model's (log entries 7, 8,
22 and 23). -/
def Obligations.OutsideMoves : Prop :=
  (∀ (s : State) (c : Command) (rest : List Event), s.agenda = .requester (.offer c) :: rest →
    step s = .next { s with agenda := rest, port := s.port ++ [c] }) ∧
  (∀ (s : State) (k : Nat) (rest : List Event), s.agenda = .requester (.collect k) :: rest →
    step s = .next { s with agenda := rest, responses := s.responses.eraseIdx k }) ∧
  (∀ (s : State) (a : Answer) (rest : List Event), s.agenda = .environment (.answer a) :: rest →
    step s = .next { s with agenda := rest, answers := s.answers ++ [a] })

/-- R32: the two stores of a checksum field leave its high byte at the lower address and its low byte at the next. -/
def Obligations.FieldStoredBigEndian : Prop :=
  ∀ (s : State) (a : Word) (v : Half), s.agenda = storeField a v → s.contexts = [] → a.toNat + 1 < 2 ^ 32 →
    ∃ t u, step s = .next t ∧ step t = .next u ∧
      u.direct.read a.toNat = v.extractLsb' 8 8 ∧ u.direct.read (a.toNat + 1) = v.extractLsb' 0 8 ∧
      (∀ b, b ≠ a.toNat → b ≠ a.toNat + 1 → u.direct.read b = s.direct.read b) ∧ u.supervised = s.supervised

/-- A store of another agent to the destination of a COPY in flight is refused by name (R49, spec/93 U6; of the two
treatments U6 allows, the model's choice, log entry 12); every other store completes, also on a source byte in use, and
changes that one byte. -/
def Obligations.OutsideStores : Prop :=
  ∀ (s : State) (d : Domain) (a : Word) (b : Byte),
    (s.destinationBusy d a.toNat = true → outsideStore d a b s = .refused .storeToBusyDestination) ∧
    (s.destinationBusy d a.toNat = false → ∃ t, outsideStore d a b s = .next t ∧ (t.mem d).read a.toNat = b ∧
      (∀ d' a', (d' ≠ d ∨ a' ≠ a.toNat) → (t.mem d').read a' = (s.mem d').read a') ∧ t.responses = s.responses)

/-! ## ACC -/

/-- R86, R87: the result of ACC over buffers no COPY in flight writes. -/
def Obligations.AccResult : Prop :=
  ∀ (seed base size len : Word) (s : State),
    ViewFits base size len.toNat → s.readsUndisturbed (.acc seed base size len) = true →
    exec (.acc seed base size len) s = .next
      { s with responses := s.responses ++ [⟨s.cmd.tid, 0, accBytes seed (s.direct.bytes base.toNat len.toNat)⟩],
               draws := s.draws + 1 }

/-- R86, R141: a view past the top or a length over the size is answered InvalidLength; nothing else changes, and
RESULT is whatever the free value is. -/
def Obligations.AccInvalidLength : Prop :=
  ∀ (seed base size len : Word) (s : State), ¬ViewFits base size len.toNat →
    ∃ v : Word, exec (.acc seed base size len) s = .next
      { s with responses := s.responses ++ [⟨s.cmd.tid, 2, v⟩], draws := s.draws + 1 }

/-- R88: a zero length reads no memory and returns the seed, whatever the state; the checks still apply. -/
def Obligations.AccZeroLength : Prop :=
  ∀ (seed base size : Word) (s : State),
    (base.toNat + size.toNat ≤ 2 ^ 32 → exec (.acc seed base size 0) s = .next
      { s with responses := s.responses ++ [⟨s.cmd.tid, 0, seed⟩], draws := s.draws + 1 }) ∧
    (2 ^ 32 < base.toNat + size.toNat → ∃ v : Word, exec (.acc seed base size 0) s = .next
      { s with responses := s.responses ++ [⟨s.cmd.tid, 2, v⟩], draws := s.draws + 1 })

/-! ## COPY -/

/-- R96, R97, R98, R100, R106: COPY between disjoint buffers when every supervised access succeeds, for each pair of
domains: the bytes are copied, nothing else is written, RESULT is the running sum ACC gives, and exactly the answers
to its accesses are used. -/
def Obligations.CopyResult : Prop :=
  ∀ (sdom ddom : Domain) (seed srcBase srcSize len dstBase dstSize : Word) (s : State) (rest : List Answer),
    let i := Instr.copy sdom ddom seed srcBase srcSize len dstBase dstSize
    ViewFits srcBase srcSize len.toNat → ViewFits dstBase dstSize len.toNat → selfOverlap i = false →
    s.disjointFrom i = true →
    s.answers = List.replicate (supervisedAccesses sdom ddom len.toNat) .succeed ++ rest →
    let b := (s.mem sdom).bytes srcBase.toNat len.toNat
    exec i s = .next
      { s.setMem ddom ((s.mem ddom).writeBytes dstBase.toNat b) with
        responses := s.responses ++ [⟨s.cmd.tid, 0, accBytes seed b⟩], answers := rest, draws := s.draws + 1 }

/-- R97 in terms of single bytes: writeBytes puts byte k at address k of the range and leaves every other byte. -/
def Obligations.WriteBytesReadsBack : Prop :=
  ∀ (m : Memory) (base : Nat) (b : List Byte),
    (m.writeBytes base b).bytes base b.length = b ∧
    ∀ a, a < base ∨ base + b.length ≤ a → (m.writeBytes base b).read a = m.read a

/-- R96, R141: a source or destination view that does not fit is answered InvalidLength before any access. -/
def Obligations.CopyInvalidLength : Prop :=
  ∀ (sdom ddom : Domain) (seed srcBase srcSize len dstBase dstSize : Word) (s : State),
    ¬(ViewFits srcBase srcSize len.toNat ∧ ViewFits dstBase dstSize len.toNat) →
    ∃ v : Word, exec (.copy sdom ddom seed srcBase srcSize len dstBase dstSize) s = .next
      { s with responses := s.responses ++ [⟨s.cmd.tid, 2, v⟩], draws := s.draws + 1 }

/-- R99: a zero-length COPY makes no access in either domain, so it cannot fault whatever the answers, writes nothing and
returns the seed; the checks still apply. -/
def Obligations.CopyZeroLength : Prop :=
  ∀ (sdom ddom : Domain) (seed srcBase srcSize dstBase dstSize : Word) (s : State),
    (ViewFits srcBase srcSize 0 ∧ ViewFits dstBase dstSize 0 →
      exec (.copy sdom ddom seed srcBase srcSize 0 dstBase dstSize) s = .next
        { s with responses := s.responses ++ [⟨s.cmd.tid, 0, seed⟩], draws := s.draws + 1 }) ∧
    (¬(ViewFits srcBase srcSize 0 ∧ ViewFits dstBase dstSize 0) →
      ∃ v : Word, exec (.copy sdom ddom seed srcBase srcSize 0 dstBase dstSize) s = .next
        { s with responses := s.responses ++ [⟨s.cmd.tid, 2, v⟩], draws := s.draws + 1 })

/-- R105, R108, spec/93 U4 and U6: a COPY whose views fit is refused in two cases, each by its own name, and in no other:
source and destination share a byte of one domain; else its destination shares a byte with that of a COPY in flight. That
the first comes after the checks and the second is refused at all are the model's choices (log entries 13 and 11). -/
def Obligations.CopyRefusals : Prop :=
  ∀ (sdom ddom : Domain) (seed srcBase srcSize len dstBase dstSize : Word) (s : State),
    let i := Instr.copy sdom ddom seed srcBase srcSize len dstBase dstSize
    let overlaps := sdom = ddom ∧ ∃ a, srcBase.toNat ≤ a ∧ a < srcBase.toNat + len.toNat ∧
      dstBase.toNat ≤ a ∧ a < dstBase.toNat + len.toNat
    let busy := ∃ c ∈ s.contexts, ∃ a, rangeCovers (destinationOf c.instr) ddom a = true ∧
      dstBase.toNat ≤ a ∧ a < dstBase.toNat + len.toNat
    ViewFits srcBase srcSize len.toNat → ViewFits dstBase dstSize len.toNat →
    (overlaps → exec i s = .refused .overlappingCopy) ∧
    (¬overlaps → busy → exec i s = .refused .busyDestination) ∧
    (¬overlaps → ¬busy → ∀ r, exec i s ≠ .refused r)

/-- R49, spec/93 U6: over a source that a COPY in flight is writing, or a destination that a command in flight is
reading, COPY still completes: each byte is what memory holds or a value it held before, the bytes so read are what
is written and summed, and the other transactions keep all but their notes. Giving these races a meaning is the model's
choice among the treatments of U6 (log entry 10). -/
def Obligations.CopyOverRacingBytes : Prop :=
  ∀ (sdom ddom : Domain) (seed srcBase srcSize len dstBase dstSize : Word) (s : State) (rest : List Answer),
    let i := Instr.copy sdom ddom seed srcBase srcSize len dstBase dstSize
    ViewFits srcBase srcSize len.toNat → ViewFits dstBase dstSize len.toNat → selfOverlap i = false →
    s.touchesBusy i = false →
    s.answers = List.replicate (supervisedAccesses sdom ddom len.toNat) .succeed ++ rest →
    ∃ (b : List Byte) (t : State), b.length = len.toNat ∧
      (∀ k (h : k < b.length), b[k] = (s.mem sdom).read (srcBase.toNat + k) ∨
        (srcBase.toNat + k, b[k]) ∈ s.overwritten i) ∧
      exec i s = .next t ∧ t.responses = s.responses ++ [⟨s.cmd.tid, 0, accBytes seed b⟩] ∧
      t.mem ddom = (s.mem ddom).writeBytes dstBase.toNat b ∧ (∀ d, d ≠ ddom → t.mem d = s.mem d) ∧
      List.Forall₂ SameTransaction t.contexts s.contexts ∧ t.answers = rest

/-- R101, R102, R103, R142: the first supervised access answered with a fault ends the command with CopyFault; nothing
outside the destination range is written in either domain, no other transaction is affected, no further answer is
used. RESULT and the destination bytes are free values, so nothing is said of them. -/
def Obligations.CopyFaultConfined : Prop :=
  ∀ (sdom ddom : Domain) (seed srcBase srcSize len dstBase dstSize : Word) (s : State) (k : Nat)
    (rest : List Answer),
    let i := Instr.copy sdom ddom seed srcBase srcSize len dstBase dstSize
    ViewFits srcBase srcSize len.toNat → ViewFits dstBase dstSize len.toNat → selfOverlap i = false →
    s.disjointFrom i = true → k < supervisedAccesses sdom ddom len.toNat →
    s.answers = List.replicate k .succeed ++ .fault :: rest →
    ∃ (t : State) (v : Word), exec i s = .next t ∧ t.responses = s.responses ++ [⟨s.cmd.tid, 1, v⟩] ∧
      (∀ d a, (d ≠ ddom ∨ a < dstBase.toNat ∨ dstBase.toNat + len.toNat ≤ a) →
        (t.mem d).read a = (s.mem d).read a) ∧
      t.contexts = s.contexts ∧ t.answers = rest ∧ t.cmd = s.cmd ∧ t.port = s.port ∧ t.agenda = s.agenda

/-- R104, R19: while a supervised access is not answered, COPY stays in flight with its registers and what it has
written so far; it has written no response. That no answer at hand means suspension is the model's form of R40 (log
entry 7). -/
def Obligations.CopySuspends : Prop :=
  ∀ (sdom ddom : Domain) (seed srcBase srcSize len dstBase dstSize : Word) (s : State) (k : Nat),
    let i := Instr.copy sdom ddom seed srcBase srcSize len dstBase dstSize
    ViewFits srcBase srcSize len.toNat → ViewFits dstBase dstSize len.toNat → selfOverlap i = false →
    s.disjointFrom i = true → k < supervisedAccesses sdom ddom len.toNat →
    s.answers = List.replicate k .succeed →
    ∃ (t : State) (c : Context), exec i s = .next t ∧ t.responses = s.responses ∧
      t.contexts = s.contexts ++ [c] ∧ c.tid = s.cmd.tid ∧ c.frame = s.cmd.frame ∧ c.instr = i ∧
      c.pos.toNat = k / supervisedAccesses sdom ddom 1 ∧
      (t.mem ddom).bytes dstBase.toNat c.pos.toNat = (s.mem sdom).bytes srcBase.toNat c.pos.toNat ∧
      (∀ d a, (d ≠ ddom ∨ a < dstBase.toNat ∨ dstBase.toNat + c.pos.toNat ≤ a) →
        (t.mem d).read a = (s.mem d).read a) ∧ t.answers = []

/-- R104, R153: a suspension is invisible: a COPY that runs out of answers and is resumed when the rest of them has
come ends as it would have with all of them there. -/
def Obligations.SuspensionIsInvisible : Prop :=
  ∀ (sdom ddom : Domain) (seed srcBase srcSize len dstBase dstSize : Word) (s t : State)
    (first later : List Answer),
    let i := Instr.copy sdom ddom seed srcBase srcSize len dstBase dstSize
    exec i { s with answers := first } = .next t → t.contexts.length = s.contexts.length + 1 →
    resume s.contexts.length { t with answers := later } = exec i { s with answers := first ++ later }

/-- R101, R142: CopyFault is answered only by a COPY with a supervised side, and only after a fault of the environment. -/
def Obligations.CopyFaultNeedsSupervisedFault : Prop :=
  ∀ (i : Instr) (s t : State) (r : Response), exec i s = .next t → t.responses = s.responses ++ [r] → r.r0 = 1 →
    Answer.fault ∈ s.answers ∧ ∃ sdom ddom seed srcBase srcSize len dstBase dstSize,
      i = .copy sdom ddom seed srcBase srcSize len dstBase dstSize ∧ (sdom = .supervised ∨ ddom = .supervised)

/-- R153: COPY responds once the environment has answered each of its accesses: with at least that many answers it does
not stay in flight. -/
def Obligations.CopyResponds : Prop :=
  ∀ (sdom ddom : Domain) (seed srcBase srcSize len dstBase dstSize : Word) (s t : State),
    supervisedAccesses sdom ddom len.toNat ≤ s.answers.length →
    exec (.copy sdom ddom seed srcBase srcSize len dstBase dstSize) s = .next t →
    ∃ r, t.responses = s.responses ++ [r] ∧ r.tid = s.cmd.tid ∧ t.contexts.length = s.contexts.length

/-! ## FOLD and PHC -/

/-- R111: FOLD of any sum in any state: T1 and T2 of the two stages, RESULT the complement of T2, no memory accessed; a
frame with this opcode is FOLD or illegal, so no other status arises; the worked example. -/
def Obligations.FoldResult : Prop :=
  (∀ (sum : Word) (s : State),
    let t1 := sum.toNat % 2 ^ 16 + sum.toNat / 2 ^ 16
    let t2 := t1 % 2 ^ 16 + t1 / 2 ^ 16
    exec (.fold sum) s = .next
      { s with responses := s.responses ++ [⟨s.cmd.tid, 0, BitVec.ofNat 32 (0xFFFF - t2)⟩], draws := s.draws + 1 }) ∧
  (∀ f : Frame, f.w0.extractLsb' 24 8 = 3#8 →
    decode f = .command (.fold f.w1) ∨ decode f = .rejected (.mustBeZero 3#8)) ∧
  (∀ s : State, exec (.fold 0x0002479C#32) s = .next
    { s with responses := s.responses ++ [⟨s.cmd.tid, 0, 0x0000B861#32⟩], draws := s.draws + 1 })

/-- R114: the table of corner values, T1, T2 and the RESULT of FOLD in any state; RESULT is 0xFFFF only for 0, 0 exactly
for the non-zero multiples of 65535, and never has a bit above 15. -/
def Obligations.FoldCorners : Prop :=
  (∀ row ∈ ([(0x00000000#32, 0x00000#17, 0x0000#16, 0x0000FFFF#32), (0x00000001#32, 0x00001#17, 0x0001#16, 0x0000FFFE#32),
      (0x0000FFFF#32, 0x0FFFF#17, 0xFFFF#16, 0x00000000#32), (0x00010000#32, 0x00001#17, 0x0001#16, 0x0000FFFE#32),
      (0x0001FFFE#32, 0x0FFFF#17, 0xFFFF#16, 0x00000000#32), (0x0001FFFF#32, 0x10000#17, 0x0001#16, 0x0000FFFE#32),
      (0x8000FFFF#32, 0x17FFF#17, 0x8000#16, 0x00007FFF#32), (0xFFFEFFFF#32, 0x1FFFD#17, 0xFFFE#16, 0x00000001#32),
      (0xFFFF0000#32, 0x0FFFF#17, 0xFFFF#16, 0x00000000#32), (0xFFFFFFFF#32, 0x1FFFE#17, 0xFFFF#16, 0x00000000#32),
      (0x12345678#32, 0x068AC#17, 0x68AC#16, 0x00009753#32)] : List (Word × Stage × Half × Word)),
    foldStage1 row.1 = row.2.1 ∧ foldStage2 row.2.1 = row.2.2.1 ∧
      ∀ s : State, exec (.fold row.1) s = .next
        { s with responses := s.responses ++ [⟨s.cmd.tid, 0, row.2.2.2⟩], draws := s.draws + 1 }) ∧
  (∀ (sum : Word) (s : State), ∃ v : Word,
    exec (.fold sum) s = .next
      { s with responses := s.responses ++ [⟨s.cmd.tid, 0, v⟩], draws := s.draws + 1 } ∧
    (v = 0x0000FFFF#32 ↔ sum = 0) ∧ (v = 0 ↔ sum ≠ 0 ∧ sum.toNat % 65535 = 0) ∧ v.toNat < 2 ^ 16)

/-- R120 with R119: PHC of any operands in any state, no memory accessed; a frame with this opcode is always PHC, so no
other status arises; the worked example. -/
def Obligations.PhcResult : Prop :=
  (∀ (proto : Byte) (len16 : Half) (sum saddr daddr : Word) (s : State),
    let lpw : Word := BitVec.ofNat 32 (proto.toNat * 2 ^ 16 + len16.toNat)
    let s3 := add1c32 (add1c32 (add1c32 sum saddr) daddr) lpw
    let t1 := s3.toNat % 2 ^ 16 + s3.toNat / 2 ^ 16
    let t2 := t1 % 2 ^ 16 + t1 / 2 ^ 16
    exec (.phc proto len16 sum saddr daddr) s = .next
      { s with responses := s.responses ++ [⟨s.cmd.tid, 0, BitVec.ofNat 32 (0xFFFF - t2)⟩], draws := s.draws + 1 }) ∧
  (∀ f : Frame, f.w0.extractLsb' 24 8 = 4#8 →
    decode f = .command (.phc (f.w0.extractLsb' 16 8) (f.w0.extractLsb' 0 16) f.w1 f.w2 f.w3)) ∧
  (∀ s : State, exec (.phc 17#8 8#16 0 0x0A000001#32 0x0A000002#32) s = .next
    { s with responses := s.responses ++ [⟨s.cmd.tid, 0, 0x0000EBE3#32⟩], draws := s.draws + 1 })

/-- The twelve pseudo-header bytes of R121. -/
def pseudoHeaderBytes (proto : Byte) (len16 : Half) (saddr daddr : Word) : List Byte :=
  [saddr.extractLsb' 24 8, saddr.extractLsb' 16 8, saddr.extractLsb' 8 8, saddr.extractLsb' 0 8,
   daddr.extractLsb' 24 8, daddr.extractLsb' 16 8, daddr.extractLsb' 8 8, daddr.extractLsb' 0 8,
   0x00#8, proto, len16.extractLsb' 8 8, len16.extractLsb' 0 8]

/-- R121: PHC equals the Accumulator and the Folder over the twelve pseudo-header bytes, as a value and as a command. -/
def Obligations.PhcEqualsAccumulatorAndFolder : Prop :=
  ∀ (proto : Byte) (len16 : Half) (sum saddr daddr : Word) (s : State),
    let p := pseudoHeaderBytes proto len16 saddr daddr
    exec (.phc proto len16 sum saddr daddr) s = .next
      { s with responses := s.responses ++ [⟨s.cmd.tid, 0, (csum16 (accBytes sum p)).setWidth 32⟩],
               draws := s.draws + 1 } ∧
    exec (.phc proto len16 sum saddr daddr) s = exec (.fold (accBytes sum p)) s

/-! ## FAST -/

/-- R129, R130, R131, R135: FAST on a valid aligned header that no COPY in flight writes: the checksum of its bytes. -/
def Obligations.FastResult : Prop :=
  ∀ (words : Half) (base size : Word) (s : State),
    5 ≤ words.toNat → words.toNat ≤ 15 → ViewFits base size (4 * words.toNat) → base.toNat % 4 = 0 →
    s.readsUndisturbed (.fast words base size) = true →
    exec (.fast words base size) s = .next
      { s with
        responses := s.responses ++
          [⟨s.cmd.tid, 0, (csum16 (accBytes 0 (s.direct.bytes base.toNat (4 * words.toNat)))).setWidth 32⟩],
        draws := s.draws + 1 }

/-- The 32-bit big-endian words of a buffer (R72, R130). -/
def headerWords (m : Memory) (base : Nat) : Nat → List Word
  | 0 => []
  | n + 1 =>
    be32 (m.read base) (m.read (base + 1)) (m.read (base + 2)) (m.read (base + 3)) :: headerWords m (base + 4) n

/-- R130: FAST adds the 32-bit words of the header in order, starting from 0, and folds and complements the sum. -/
def Obligations.FastAddsWords : Prop :=
  ∀ (words : Half) (base size : Word) (s : State),
    5 ≤ words.toNat → words.toNat ≤ 15 → ViewFits base size (4 * words.toNat) → base.toNat % 4 = 0 →
    s.readsUndisturbed (.fast words base size) = true →
    exec (.fast words base size) s = .next
      { s with
        responses := s.responses ++
          [⟨s.cmd.tid, 0, (csum16 ((headerWords s.direct base.toNat words.toNat).foldl add1c32 0)).setWidth 32⟩],
        draws := s.draws + 1 }

/-- R129, R146: the errors of FAST in their priority: length before alignment. -/
def Obligations.FastErrors : Prop :=
  ∀ (words : Half) (base size : Word) (s : State),
    (words.toNat < 5 ∨ 15 < words.toNat ∨ ¬ViewFits base size (4 * words.toNat) →
      ∃ v : Word, exec (.fast words base size) s = .next
        { s with responses := s.responses ++ [⟨s.cmd.tid, 2, v⟩], draws := s.draws + 1 }) ∧
    (5 ≤ words.toNat ∧ words.toNat ≤ 15 ∧ ViewFits base size (4 * words.toNat) ∧ base.toNat % 4 ≠ 0 →
      ∃ v : Word, exec (.fast words base size) s = .next
        { s with responses := s.responses ++ [⟨s.cmd.tid, 3, v⟩], draws := s.draws + 1 })

/-- R131: FAST returns the checksum of the running sum of the same bytes, and what ACC with seed 0 over them, followed by
FOLD of its result, returns. -/
def Obligations.FastEqualsAccThenFold : Prop :=
  ∀ (words : Half) (base size len : Word) (s : State),
    5 ≤ words.toNat → words.toNat ≤ 15 → ViewFits base size (4 * words.toNat) → base.toNat % 4 = 0 →
    len.toNat = 4 * words.toNat → s.readsUndisturbed (.fast words base size) = true →
    ∃ (t u w : State) (sum checksum : Word),
      checksum = (csum16 (accBytes 0 (s.direct.bytes base.toNat (4 * words.toNat)))).setWidth 32 ∧
      exec (.fast words base size) s = .next t ∧ newResponses s t = [⟨s.cmd.tid, 0, checksum⟩] ∧
      exec (.acc 0 base size len) s = .next u ∧ newResponses s u = [⟨s.cmd.tid, 0, sum⟩] ∧
      exec (.fold sum) u = .next w ∧ newResponses u w = [⟨s.cmd.tid, 0, checksum⟩]

/-- R49, spec/93 U6: over bytes a COPY in flight is writing, ACC and FAST still complete; each byte they sum is what
memory holds or a value that byte held before (the model's choice among the treatments of U6, log entry 10). -/
def Obligations.ReadsOverRacingBytes : Prop :=
  (∀ (seed base size len : Word) (s : State), ViewFits base size len.toNat →
    ∃ (b : List Byte) (n : Nat), b.length = len.toNat ∧
      (∀ k (h : k < b.length), b[k] = s.direct.read (base.toNat + k) ∨
        (base.toNat + k, b[k]) ∈ s.overwritten (.acc seed base size len)) ∧
      exec (.acc seed base size len) s = .next
        { s with responses := s.responses ++ [⟨s.cmd.tid, 0, accBytes seed b⟩], draws := n }) ∧
  (∀ (words : Half) (base size : Word) (s : State),
    5 ≤ words.toNat → words.toNat ≤ 15 → ViewFits base size (4 * words.toNat) → base.toNat % 4 = 0 →
    ∃ (b : List Byte) (n : Nat), b.length = 4 * words.toNat ∧
      (∀ k (h : k < b.length), b[k] = s.direct.read (base.toNat + k) ∨
        (base.toNat + k, b[k]) ∈ s.overwritten (.fast words base size)) ∧
      exec (.fast words base size) s = .next
        { s with responses := s.responses ++ [⟨s.cmd.tid, 0, (csum16 (accBytes 0 b)).setWidth 32⟩], draws := n })

/-! ## Frames and whole-machine rules -/

/-- ACC, FOLD, PHC and FAST reach a next state in every state and for all operands (R153), errors included, and their
frame: one response is written, with the command's TID; memory of both domains, the transactions in flight, the
answers, the command registers, the port and the agenda are unchanged (R39, R87, R111, R120, R130). -/
def Obligations.PureCommandsRespondAndWriteNothing : Prop :=
  ∀ (i : Instr) (s : State), (∀ sdom ddom seed srcBase srcSize len dstBase dstSize,
      i ≠ .copy sdom ddom seed srcBase srcSize len dstBase dstSize) →
    ∃ (r : Response) (n : Nat), r.tid = s.cmd.tid ∧
      exec i s = .next { s with responses := s.responses ++ [r], draws := n }

/-- The frame of a transaction. COPY when it is executed, in every case, errors, faults and suspension included: every byte
outside the destination range keeps its value in both domains, the other transactions keep all but their notes of racing
bytes, the answers are used from the front, and the command registers, the port, the agenda and the earlier responses are
unchanged (R39, R103). A transaction in flight of any command when it is resumed or takes one micro-step: the same, outside
the destination of its command, and it has either ended with one response that carries its TID or is in flight still, with
its TID, frame and command and no response (R11, R39, R55, R63, R103, R153). That it then stands last is the model's (log
entry 8). -/
def Obligations.FrameOfTransactions : Prop :=
  (∀ (sdom ddom : Domain) (seed srcBase srcSize len dstBase dstSize : Word) (s t : State),
    exec (.copy sdom ddom seed srcBase srcSize len dstBase dstSize) s = .next t →
    (∀ d a, (d ≠ ddom ∨ a < dstBase.toNat ∨ dstBase.toNat + len.toNat ≤ a) → (t.mem d).read a = (s.mem d).read a) ∧
    List.Forall₂ SameTransaction (t.contexts.take s.contexts.length) s.contexts ∧
    t.answers <:+ s.answers ∧ (sdom = .direct → ddom = .direct → t.answers = s.answers) ∧
    t.cmd = s.cmd ∧ t.port = s.port ∧ t.agenda = s.agenda ∧ s.responses <+: t.responses) ∧
  (∀ (s t : State) (k : Nat) (c : Context), s.contexts[k]? = some c → (resume k s = .next t ∨ tick k s = .next t) →
    (∀ d a, rangeCovers (destinationOf c.instr) d a = false → (t.mem d).read a = (s.mem d).read a) ∧
    t.answers <:+ s.answers ∧ t.cmd = s.cmd ∧ t.port = s.port ∧ t.agenda = s.agenda ∧
    ∃ others, List.Forall₂ SameTransaction others (s.contexts.eraseIdx k) ∧
      ((t.contexts = others ∧ ∃ r, t.responses = s.responses ++ [r] ∧ r.tid = c.tid) ∨
       (t.responses = s.responses ∧
        ∃ c', t.contexts = others ++ [c'] ∧ c'.tid = c.tid ∧ c'.frame = c.frame ∧ c'.instr = c.instr)))

/-- R55: a command that is executed is answered exactly once or is still in flight, never both and never neither; the
response carries its TID (R63) and one of the five codes (R56). -/
def Obligations.OneResponseOrInFlight : Prop :=
  ∀ (i : Instr) (s t : State), exec i s = .next t →
    ((∃ r, t.responses = s.responses ++ [r] ∧ r.tid = s.cmd.tid ∧ r.r0.toNat ≤ 4) ∧
      t.contexts.length = s.contexts.length) ∨
    (t.responses = s.responses ∧ ∃ c, t.contexts.getLast? = some c ∧ c.tid = s.cmd.tid ∧ c.instr = i ∧
      t.contexts.length = s.contexts.length + 1)

/-- R10: with nothing else in flight, the answer to a command is a function of the command, the bytes of memory and the
environment's answers: it does not depend on earlier responses, waiting commands, earlier frames or free values. -/
def Obligations.NoTraceOfEarlierCommands : Prop :=
  ∀ (i : Instr) (s u t : State), s.contexts = [] → u.contexts = [] → s.cmd.tid = u.cmd.tid →
    s.direct = u.direct → s.supervised = u.supervised → s.answers = u.answers → exec i s = .next t →
    ∃ t', exec i u = .next t' ∧ List.Forall₂ SameAnswer (newResponses s t) (newResponses u t')

/-- R39: in any step, a byte changes only if the agenda stores to it from outside or it is in the destination of a COPY
that is in flight or waiting to be accepted. -/
def Obligations.OnlyCopyDestinationsChange : Prop :=
  ∀ (s t : State) (d : Domain) (a : Nat), step s = .next t → (t.mem d).read a ≠ (s.mem d).read a →
    (∃ (w : Word) (b : Byte) (rest : List Event), w.toNat = a ∧
      (s.agenda = .requester (.store d w b) :: rest ∨ s.agenda = .environment (.store d w b) :: rest)) ∨
    (∃ c ∈ s.contexts, rangeCovers (destinationOf c.instr) d a = true) ∨
    (∃ c ∈ s.port, ∃ i, decode c.frame = .command i ∧ rangeCovers (destinationOf i) d a = true)

/-- R11: a transaction in flight after a step was in flight before it with the same TID, frame and command, or is a
command of the port as it was offered: nothing changes a captured frame. -/
def Obligations.FramesCapturedByValue : Prop :=
  ∀ (s t : State), step s = .next t → ∀ c ∈ t.contexts,
    (∃ c' ∈ s.contexts, c.tid = c'.tid ∧ c.frame = c'.frame ∧ c.instr = c'.instr) ∨
    ((⟨c.tid, c.frame⟩ : Command) ∈ s.port ∧ decode c.frame = .command c.instr)

/-- R63: a response carries the TID of a command that was waiting or in flight. -/
def Obligations.ResponsesCarryTheirTid : Prop :=
  ∀ (s t : State), step s = .next t → ∀ r ∈ t.responses,
    r ∈ s.responses ∨ (∃ c ∈ s.port, r.tid = c.tid) ∨ (∃ c ∈ s.contexts, r.tid = c.tid)

/-- POS after a micro-step that goes on (R14, R34, R130; the grain of a micro-step is the model's, log entry 9): one byte
further for a byte of ACC and for the write of a byte of COPY, four further for a word of FAST, where it was for the read
of a byte of COPY (the latch is empty before it, log entry 17), for the fold stages of FAST, and for FOLD and PHC. -/
def positionAfter (c : Context) : Word :=
  match c.instr with
  | .acc _ _ _ _ => c.pos + 1
  | .copy _ _ _ _ _ _ _ _ => if c.latch = none then c.pos else c.pos + 1
  | .fold _ => c.pos
  | .phc _ _ _ _ _ => c.pos
  | .fast words _ _ => if c.phase = .gather ∧ c.pos.toNat < 4 * words.toNat then c.pos + 4 else c.pos

/-- R14, R34: POS after a micro-step that goes on is `positionAfter`, for every command; and a legal transaction with
bytes left does go on, so that POS grows, exactly by 1 in ACC and at each write of COPY whose access is granted, by 4 in
FAST, and stays at each read of COPY. The grain of a micro-step is the model's choice (log entry 9). -/
def Obligations.PositionAdvances : Prop :=
  (∀ (c c' : Context) (s s' : State), tickOf c.instr c s = .busy c' s' → c'.pos = positionAfter c) ∧
  (∀ (seed base size len : Word) (c : Context) (s : State),
    c.instr = .acc seed base size len → contextLegal c = true → c.pos.toNat < len.toNat →
    ∃ c' s', tickOf c.instr c s = .busy c' s' ∧ c'.pos.toNat = c.pos.toNat + 1) ∧
  (∀ (sdom ddom : Domain) (seed srcBase srcSize len dstBase dstSize : Word) (c : Context) (s u : State),
    c.instr = .copy sdom ddom seed srcBase srcSize len dstBase dstSize → contextLegal c = true →
    c.pos.toNat < len.toNat →
    (c.latch = none → s.ask sdom = .granted u →
      ∃ c' s', tickOf c.instr c s = .busy c' s' ∧ c'.latch ≠ none ∧ c'.pos = c.pos) ∧
    (c.latch ≠ none → s.ask ddom = .granted u →
      ∃ c' s', tickOf c.instr c s = .busy c' s' ∧ c'.latch = none ∧ c'.pos.toNat = c.pos.toNat + 1)) ∧
  (∀ (words : Half) (base size : Word) (c : Context) (s : State),
    c.instr = .fast words base size → contextLegal c = true → c.pos.toNat < 4 * words.toNat →
    ∃ c' s', tickOf c.instr c s = .busy c' s' ∧ c'.pos.toNat = c.pos.toNat + 4)

/-- R160, R161: reset abandons every transaction in flight without a response; only the destination of a COPY in flight
may have changed. That what waits at the port, the answers and the agenda stay, and that responses not yet taken are
dropped, is the model's reading of R21 and R160 (log entry 19). -/
def Obligations.ResetAbandons : Prop :=
  ∀ (s : State) (rest : List Event), s.agenda = .environment .reset :: rest →
    ∃ t, step s = .next t ∧ t.contexts = [] ∧ t.responses = [] ∧ t.port = s.port ∧ t.answers = s.answers ∧
      t.agenda = rest ∧
      ∀ d a, (∀ c ∈ s.contexts, rangeCovers (destinationOf c.instr) d a = false) →
        (t.mem d).read a = (s.mem d).read a

/-- After reset nothing is in flight, no response exists and a context is free (R21, R160); with nothing waiting and
nothing in flight the engine is idle, after reset and at any other time. That a step with nothing to do changes nothing
is the model's (log entry 8). -/
def Obligations.ResetIsIdle : Prop :=
  State.reset.contexts = [] ∧ State.reset.responses = [] ∧ State.reset.hasRoom = true ∧
  step State.reset = .next State.reset ∧
  ∀ s : State, s.agenda = [] → s.port = [] → s.contexts = [] → step s = .next s

/-- The invariant holds at reset; its clauses hold there whatever the values the model chose for reset (log entries 1 and
2), since nothing is in flight. -/
def Obligations.InvariantAtReset : Prop := State.reset.Inv

/-- Every step keeps the invariant: memory in canonical form, at most N_CTX transactions (R153), each with a frame that
decodes to its command (R11), checks passed (R146), no overlap of its own (R105) and the registers its command allows (R14,
R15, R74, R112; the latch and the phase are the model's, log entries 17 and 18), only legal responses (R56). That no two
transactions in flight write one byte is the model's choice: R108 and U6 call two such COPYs a race and do not exclude
them, the model refuses the second (log entry 11). -/
def Obligations.EveryStepKeepsInvariant : Prop :=
  ∀ s t : State, s.Inv → step s = .next t → t.Inv

/-- From a state with the invariant no step stops with the address fault: every address a command forms is an address
(R37, R84). -/
def Obligations.NoAddressFault : Prop :=
  ∀ s : State, s.Inv → step s ≠ .fault .noSuchAddress
end

