-- ==== Sys2Proof/Laws/Decode.lean ====
section
/-!
SUPPORT. Each row of the opcode map in terms of the fields of W[0], and what the decoder selects.
-/

namespace Sys2Proof

/-- A match under a mask, bit by bit. -/
theorem masked_iff (w m p : Word) :
    (w &&& m == p) = true ↔ ∀ i < 32, (w.getLsbD i && m.getLsbD i) = p.getLsbD i := by
  rw [beq_iff_eq]
  constructor
  · intro h i _
    rw [← h, BitVec.getLsbD_and]
  · intro h
    apply BitVec.eq_of_getLsbD_eq
    intro i hi
    rw [BitVec.getLsbD_and]
    exact h i hi

/-- The value of a field, bit by bit. -/
theorem field_iff (w : Word) (lo len : Nat) (v : BitVec len) :
    w.extractLsb' lo len = v ↔ ∀ i < len, w.getLsbD (lo + i) = v.getLsbD i := by
  constructor
  · intro h i hi
    rw [← h]
    simp [hi]
  · intro h
    apply BitVec.eq_of_getLsbD_eq
    intro i hi
    rw [BitVec.getLsbD_extractLsb', ← h i hi]
    simp [hi]

theorem selects_acc (w : Word) :
    (w &&& 0xFFFFFFFF#32 == 0x01000000#32) = true ↔ w.extractLsb' 24 8 = 1#8 ∧ w.extractLsb' 0 24 = 0#24 := by
  rw [masked_iff, field_iff, field_iff]
  simp only [Nat.forall_lt_succ_right]
  simp
  constructor <;> (intro h; simp [h])

theorem selects_copy (w : Word) :
    (w &&& 0xFFFCFFFF#32 == 0x02000000#32) = true ↔
      w.extractLsb' 24 8 = 2#8 ∧ w.extractLsb' 18 6 = 0#6 ∧ w.extractLsb' 0 16 = 0#16 := by
  rw [masked_iff, field_iff, field_iff, field_iff]
  simp only [Nat.forall_lt_succ_right]
  simp
  constructor <;> (intro h; simp [h])

theorem selects_fold (w : Word) :
    (w &&& 0xFFFFFFFF#32 == 0x03000000#32) = true ↔ w.extractLsb' 24 8 = 3#8 ∧ w.extractLsb' 0 24 = 0#24 := by
  rw [masked_iff, field_iff, field_iff]
  simp only [Nat.forall_lt_succ_right]
  simp
  constructor <;> (intro h; simp [h])

theorem selects_phc (w : Word) : (w &&& 0xFF000000#32 == 0x04000000#32) = true ↔ w.extractLsb' 24 8 = 4#8 := by
  rw [masked_iff, field_iff]
  simp only [Nat.forall_lt_succ_right]
  simp

theorem selects_fast (w : Word) :
    (w &&& 0xFFFF0000#32 == 0x05000000#32) = true ↔ w.extractLsb' 24 8 = 5#8 ∧ w.extractLsb' 16 8 = 0#8 := by
  rw [masked_iff, field_iff, field_iff]
  simp only [Nat.forall_lt_succ_right]
  simp
  tauto

/-- The selected row, from the fields of W[0] (R53, R58). -/
theorem selectOpcode_fields (w : Word) :
    selectOpcode w =
      if w.extractLsb' 24 8 = 1#8 ∧ w.extractLsb' 0 24 = 0#24 then some .acc
      else if w.extractLsb' 24 8 = 2#8 ∧ w.extractLsb' 18 6 = 0#6 ∧ w.extractLsb' 0 16 = 0#16 then some .copy
      else if w.extractLsb' 24 8 = 3#8 ∧ w.extractLsb' 0 24 = 0#24 then some .fold
      else if w.extractLsb' 24 8 = 4#8 then some .phc
      else if w.extractLsb' 24 8 = 5#8 ∧ w.extractLsb' 16 8 = 0#8 then some .fast
      else none := by
  simp only [← selects_acc, ← selects_copy, ← selects_fold, ← selects_phc, ← selects_fast]
  simp only [selectOpcode, opcodeRows, List.find?, OpcodeRow.selects]
  generalize (w &&& 0xFFFFFFFF#32 == 0x01000000#32) = a
  generalize (w &&& 0xFFFCFFFF#32 == 0x02000000#32) = b
  generalize (w &&& 0xFFFFFFFF#32 == 0x03000000#32) = c
  generalize (w &&& 0xFF000000#32 == 0x04000000#32) = d
  generalize (w &&& 0xFFFF0000#32 == 0x05000000#32) = e
  cases a <;> cases b <;> cases c <;> cases d <;> cases e <;> rfl

/-- A frame decodes to a command exactly when W[0] selects a row. -/
theorem decode_command_iff (f : Frame) (i : Instr) :
    decode f = .command i ↔ ∃ op, selectOpcode f.w0 = some op ∧ i = assemble op f := by
  unfold decode
  cases selectOpcode f.w0 <;> simp [eq_comm]

theorem decode_rejected_iff (f : Frame) : (∃ r, decode f = .rejected r) ↔ selectOpcode f.w0 = none := by
  unfold decode
  cases selectOpcode f.w0 <;> simp

end Sys2Proof
end

