-- ==== Sys2Proof/Laws/Memory.lean ====
section
/-!
SUPPORT. Memory: a read after a write, the canonical form kept by every operation, and sequences of bytes.
-/

namespace Sys2Proof.Machine

@[simp] theorem read_nil (a : Nat) : Memory.read [] a = unlistedByte := rfl

theorem read_dropCell_eq (m : Memory) (a : Nat) : (dropCell a m).read a = unlistedByte := by
  induction m with
  | nil => rfl
  | cons p rest ih =>
    obtain ⟨b, u⟩ := p
    by_cases h : b = a
    · simpa [dropCell, h] using ih
    · simpa [dropCell, h, Memory.read] using ih

theorem read_dropCell_ne {a b : Nat} (h : b ≠ a) (m : Memory) : (dropCell a m).read b = m.read b := by
  induction m with
  | nil => rfl
  | cons p rest ih =>
    obtain ⟨e, u⟩ := p
    by_cases he : e = a
    · have hb : e ≠ b := by omega
      simpa [dropCell, he, Memory.read, hb, Ne.symm h] using ih
    · by_cases hb : e = b
      · simp [dropCell, Memory.read, hb, h]
      · simpa [dropCell, he, Memory.read, hb] using ih

theorem read_insertCell_ne {a b : Nat} (h : b ≠ a) (v : Byte) (m : Memory) :
    (insertCell a v m).read b = m.read b := by
  induction m with
  | nil => simp [insertCell, Memory.read, Ne.symm h]
  | cons p rest ih =>
    obtain ⟨e, u⟩ := p
    simp only [insertCell]
    split
    · simp [Memory.read, Ne.symm h]
    · simp only [Memory.read, ih]

theorem read_insertCell_eq (a : Nat) (v : Byte) {m : Memory} (hm : ∀ p ∈ m, p.1 ≠ a) :
    (insertCell a v m).read a = v := by
  induction m with
  | nil => simp [insertCell, Memory.read]
  | cons p rest ih =>
    obtain ⟨e, u⟩ := p
    have he : e ≠ a := hm (e, u) (by simp)
    simp only [insertCell]
    split
    · simp [Memory.read]
    · simp only [Memory.read, he, if_false]
      exact ih (fun q hq => hm q (by simp [hq]))

/-- A read after a write to the same address gives the byte written. -/
@[simp] theorem read_write_eq (m : Memory) (a : Nat) (v : Byte) : (m.write a v).read a = v := by
  unfold Memory.write
  split
  · next h => rw [read_dropCell_eq, h]
  · exact read_insertCell_eq a v (by simp [dropCell])

/-- A write leaves every other address alone. -/
theorem read_write_ne {a b : Nat} (h : b ≠ a) (m : Memory) (v : Byte) : (m.write a v).read b = m.read b := by
  unfold Memory.write
  split
  · exact read_dropCell_ne h m
  · rw [read_insertCell_ne h, read_dropCell_ne h]

theorem cellsFrom_mono {lo hi : Nat} (h : hi ≤ lo) {m : Memory} (hm : cellsFrom lo m = true) :
    cellsFrom hi m = true := by
  cases m with
  | nil => rfl
  | cons p rest =>
    obtain ⟨b, u⟩ := p
    simp only [cellsFrom, Bool.and_eq_true, decide_eq_true_eq] at hm ⊢
    exact ⟨⟨⟨by omega, hm.1.1.2⟩, hm.1.2⟩, hm.2⟩

theorem cellsFrom_dropCell (a : Nat) {lo : Nat} {m : Memory} (hm : cellsFrom lo m = true) :
    cellsFrom lo (dropCell a m) = true := by
  induction m generalizing lo with
  | nil => rfl
  | cons p rest ih =>
    obtain ⟨b, u⟩ := p
    simp only [cellsFrom, Bool.and_eq_true, decide_eq_true_eq] at hm
    have hr := ih hm.2
    by_cases h : b = a
    · have : dropCell a ((b, u) :: rest) = dropCell a rest := by simp [dropCell, h]
      rw [this]
      exact cellsFrom_mono (by omega) hr
    · have : dropCell a ((b, u) :: rest) = (b, u) :: dropCell a rest := by simp [dropCell, h]
      rw [this]
      simp only [cellsFrom, Bool.and_eq_true, decide_eq_true_eq]
      exact ⟨hm.1, hr⟩

theorem cellsFrom_insertCell {lo a : Nat} (hlo : lo ≤ a) (ha : a < addressSpace) {v : Byte} (hv : v ≠ unlistedByte)
    {m : Memory} (hm : cellsFrom lo m = true) (hd : ∀ p ∈ m, p.1 ≠ a) :
    cellsFrom lo (insertCell a v m) = true := by
  induction m generalizing lo with
  | nil => simp [insertCell, cellsFrom, hlo, ha, hv]
  | cons p rest ih =>
    obtain ⟨b, u⟩ := p
    have hb : b ≠ a := hd (b, u) (by simp)
    simp only [cellsFrom, Bool.and_eq_true, decide_eq_true_eq] at hm
    simp only [insertCell]
    split
    · next hab =>
      simp only [cellsFrom, Bool.and_eq_true, decide_eq_true_eq]
      exact ⟨⟨⟨hlo, ha⟩, hv⟩, ⟨⟨by omega, hm.1.1.2⟩, hm.1.2⟩, hm.2⟩
    · next hab =>
      simp only [cellsFrom, Bool.and_eq_true, decide_eq_true_eq]
      exact ⟨hm.1, ih (by omega) hm.2 (fun q hq => hd q (by simp [hq]))⟩

/-- A write inside the address space keeps the canonical form. -/
theorem wf_write {m : Memory} {a : Nat} (hm : m.wf = true) (ha : a < addressSpace) (v : Byte) :
    (m.write a v).wf = true := by
  unfold Memory.write
  split
  · exact cellsFrom_dropCell a hm
  · next hv => exact cellsFrom_insertCell (Nat.zero_le a) ha hv (cellsFrom_dropCell a hm) (by simp [dropCell])

/-- A sequence of writes inside the address space keeps the canonical form. -/
theorem wf_writeBytes {m : Memory} {base : Nat} (l : List Byte) (hm : m.wf = true)
    (h : base + l.length ≤ addressSpace) : (m.writeBytes base l).wf = true := by
  induction l generalizing m base with
  | nil => exact hm
  | cons b rest ih =>
    simp only [List.length_cons] at h
    exact ih (wf_write hm (by omega) b) (by omega)

/-- Memory in canonical form at reset. -/
theorem wf_reset : State.reset.direct.wf = true ∧ State.reset.supervised.wf = true := ⟨rfl, rfl⟩

@[simp] theorem bytes_zero (m : Memory) (base : Nat) : m.bytes base 0 = [] := rfl

@[simp] theorem bytes_succ (m : Memory) (base n : Nat) :
    m.bytes base (n + 1) = m.read base :: m.bytes (base + 1) n := rfl

@[simp] theorem bytes_length (m : Memory) (base n : Nat) : (m.bytes base n).length = n := by
  induction n generalizing base with
  | zero => rfl
  | succ n ih => simp [ih]

/-- Two memories that agree on a range give the same bytes of it. -/
theorem bytes_congr {m p : Memory} {base n : Nat} (h : ∀ a, base ≤ a → a < base + n → m.read a = p.read a) :
    m.bytes base n = p.bytes base n := by
  induction n generalizing base with
  | zero => rfl
  | succ n ih =>
    rw [bytes_succ, bytes_succ, h base (by omega) (by omega), ih (fun a h1 h2 => h a (by omega) (by omega))]

/-- The domain a write does not name is not changed (R36). -/
theorem mem_setMem_ne {d e : Domain} (h : e ≠ d) (s : State) (m : Memory) : (s.setMem d m).mem e = s.mem e := by
  cases d <;> cases e <;> first | rfl | exact absurd rfl h

@[simp] theorem mem_setMem_eq (d : Domain) (s : State) (m : Memory) : (s.setMem d m).mem d = m := by cases d <;> rfl

end Sys2Proof.Machine
end

