-- ==== Sys2Proof/Laws/State.lean ====
section
/-!
SUPPORT. What each named update leaves of each field of State, each true by computation and tagged simp, so that no later
proof unfolds a record update.
-/

namespace Sys2Proof.Machine

section Draw
variable (s : State)

@[simp] theorem draw_cmd : s.draw.cmd = s.cmd := rfl
@[simp] theorem draw_port : s.draw.port = s.port := rfl
@[simp] theorem draw_contexts : s.draw.contexts = s.contexts := rfl
@[simp] theorem draw_responses : s.draw.responses = s.responses := rfl
@[simp] theorem draw_direct : s.draw.direct = s.direct := rfl
@[simp] theorem draw_supervised : s.draw.supervised = s.supervised := rfl
@[simp] theorem draw_answers : s.draw.answers = s.answers := rfl
@[simp] theorem draw_agenda : s.draw.agenda = s.agenda := rfl
@[simp] theorem draw_draws : s.draw.draws = s.draws + 1 := rfl
@[simp] theorem draw_mem (d : Domain) : s.draw.mem d = s.mem d := by cases d <;> rfl

end Draw

section Respond
variable (s : State) (tid : Tid) (st : Status) (v : Word)

@[simp] theorem respond_cmd : (s.respond tid st v).cmd = s.cmd := rfl
@[simp] theorem respond_port : (s.respond tid st v).port = s.port := rfl
@[simp] theorem respond_contexts : (s.respond tid st v).contexts = s.contexts := rfl
@[simp] theorem respond_responses :
    (s.respond tid st v).responses = s.responses ++ [⟨tid, st.code, v⟩] := rfl
@[simp] theorem respond_direct : (s.respond tid st v).direct = s.direct := rfl
@[simp] theorem respond_supervised : (s.respond tid st v).supervised = s.supervised := rfl
@[simp] theorem respond_answers : (s.respond tid st v).answers = s.answers := rfl
@[simp] theorem respond_agenda : (s.respond tid st v).agenda = s.agenda := rfl
@[simp] theorem respond_draws : (s.respond tid st v).draws = s.draws := rfl
@[simp] theorem respond_mem (d : Domain) : (s.respond tid st v).mem d = s.mem d := by cases d <;> rfl

@[simp] theorem raise_cmd : (s.raise tid st).cmd = s.cmd := rfl
@[simp] theorem raise_port : (s.raise tid st).port = s.port := rfl
@[simp] theorem raise_contexts : (s.raise tid st).contexts = s.contexts := rfl
@[simp] theorem raise_responses :
    (s.raise tid st).responses = s.responses ++ [⟨tid, st.code, Config.freeWord s.draws⟩] := rfl
@[simp] theorem raise_direct : (s.raise tid st).direct = s.direct := rfl
@[simp] theorem raise_supervised : (s.raise tid st).supervised = s.supervised := rfl
@[simp] theorem raise_answers : (s.raise tid st).answers = s.answers := rfl
@[simp] theorem raise_agenda : (s.raise tid st).agenda = s.agenda := rfl
@[simp] theorem raise_draws : (s.raise tid st).draws = s.draws + 1 := rfl
@[simp] theorem raise_mem (d : Domain) : (s.raise tid st).mem d = s.mem d := by cases d <;> rfl

end Respond

section Park
variable (s : State) (c : Context)

@[simp] theorem park_cmd : (s.park c).cmd = s.cmd := rfl
@[simp] theorem park_port : (s.park c).port = s.port := rfl
@[simp] theorem park_contexts : (s.park c).contexts = s.contexts ++ [c] := rfl
@[simp] theorem park_responses : (s.park c).responses = s.responses := rfl
@[simp] theorem park_direct : (s.park c).direct = s.direct := rfl
@[simp] theorem park_supervised : (s.park c).supervised = s.supervised := rfl
@[simp] theorem park_answers : (s.park c).answers = s.answers := rfl
@[simp] theorem park_agenda : (s.park c).agenda = s.agenda := rfl
@[simp] theorem park_draws : (s.park c).draws = s.draws := rfl
@[simp] theorem park_mem (d : Domain) : (s.park c).mem d = s.mem d := by cases d <;> rfl

end Park

section Without
variable (s : State) (k : Nat)

@[simp] theorem without_cmd : (s.without k).cmd = s.cmd := rfl
@[simp] theorem without_port : (s.without k).port = s.port := rfl
@[simp] theorem without_contexts : (s.without k).contexts = s.contexts.eraseIdx k := rfl
@[simp] theorem without_responses : (s.without k).responses = s.responses := rfl
@[simp] theorem without_direct : (s.without k).direct = s.direct := rfl
@[simp] theorem without_supervised : (s.without k).supervised = s.supervised := rfl
@[simp] theorem without_answers : (s.without k).answers = s.answers := rfl
@[simp] theorem without_agenda : (s.without k).agenda = s.agenda := rfl
@[simp] theorem without_draws : (s.without k).draws = s.draws := rfl
@[simp] theorem without_mem (d : Domain) : (s.without k).mem d = s.mem d := by cases d <;> rfl

end Without

section Capture
variable (s : State) (c : Command) (rest : List Command)

@[simp] theorem capture_cmd : (s.capture c rest).cmd = c := rfl
@[simp] theorem capture_port : (s.capture c rest).port = rest := rfl
@[simp] theorem capture_contexts : (s.capture c rest).contexts = s.contexts := rfl
@[simp] theorem capture_responses : (s.capture c rest).responses = s.responses := rfl
@[simp] theorem capture_direct : (s.capture c rest).direct = s.direct := rfl
@[simp] theorem capture_supervised : (s.capture c rest).supervised = s.supervised := rfl
@[simp] theorem capture_answers : (s.capture c rest).answers = s.answers := rfl
@[simp] theorem capture_agenda : (s.capture c rest).agenda = s.agenda := rfl
@[simp] theorem capture_draws : (s.capture c rest).draws = s.draws := rfl
@[simp] theorem capture_mem (d : Domain) : (s.capture c rest).mem d = s.mem d := by cases d <;> rfl

end Capture

section Poke
variable (s : State) (d : Domain) (a : Nat) (v : Byte)

@[simp] theorem poke_cmd : (s.poke d a v).cmd = s.cmd := by cases d <;> rfl
@[simp] theorem poke_port : (s.poke d a v).port = s.port := by cases d <;> rfl
@[simp] theorem poke_contexts :
    (s.poke d a v).contexts = s.contexts.map (Context.noteOverwrite d a ((s.mem d).read a)) := by cases d <;> rfl
@[simp] theorem poke_responses : (s.poke d a v).responses = s.responses := by cases d <;> rfl
@[simp] theorem poke_answers : (s.poke d a v).answers = s.answers := by cases d <;> rfl
@[simp] theorem poke_agenda : (s.poke d a v).agenda = s.agenda := by cases d <;> rfl
@[simp] theorem poke_draws : (s.poke d a v).draws = s.draws := by cases d <;> rfl
@[simp] theorem poke_mem_same : (s.poke d a v).mem d = (s.mem d).write a v := by cases d <;> rfl
theorem poke_mem_other {e : Domain} (h : e ≠ d) : (s.poke d a v).mem e = s.mem e := by
  cases d <;> cases e <;> first | rfl | exact absurd rfl h

end Poke

section NoteOverwrite
variable (d : Domain) (a : Nat) (old : Byte) (c : Context)

@[simp] theorem noteOverwrite_tid : (c.noteOverwrite d a old).tid = c.tid := by
  unfold Context.noteOverwrite; split <;> rfl
@[simp] theorem noteOverwrite_frame : (c.noteOverwrite d a old).frame = c.frame := by
  unfold Context.noteOverwrite; split <;> rfl
@[simp] theorem noteOverwrite_instr : (c.noteOverwrite d a old).instr = c.instr := by
  unfold Context.noteOverwrite; split <;> rfl
/-- A note changes nothing but the notes. -/
theorem noteOverwrite_rest : { c.noteOverwrite d a old with stale := [] } = { c with stale := [] } := by
  unfold Context.noteOverwrite; split <;> rfl
/-- A write outside a transaction's source leaves it alone. -/
theorem noteOverwrite_of_not_covers (h : rangeCovers (sourceOf c.instr) d a = false) :
    c.noteOverwrite d a old = c := by simp [Context.noteOverwrite, h]

end NoteOverwrite

section NewContext
variable (s : State) (i : Instr)

@[simp] theorem newContext_tid : (s.newContext i).tid = s.cmd.tid := rfl
@[simp] theorem newContext_frame : (s.newContext i).frame = s.cmd.frame := rfl
@[simp] theorem newContext_instr : (s.newContext i).instr = i := rfl
@[simp] theorem newContext_phase : (s.newContext i).phase = .gather := rfl
@[simp] theorem newContext_latch : (s.newContext i).latch = none := rfl
@[simp] theorem newContext_stale : (s.newContext i).stale = s.overwritten i := rfl
@[simp] theorem newContext_undo : (s.newContext i).undo = [] := rfl

end NewContext

section Feed
variable (c : Context) (x : Byte)

@[simp] theorem feed_tid : (c.feed x).tid = c.tid := by unfold Context.feed; split <;> rfl
@[simp] theorem feed_frame : (c.feed x).frame = c.frame := by unfold Context.feed; split <;> rfl
@[simp] theorem feed_instr : (c.feed x).instr = c.instr := by unfold Context.feed; split <;> rfl
@[simp] theorem feed_pos : (c.feed x).pos = c.pos + 1 := by unfold Context.feed; split <;> rfl
@[simp] theorem feed_holdv : (c.feed x).holdv = !c.holdv := by
  unfold Context.feed; split <;> simp_all
@[simp] theorem feed_phase : (c.feed x).phase = c.phase := by unfold Context.feed; split <;> rfl
@[simp] theorem feed_latch : (c.feed x).latch = c.latch := by unfold Context.feed; split <;> rfl
@[simp] theorem feed_stale : (c.feed x).stale = c.stale := by unfold Context.feed; split <;> rfl
@[simp] theorem feed_undo : (c.feed x).undo = c.undo := by unfold Context.feed; split <;> rfl

end Feed

end Sys2Proof.Machine
end

