-- ==== Sys2Proof/Laws/Ops.lean ====
section
/-!
SUPPORT. For each shared operation, once, everything it can do: writing a byte, free values in a range, asking for a
supervised access, accepting a command, running a transaction. Later proofs cite these and do not unfold the operations.
-/

namespace Sys2Proof.Machine

/-! ## Writing a byte -/

theorem poke_read_eq (s : State) (d : Domain) (a : Nat) (v : Byte) : ((s.poke d a v).mem d).read a = v := by simp

theorem poke_read_ne (s : State) (d : Domain) (a : Nat) (v : Byte) {e : Domain} {b : Nat} (h : e ≠ d ∨ b ≠ a) :
    ((s.poke d a v).mem e).read b = (s.mem e).read b := by
  by_cases hd : e = d
  · subst hd
    rw [poke_mem_same, read_write_ne (h.resolve_left (fun hn => hn rfl))]
  · rw [poke_mem_other s d a v hd]

/-- The memories of a state with a byte written inside the address space stay in canonical form. -/
theorem poke_wf {s : State} {d : Domain} {a : Nat} (v : Byte) (ha : a < addressSpace)
    (h : ∀ e, (s.mem e).wf = true) (e : Domain) : ((s.poke d a v).mem e).wf = true := by
  by_cases hd : e = d
  · subst hd
    rw [poke_mem_same]
    exact wf_write (h e) ha v
  · rw [poke_mem_other s d a v hd]
    exact h e

/-! ## Free values in a range -/

/-- An invariant of writing a byte and of drawing is an invariant of filling a range with free values. -/
theorem scramble_induct {P : State → Prop} (d : Domain) (n : Nat) {a : Nat} {s : State}
    (hpoke : ∀ s b v, a ≤ b → b < a + n → P s → P (s.poke d b v)) (hdraw : ∀ s, P s → P s.draw) (hs : P s) :
    P (s.scramble d a n) := by
  induction n generalizing a s with
  | zero => exact hs
  | succ n ih =>
    refine ih (a := a + 1) (fun s b v h1 h2 => hpoke s b v (by omega) (by omega)) ?_
    exact hdraw _ (hpoke _ _ _ (Nat.le_refl a) (by omega) hs)

section Scramble
variable (s : State) (d : Domain) (a n : Nat)

@[simp] theorem scramble_cmd : (s.scramble d a n).cmd = s.cmd :=
  scramble_induct (P := fun t => t.cmd = s.cmd) d n (fun t b v _ _ h => by simpa using h) (fun t h => by simpa using h) rfl
@[simp] theorem scramble_port : (s.scramble d a n).port = s.port :=
  scramble_induct (P := fun t => t.port = s.port) d n (fun t b v _ _ h => by simpa using h) (fun t h => by simpa using h) rfl
@[simp] theorem scramble_responses : (s.scramble d a n).responses = s.responses :=
  scramble_induct (P := fun t => t.responses = s.responses) d n (fun t b v _ _ h => by simpa using h)
    (fun t h => by simpa using h) rfl
@[simp] theorem scramble_answers : (s.scramble d a n).answers = s.answers :=
  scramble_induct (P := fun t => t.answers = s.answers) d n (fun t b v _ _ h => by simpa using h)
    (fun t h => by simpa using h) rfl
@[simp] theorem scramble_agenda : (s.scramble d a n).agenda = s.agenda :=
  scramble_induct (P := fun t => t.agenda = s.agenda) d n (fun t b v _ _ h => by simpa using h)
    (fun t h => by simpa using h) rfl

/-- Nothing outside the range changes, in either domain (R39, R103). -/
theorem scramble_read_outside {e : Domain} {b : Nat} (h : e ≠ d ∨ b < a ∨ a + n ≤ b) :
    ((s.scramble d a n).mem e).read b = (s.mem e).read b := by
  refine scramble_induct (P := fun t => (t.mem e).read b = (s.mem e).read b) d n ?_ (fun t ht => by simpa using ht) rfl
  intro t c v h1 h2 ht
  rw [poke_read_ne t d c v (h.imp id (fun h => by omega))]
  exact ht

end Scramble

/-! ## Supervised accesses -/

/-- What asking for an access can answer (R40). -/
theorem ask_cases (s : State) (d : Domain) :
    (d = .direct ∧ s.ask d = .granted s) ∨
    (d = .supervised ∧ s.answers = [] ∧ s.ask d = .unanswered) ∨
    (∃ rest, d = .supervised ∧ s.answers = .succeed :: rest ∧ s.ask d = .granted { s with answers := rest }) ∨
    (∃ rest, d = .supervised ∧ s.answers = .fault :: rest ∧ s.ask d = .faulted { s with answers := rest }) := by
  cases d with
  | direct => exact .inl ⟨rfl, rfl⟩
  | supervised =>
    unfold State.ask
    cases h : s.answers with
    | nil => simp
    | cons x rest => cases x <;> simp

/-- A granted access changes nothing but the answers, of which it uses at most the first. -/
theorem ask_granted {s t : State} {d : Domain} (h : s.ask d = .granted t) :
    ∃ used, s.answers = used ++ t.answers ∧ t = { s with answers := t.answers } ∧ Answer.fault ∉ used ∧
      used.length = if d = .supervised then 1 else 0 := by
  rcases ask_cases s d with ⟨hd, e⟩ | ⟨_, _, e⟩ | ⟨rest, hd, ha, e⟩ | ⟨rest, _, ha, e⟩ <;> rw [e] at h
  · cases h; exact ⟨[], by simp [hd]⟩
  · cases h
  · cases h; exact ⟨[.succeed], by simp [hd, ha]⟩
  · cases h

/-- A faulted access is supervised and uses one answer, the fault. -/
theorem ask_faulted {s t : State} {d : Domain} (h : s.ask d = .faulted t) :
    d = .supervised ∧ s.answers = .fault :: t.answers ∧ t = { s with answers := t.answers } := by
  rcases ask_cases s d with ⟨_, e⟩ | ⟨_, _, e⟩ | ⟨rest, _, ha, e⟩ | ⟨rest, hd, ha, e⟩ <;> rw [e] at h
  · cases h
  · cases h
  · cases h
  · cases h; exact ⟨hd, ha, rfl⟩

/-- An access waits only in SUPERVISED and only with no answer left. -/
theorem ask_unanswered {s : State} {d : Domain} (h : s.ask d = .unanswered) : d = .supervised ∧ s.answers = [] := by
  rcases ask_cases s d with ⟨_, e⟩ | ⟨hd, ha, e⟩ | ⟨rest, _, ha, e⟩ | ⟨rest, _, ha, e⟩ <;> rw [e] at h
  · cases h
  · exact ⟨hd, ha⟩
  · cases h
  · cases h

/-! ## Reading a source byte -/

/-- A source byte with no note reads as memory holds it. -/
theorem sourceByte_of_no_note {s : State} {c : Context} {d : Domain} {a : Nat} (h : staleAt c.stale a = []) :
    s.sourceByte c d a = (s.mem d).read a ∧ s.afterSource c a = s := by
  simp [State.sourceByte, State.afterSource, h]

@[simp] theorem staleAt_nil (a : Nat) : staleAt [] a = [] := rfl

/-- A racing byte reads as the value in memory or as one it held before (R49). -/
theorem pickByte_mem (now : Byte) (old : List Byte) (n : Nat) : pickByte now old n = now ∨ pickByte now old n ∈ old := by
  unfold pickByte
  have hlt : Config.freePick n % (old.length + 1) < (now :: old).length := by
    simpa using Nat.mod_lt _ (Nat.succ_pos _)
  rw [List.getD_eq_getElem _ _ hlt]
  exact List.mem_cons.mp (List.getElem_mem hlt)

theorem sourceByte_cases (s : State) (c : Context) (d : Domain) (a : Nat) :
    s.sourceByte c d a = (s.mem d).read a ∨ (a, s.sourceByte c d a) ∈ c.stale := by
  unfold State.sourceByte
  split
  · exact .inl rfl
  · next old hne =>
    rcases pickByte_mem ((s.mem d).read a) (staleAt c.stale a) s.draws with h | h
    · exact .inl h
    · right
      simp only [staleAt, List.mem_map, List.mem_filter, decide_eq_true_eq] at h
      obtain ⟨p, ⟨hp, ha⟩, hv⟩ := h
      have : p = (a, pickByte ((s.mem d).read a) (staleAt c.stale a) s.draws) := Prod.ext ha hv
      exact this ▸ hp

/-- The state after a source byte is read differs at most in the count of draws. -/
theorem afterSource_eq (s : State) (c : Context) (a : Nat) : ∃ n, s.afterSource c a = { s with draws := n } := by
  unfold State.afterSource
  split
  · exact ⟨s.draws, rfl⟩
  · exact ⟨s.draws + 1, rfl⟩

section AfterSource
variable (s : State) (c : Context) (a : Nat)

@[simp] theorem afterSource_cmd : (s.afterSource c a).cmd = s.cmd := by
  obtain ⟨n, h⟩ := afterSource_eq s c a; rw [h]
@[simp] theorem afterSource_port : (s.afterSource c a).port = s.port := by
  obtain ⟨n, h⟩ := afterSource_eq s c a; rw [h]
@[simp] theorem afterSource_contexts : (s.afterSource c a).contexts = s.contexts := by
  obtain ⟨n, h⟩ := afterSource_eq s c a; rw [h]
@[simp] theorem afterSource_responses : (s.afterSource c a).responses = s.responses := by
  obtain ⟨n, h⟩ := afterSource_eq s c a; rw [h]
@[simp] theorem afterSource_answers : (s.afterSource c a).answers = s.answers := by
  obtain ⟨n, h⟩ := afterSource_eq s c a; rw [h]
@[simp] theorem afterSource_agenda : (s.afterSource c a).agenda = s.agenda := by
  obtain ⟨n, h⟩ := afterSource_eq s c a; rw [h]
@[simp] theorem afterSource_mem (d : Domain) : (s.afterSource c a).mem d = s.mem d := by
  obtain ⟨n, h⟩ := afterSource_eq s c a; rw [h]; cases d <;> rfl

end AfterSource

/-! ## Accepting a command -/

/-- Everything gate can do (R105, R141, R146). -/
theorem gate_cases (check : Option Status) (i : Instr) (s : State)
    (go : Context → State → Host.Outcome State Fault Refusal) :
    (∃ st, check = some st ∧ gate check i s go = .next (s.raise s.cmd.tid st)) ∨
    (check = none ∧ selfOverlap i = true ∧ gate check i s go = .refused .overlappingCopy) ∨
    (check = none ∧ selfOverlap i = false ∧ s.touchesBusy i = true ∧ gate check i s go = .refused .busyDestination) ∨
    (check = none ∧ selfOverlap i = false ∧ s.touchesBusy i = false ∧
      gate check i s go = go (s.newContext i) s.draw) := by
  unfold gate
  cases check with
  | some st => exact .inl ⟨st, rfl, rfl⟩
  | none =>
    cases h1 : selfOverlap i <;> cases h2 : s.touchesBusy i <;> simp

/-- A command that writes no memory neither overlaps itself nor touches a destination in use. -/
theorem selfOverlap_of_no_destination {i : Instr} (h : destinationOf i = none) : selfOverlap i = false := by
  simp only [selfOverlap, h]; cases sourceOf i <;> rfl

theorem touchesBusy_of_no_destination {i : Instr} (h : destinationOf i = none) (s : State) :
    s.touchesBusy i = false := by
  simp [State.touchesBusy, destinationsMeet, h, rangesMeet]

/-- A command whose source meets no destination in flight starts with no notes. -/
theorem overwritten_nil {s : State} {i : Instr}
    (h : ∀ c ∈ s.contexts, rangesMeet (sourceOf i) (destinationOf c.instr) = false) : s.overwritten i = [] := by
  simp only [State.overwritten, List.flatMap_eq_nil_iff]
  intro c hc
  have hm := h c hc
  unfold overwrittenFor
  split
  · next r hr =>
    rw [List.filter_eq_nil_iff]
    intro p _
    cases hs : sourceOf i with
    | none => simp [rangeCovers]
    | some q =>
      rw [hs, hr] at hm
      simp only [rangesMeet, ByteRange.meets, Bool.and_eq_false_iff, decide_eq_false_iff_not] at hm
      simp only [rangeCovers, ByteRange.covers, Bool.and_eq_true, decide_eq_true_eq]
      rintro ⟨⟨⟨h1, h2⟩, h3⟩, ⟨-, h4⟩, h5⟩
      rcases hm with ((((hm | hm) | hm) | hm) | hm)
      · exact hm h1
      all_goals omega
  · rfl

/-! ## Running a transaction -/

/-- The induction over a run, once: what holds of a transaction and its state at the start and is kept by every
micro-step gives what is wanted of the state in which the run stops. -/
theorem drive_induct {f : Context → State → Progress} (P : Context → State → Prop) (Q : State → Prop)
    (hbusy : ∀ c s c' s', P c s → f c s = .busy c' s' → P c' s')
    (hpark : ∀ c s, P c s → Q (s.park c))
    (hwait : ∀ c s c' s', P c s → f c s = .waiting c' s' → Q (s'.park c'))
    (hret : ∀ c s v s', P c s → f c s = .returned v s' → Q (s'.respond c.tid .ok v))
    (hraise : ∀ c s st s', P c s → f c s = .raised st s' → Q (s'.raise c.tid st))
    (n : Nat) {c : Context} {s t : State} (h0 : P c s) (h : drive f n c s = .next t) : Q t := by
  induction n generalizing c s with
  | zero =>
    simp only [drive, Host.Outcome.next.injEq] at h
    exact h ▸ hpark c s h0
  | succ n ih =>
    unfold drive at h
    split at h
    · next c' s' e => exact ih (hbusy _ _ _ _ h0 e) h
    · next c' s' e => cases h; exact hwait _ _ _ _ h0 e
    · next v s' e => cases h; exact hret _ _ _ _ h0 e
    · next st s' e => cases h; exact hraise _ _ _ _ h0 e
    · cases h

/-- A run never refuses. -/
theorem drive_not_refused {f : Context → State → Progress} (n : Nat) (c : Context) (s : State) (r : Refusal) :
    drive f n c s ≠ .refused r := by
  induction n generalizing c s with
  | zero => simp [drive]
  | succ n ih => unfold drive; split <;> first | exact ih _ _ | simp

/-- A run stops with a fault only where a micro-step does. -/
theorem drive_not_fault {f : Context → State → Progress} (P : Context → State → Prop)
    (hbusy : ∀ c s c' s', P c s → f c s = .busy c' s' → P c' s')
    (hstop : ∀ c s r, P c s → f c s ≠ .stopped r)
    (n : Nat) {c : Context} {s : State} (h0 : P c s) (r : Fault) : drive f n c s ≠ .fault r := by
  induction n generalizing c s with
  | zero => simp [drive]
  | succ n ih =>
    unfold drive
    split
    · next c' s' e => exact ih (hbusy _ _ _ _ h0 e)
    · simp
    · simp
    · simp
    · next q e => exact absurd e (hstop _ _ _ h0)

/-- An access at an address goes on; only elsewhere does it stop. -/
theorem atAddress_cases (a : Nat) (p : Progress) :
    (a < addressSpace ∧ atAddress a p = p) ∨ (addressSpace ≤ a ∧ atAddress a p = .stopped .noSuchAddress) := by
  unfold atAddress
  split
  · next h => exact .inl ⟨h, rfl⟩
  · next h => exact .inr ⟨by omega, rfl⟩

/-- Everything one stage of the pipeline can do (R112). -/
theorem foldPipeline_cases (c : Context) (s : State) :
    (c.phase = .gather ∧ foldPipeline c s = .busy { c with phase := .stage1 } s) ∨
    (c.phase = .stage1 ∧ foldPipeline c s = .busy { c with t1 := foldStage1 c.sum, phase := .stage2 } s) ∨
    (c.phase = .stage2 ∧ foldPipeline c s = .busy { c with t2 := foldStage2 c.t1, phase := .output } s) ∨
    (c.phase = .output ∧ foldPipeline c s = .returned (checksumResult (complementFold c.t2)) s) := by
  unfold foldPipeline
  cases h : c.phase <;> simp

end Sys2Proof.Machine
end

