-- ==== Sys2Proof/Laws/PerInstr.lean ====
section
/-!
SUPPORT. The statements made per command, one lemma a constructor.
-/

namespace Sys2Proof.Laws.LegalWord

/-- The command word a command is written with is legal (R57): a frame the encoder makes is never illegal by its fields. -/
def Statement (i : Instr) : Prop := i.wellFormed = true

theorem acc (seed base size len : Word) : Statement (.acc seed base size len) := rfl

theorem copy (sdom ddom : Domain) (seed srcBase srcSize len dstBase dstSize : Word) :
    Statement (.copy sdom ddom seed srcBase srcSize len dstBase dstSize) := by
  cases sdom <;> cases ddom <;> rfl

theorem fold (sum : Word) : Statement (.fold sum) := rfl

theorem phc (proto : Byte) (len16 : Half) (sum saddr daddr : Word) : Statement (.phc proto len16 sum saddr daddr) := by
  unfold Statement Instr.wellFormed CommandWord.wellFormed
  simp [Instr.commandWord, CommandWord.opcodeKnown, CommandWord.modLegal, CommandWord.argLegal]

theorem fast (words : Half) (base size : Word) : Statement (.fast words base size) := by
  unfold Statement Instr.wellFormed CommandWord.wellFormed
  simp [Instr.commandWord, CommandWord.opcodeKnown, CommandWord.modLegal, CommandWord.argLegal]

end Sys2Proof.Laws.LegalWord
end

