-- ==== Sys2Proof/Laws/Runs.lean ====
section
/-!
SUPPORT. Everything a micro-step, a run, an executed command and a transaction in flight can do to the state, said once:
which bytes may change, what the other transactions keep, and in which of three ways a run stops.
-/

namespace Sys2Proof.Machine

/-- What a command with this destination may do to a state before it stops (R39, R40, R103). -/
structure Touches (dest : Option ByteRange) (s t : State) : Prop where
  cmd : t.cmd = s.cmd
  port : t.port = s.port
  responses : t.responses = s.responses
  agenda : t.agenda = s.agenda
  contexts : List.Forall₂ SameTransaction t.contexts s.contexts
  outside : ∀ d a, rangeCovers dest d a = false → (t.mem d).read a = (s.mem d).read a
  answers : t.answers <:+ s.answers

theorem forall₂_same_refl (l : List Context) : List.Forall₂ SameTransaction l l :=
  List.forall₂_same.mpr (fun _ _ => rfl)

theorem Touches.refl (dest : Option ByteRange) (s : State) : Touches dest s s :=
  ⟨rfl, rfl, rfl, rfl, forall₂_same_refl _, fun _ _ _ => rfl, List.suffix_refl _⟩

theorem forall₂_same_trans {l m n : List Context} (h : List.Forall₂ SameTransaction l m)
    (k : List.Forall₂ SameTransaction m n) : List.Forall₂ SameTransaction l n := by
  induction h generalizing n with
  | nil => exact k
  | cons h _ ih =>
    cases k with
    | cons k1 k2 => exact .cons (h.trans k1) (ih k2)

theorem Touches.trans {dest : Option ByteRange} {s t u : State} (h : Touches dest s t) (k : Touches dest t u) :
    Touches dest s u :=
  ⟨k.cmd.trans h.cmd, k.port.trans h.port, k.responses.trans h.responses, k.agenda.trans h.agenda,
   forall₂_same_trans k.contexts h.contexts, fun d a hd => (k.outside d a hd).trans (h.outside d a hd),
   k.answers.trans h.answers⟩

theorem touches_draws (dest : Option ByteRange) (s : State) (n : Nat) : Touches dest s { s with draws := n } :=
  ⟨rfl, rfl, rfl, rfl, forall₂_same_refl _, fun d _ _ => by cases d <;> rfl, List.suffix_refl _⟩

theorem touches_draw (dest : Option ByteRange) (s : State) : Touches dest s s.draw := touches_draws dest s _

theorem touches_afterSource (dest : Option ByteRange) (s : State) (c : Context) (a : Nat) :
    Touches dest s (s.afterSource c a) := by
  obtain ⟨n, h⟩ := afterSource_eq s c a
  rw [h]
  exact touches_draws dest s n

theorem touches_poke {r : ByteRange} {s : State} {d : Domain} {a : Nat} (v : Byte) (h : r.covers d a = true) :
    Touches (some r) s (s.poke d a v) := by
  refine ⟨by simp, by simp, by simp, by simp, ?_, ?_, by simp⟩
  · rw [poke_contexts]
    rw [List.forall₂_map_left_iff]
    exact List.forall₂_same.mpr (fun c _ => noteOverwrite_rest d a _ c)
  · intro e b hb
    apply poke_read_ne
    by_cases he : e = d
    · right
      rintro rfl
      subst he
      simp [rangeCovers, h] at hb
    · exact .inl he

theorem touches_scramble (s : State) (d : Domain) (a n : Nat) :
    Touches (some ⟨d, a, n⟩) s (s.scramble d a n) := by
  refine scramble_induct (P := Touches (some ⟨d, a, n⟩) s) d n ?_ ?_ (Touches.refl _ s)
  · intro t b v h1 h2 ht
    exact ht.trans (touches_poke v (by simp [ByteRange.covers, h1, h2]))
  · intro t ht
    exact ht.trans (touches_draw _ t)

theorem touches_granted (dest : Option ByteRange) {s t : State} {d : Domain} (h : s.ask d = .granted t) :
    Touches dest s t := by
  obtain ⟨used, h1, h2, -⟩ := ask_granted h
  rw [h2]
  exact ⟨rfl, rfl, rfl, rfl, forall₂_same_refl _, fun d _ _ => by cases d <;> rfl, ⟨used, h1.symm⟩⟩

theorem touches_faulted (dest : Option ByteRange) {s t : State} {d : Domain} (h : s.ask d = .faulted t) :
    Touches dest s t := by
  obtain ⟨-, h1, h2⟩ := ask_faulted h
  rw [h2]
  exact ⟨rfl, rfl, rfl, rfl, forall₂_same_refl _, fun d _ _ => by cases d <;> rfl, ⟨[.fault], h1.symm⟩⟩

/-- The identity of a transaction: its TID, its captured frame, its command, never changed by a micro-step (R11). -/
abbrev SameIdentity (c d : Context) : Prop := c.tid = d.tid ∧ c.frame = d.frame ∧ c.instr = d.instr

/-- What a micro-step of a command with this destination may lead to. -/
def Progress.Within (dest : Option ByteRange) (c : Context) (s : State) : Progress → Prop
  | .busy c' t => SameIdentity c' c ∧ Touches dest s t
  | .waiting c' t => c' = c ∧ t = s ∧ s.answers = [] ∧ dest ≠ none
  | .returned _ t => Touches dest s t
  | .raised st t => st = .copyFault ∧ Touches dest s t ∧ dest ≠ none ∧ Answer.fault ∈ s.answers
  | .stopped _ => True

theorem within_atAddress {dest : Option ByteRange} {c : Context} {s : State} {p : Progress} (a : Nat)
    (h : p.Within dest c s) : (atAddress a p).Within dest c s := by
  unfold atAddress
  split
  · exact h
  · trivial

theorem within_foldPipeline (dest : Option ByteRange) (c : Context) (s : State) :
    (foldPipeline c s).Within dest c s := by
  rcases foldPipeline_cases c s with ⟨_, h⟩ | ⟨_, h⟩ | ⟨_, h⟩ | ⟨_, h⟩ <;> rw [h]
  · exact ⟨⟨rfl, rfl, rfl⟩, Touches.refl _ s⟩
  · exact ⟨⟨rfl, rfl, rfl⟩, Touches.refl _ s⟩
  · exact ⟨⟨rfl, rfl, rfl⟩, Touches.refl _ s⟩
  · exact Touches.refl _ s

theorem within_accTick (base len : Word) (c : Context) (s : State) : (accTick base len c s).Within none c s := by
  unfold accTick
  split
  · exact within_atAddress _ ⟨⟨by simp, by simp, by simp⟩, touches_afterSource _ _ _ _⟩
  · exact Touches.refl _ s

theorem within_copyTick (sdom ddom : Domain) (srcBase len dstBase : Word) (c : Context) (s : State) :
    (copyTick sdom ddom srcBase len dstBase c s).Within (some ⟨ddom, dstBase.toNat, len.toNat⟩) c s := by
  unfold copyTick
  simp only
  split
  · next hpos =>
    split
    · unfold copyRead
      split
      · next h => exact ⟨rfl, rfl, (ask_unanswered h).2, by simp⟩
      · next t h =>
        refine ⟨rfl, (touches_faulted _ h).trans (touches_scramble _ _ _ _), by simp, ?_⟩
        simp [(ask_faulted h).2.1]
      · next t h =>
        exact within_atAddress _ ⟨⟨rfl, rfl, rfl⟩, (touches_granted _ h).trans (touches_afterSource _ _ _ _)⟩
    · unfold copyWrite
      split
      · next h => exact ⟨rfl, rfl, (ask_unanswered h).2, by simp⟩
      · next t h =>
        refine ⟨rfl, (touches_faulted _ h).trans (touches_scramble _ _ _ _), by simp, ?_⟩
        simp [(ask_faulted h).2.1]
      · next t h =>
        refine within_atAddress _ ⟨⟨by simp, by simp, by simp⟩, (touches_granted _ h).trans (touches_poke _ ?_)⟩
        simp only [ByteRange.covers, Bool.and_eq_true, decide_eq_true_eq]
        exact ⟨⟨trivial, by omega⟩, by omega⟩
  · exact Touches.refl _ s

theorem within_phcTick (proto : Byte) (len16 : Half) (saddr daddr : Word) (c : Context) (s : State) :
    (phcTick proto len16 saddr daddr c s).Within none c s := by
  unfold phcTick
  split
  · exact ⟨⟨rfl, rfl, rfl⟩, Touches.refl _ s⟩
  · exact within_foldPipeline _ c s

theorem within_fastTick (words : Half) (base : Word) (c : Context) (s : State) :
    (fastTick words base c s).Within none c s := by
  unfold fastTick
  split
  · split
    · refine within_atAddress _ ⟨⟨rfl, rfl, rfl⟩, ?_⟩
      exact (((touches_afterSource _ _ _ _).trans (touches_afterSource _ _ _ _)).trans
        (touches_afterSource _ _ _ _)).trans (touches_afterSource _ _ _ _)
    · exact within_foldPipeline _ c s
  · exact within_foldPipeline _ c s

/-- Everything one micro-step of any command can do. -/
theorem within_tickOf (i : Instr) (c : Context) (s : State) : (tickOf i c s).Within (destinationOf i) c s := by
  cases i with
  | acc => exact within_accTick _ _ c s
  | copy => exact within_copyTick _ _ _ _ _ c s
  | fold => exact within_foldPipeline _ c s
  | phc => exact within_phcTick _ _ _ _ c s
  | fast => exact within_fastTick _ _ c s

/-- The ways a run of a command can stop: in flight again, with a result, or with CopyFault. -/
inductive RunStops (dest : Option ByteRange) (c : Context) (s t : State) : Prop where
  | inFlight (c' : Context) (u : State) (h : Touches dest s u) (same : SameIdentity c' c) (e : t = u.park c')
  | returned (v : Word) (u : State) (h : Touches dest s u) (e : t = u.respond c.tid .ok v)
  | faulted (u : State) (h : Touches dest s u) (hd : dest ≠ none) (hf : Answer.fault ∈ s.answers)
      (e : t = u.raise c.tid .copyFault)

/-- Everything a run of micro-steps can do. -/
theorem drive_stops {f : Context → State → Progress} {dest : Option ByteRange}
    (hf : ∀ c s, (f c s).Within dest c s) (n : Nat) {c : Context} {s t : State} (h : drive f n c s = .next t) :
    RunStops dest c s t := by
  refine drive_induct (P := fun c' s' => SameIdentity c' c ∧ Touches dest s s') (Q := RunStops dest c s)
    ?_ ?_ ?_ ?_ ?_ n ⟨⟨rfl, rfl, rfl⟩, Touches.refl _ s⟩ h
  · rintro c1 s1 c2 s2 ⟨hi, ht⟩ e
    have := hf c1 s1
    rw [e] at this
    exact ⟨⟨this.1.1.trans hi.1, this.1.2.1.trans hi.2.1, this.1.2.2.trans hi.2.2⟩, ht.trans this.2⟩
  · rintro c1 s1 ⟨hi, ht⟩
    exact .inFlight c1 s1 ht hi rfl
  · rintro c1 s1 c2 s2 ⟨hi, ht⟩ e
    have := hf c1 s1
    rw [e] at this
    obtain ⟨rfl, rfl, -⟩ := this
    exact .inFlight c2 s2 ht hi rfl
  · rintro c1 s1 v s2 ⟨hi, ht⟩ e
    have := hf c1 s1
    rw [e] at this
    exact .returned v s2 (ht.trans this) (by rw [hi.1])
  · rintro c1 s1 st s2 ⟨hi, ht⟩ e
    have := hf c1 s1
    rw [e] at this
    obtain ⟨rfl, h1, h2, h3⟩ := this
    exact .faulted s2 (ht.trans h1) h2 (ht.answers.subset h3) (by rw [hi.1])

/-- The first register writes of a command keep the identity of its transaction. -/
theorem startOf_identity (i : Instr) (c : Context) : SameIdentity (startOf i c) c := by
  cases i <;> exact ⟨rfl, rfl, rfl⟩

/-- Executing a command is accepting it and running it from its first register writes; the meanings say the same one
by one. -/
theorem exec_eq_gate (i : Instr) (s : State) :
    exec i s = gate (checkOf i) i s (fun c t => drive (tickOf i) (stepsOf i) (startOf i c) t) := by
  cases i <;> rfl

/-- Everything an executed command that answers a next state can have done. -/
theorem exec_stops {i : Instr} {s t : State} (h : exec i s = .next t) :
    (∃ st, checkOf i = some st ∧ t = s.raise s.cmd.tid st) ∨
    (checkOf i = none ∧ selfOverlap i = false ∧ s.touchesBusy i = false ∧
      RunStops (destinationOf i) (s.newContext i) s.draw t) := by
  rw [exec_eq_gate] at h
  rcases gate_cases (checkOf i) i s (fun c t => drive (tickOf i) (stepsOf i) (startOf i c) t) with
    ⟨st, hc, e⟩ | ⟨_, _, e⟩ | ⟨_, _, _, e⟩ | ⟨hc, ho, hb, e⟩ <;> rw [e] at h
  · cases h; exact .inl ⟨st, hc, rfl⟩
  · cases h
  · cases h
  · refine .inr ⟨hc, ho, hb, ?_⟩
    have hs := startOf_identity i (s.newContext i)
    cases drive_stops (within_tickOf i) _ h with
    | inFlight c' u ht same e =>
      exact .inFlight c' u ht ⟨same.1.trans hs.1, same.2.1.trans hs.2.1, same.2.2.trans hs.2.2⟩ e
    | returned v u ht e => exact .returned v u ht (by rw [e, hs.1])
    | faulted u ht hd hf e => exact .faulted u ht hd hf (by rw [e, hs.1])

/-- Everything one micro-step taken alone can leave: the ways a run can stop. -/
theorem settle_stops {p : Progress} {dest : Option ByteRange} {c : Context} {s t : State} (hp : p.Within dest c s)
    (h : settle c.tid p = .next t) : RunStops dest c s t := by
  cases p with
  | busy c' u => cases h; exact .inFlight c' u hp.2 hp.1 rfl
  | waiting c' u =>
    cases h
    obtain ⟨rfl, rfl, -⟩ := hp
    exact .inFlight c' u (Touches.refl _ u) ⟨rfl, rfl, rfl⟩ rfl
  | returned v u => cases h; exact .returned v u hp rfl
  | raised st u =>
    cases h
    obtain ⟨rfl, ht, hd, hf⟩ := hp
    exact .faulted u ht hd hf rfl
  | stopped r => cases h

/-- Everything a transaction in flight can do when it is resumed. -/
theorem resume_stops {s t : State} {k : Nat} {c : Context} (hk : s.contexts[k]? = some c)
    (h : resume k s = .next t) : RunStops (destinationOf c.instr) c (s.without k) t := by
  simp only [resume, hk] at h
  exact drive_stops (within_tickOf c.instr) _ h

/-- Everything a transaction in flight can do in one micro-step. -/
theorem tick_stops {s t : State} {k : Nat} {c : Context} (hk : s.contexts[k]? = some c)
    (h : tick k s = .next t) : RunStops (destinationOf c.instr) c (s.without k) t := by
  simp only [tick, hk] at h
  exact settle_stops (within_tickOf c.instr c _) h

end Sys2Proof.Machine
end

