-- ==== Sys2Proof/Tests/Slice0.lean ====
section
/-!
SUPPORT. Tests with expected values taken from the spec (spec/30_encoding.md rule R62, spec/40_arithmetic.md,
spec/93_implementation_defined.md section 2, spec/95_test_vectors.md), and for every statement with hypotheses a named theorem that
concrete values meet them together.
-/

namespace Sys2Proof.Tests

open Sys2Proof Sys2Proof.Machine

/-! ## Helpers -/

/-- The reset state with bytes in DIRECT. -/
def holding (base : Nat) (b : List Byte) : State := { State.reset with direct := Memory.writeBytes [] base b }

/-- The reset state with bytes in SUPERVISED and the environment's answers. -/
def supervisedHolding (base : Nat) (b : List Byte) (answers : List Answer) : State :=
  { State.reset with supervised := Memory.writeBytes [] base b, answers := answers }

/-- R[0] and R[1] of the last response of a next state. -/
def lastAnswer : Host.Outcome State Fault Refusal → Option (Word × Word)
  | .next t => t.responses.getLast?.map (fun r => (r.r0, r.r1))
  | _ => none

/-- R[0] of the last response of a next state. -/
def lastStatus (o : Host.Outcome State Fault Refusal) : Option Word := (lastAnswer o).map Prod.fst

/-- The state a step leads to, the given one where it stops. -/
def after (s : State) : Host.Outcome State Fault Refusal → State
  | .next t => t
  | _ => s

/-- The name of a refusal. -/
def refusalOf : Host.Outcome State Fault Refusal → Option Refusal
  | .refused r => some r
  | _ => none

/-- The 20 sample bytes of V-ACC-12 and V-FAST-1. -/
def sampleHeader : List Byte :=
  [0x45, 0x00, 0x00, 0x73, 0x00, 0x00, 0x40, 0x00, 0x40, 0x11, 0x00, 0x00, 0xc0, 0xa8, 0x00, 0x01, 0xc0, 0xa8, 0x00, 0xc7]

/-- The command of V-COPY-1. -/
def copyIn : Instr := .copy .supervised .direct 0 0x8000 6 5 0x2000 8

/-- A transaction that has just been accepted. -/
def opened (i : Instr) : Context :=
  startOf i { tid := 7, frame := encode i, instr := i, sum := 0, pos := 0, hold := 0, holdv := false, t1 := 0, t2 := 0,
              phase := .gather, latch := none, stale := [], undo := [] }

/-- A state with transactions in flight. -/
def inFlight (l : List Instr) (answers : List Answer) : State :=
  { State.reset with contexts := l.map opened, answers := answers }

/-- A state with one command at the port. -/
def waiting (i : Instr) : State := { State.reset with port := [⟨3, encode i⟩] }

/-- A state in which a COPY of V-COPY-1 has read and written one byte. -/
def copyUnderWay : State := after (inFlight [copyIn] []) (resume 0 (inFlight [copyIn] [.succeed]))

/-! ## Well-formedness: one command word that each check refuses -/

theorem test_opcode_zero_is_ill_formed : CommandWord.wellFormed ⟨0, 0, 0⟩ = false := by decide

theorem test_opcode_six_is_ill_formed : CommandWord.opcodeKnown ⟨6, 0, 0⟩ = false := by decide

theorem test_mod_of_acc_is_ill_formed : CommandWord.modLegal ⟨1, 1, 0⟩ = false := by decide

theorem test_bit_18_of_copy_is_ill_formed : CommandWord.modLegal ⟨2, 4, 0⟩ = false := by decide

theorem test_mod_of_fast_is_ill_formed : CommandWord.modLegal ⟨5, 1, 5⟩ = false := by decide

theorem test_arg_of_fold_is_ill_formed : CommandWord.argLegal ⟨3, 0, 0x0100⟩ = false := by decide

theorem test_ill_formed_words : ([⟨0, 0, 0⟩, ⟨6, 0, 0⟩, ⟨1, 1, 0⟩, ⟨2, 4, 0⟩, ⟨5, 1, 5⟩, ⟨3, 0, 0x0100⟩] : List CommandWord).all
    (fun c => !c.wellFormed) = true := by decide

theorem test_well_formed_words : ([⟨1, 0, 0⟩, ⟨2, 3, 0⟩, ⟨3, 0, 0⟩, ⟨4, 0xFF, 0xFFFF⟩, ⟨5, 0, 0xFFFF⟩] : List CommandWord).all
    (fun c => c.wellFormed) = true := by decide

/-! ## Decoding: the frames of R62, V-ENC-3 to V-ENC-11, V-ACC-24, V-COPY-7, V-FAST-13 -/

theorem test_decode_acc :
    decode ⟨0x01000000, 0, 0x00001000, 0x14, 0x14, 0, 0, 0⟩ = .command (.acc 0 0x1000 20 20) := by decide

theorem test_decode_copy_sd :
    decode ⟨0x02010000, 0, 0x00008000, 6, 5, 0x00002000, 8, 0⟩ = .command copyIn := by decide

theorem test_decode_copy_ds :
    decode ⟨0x02020000, 1, 2, 3, 4, 5, 6, 7⟩ = .command (.copy .direct .supervised 1 2 3 4 5 6) := by decide

theorem test_decode_fold :
    decode ⟨0x03000000, 0x0002479C, 0, 0, 0, 0, 0, 0⟩ = .command (.fold 0x0002479C) := by decide

theorem test_decode_phc :
    decode ⟨0x04110008, 0, 0x0A000001, 0x0A000002, 0, 0, 0, 0⟩ = .command (.phc 17 8 0 0x0A000001 0x0A000002) := by
  decide

theorem test_decode_fast :
    decode ⟨0x05000005, 0, 0x00001000, 0x14, 0, 0, 0, 0⟩ = .command (.fast 5 0x1000 20) := by decide

theorem test_decode_ignored_words :
    decode ⟨0x01000000, 0, 0x1000, 1, 1, 0xDEADBEEF, 0xDEADBEEF, 0xDEADBEEF⟩ = .command (.acc 0 0x1000 1 1) := by
  decide

theorem test_decode_rejects_opcodes :
    ([0x00000000, 0x06000000, 0x7F000000, 0xFF000000, 0xFFFFFFFF] : List Word).all
      (fun w => decide (decode ⟨w, 0, 0, 0, 0, 0, 0, 0⟩ = .rejected (.unknownOpcode (opcField w)))) = true := by decide

theorem test_decode_rejects_must_be_zero :
    ([0x01000001, 0x02000001, 0x02040000, 0x02800000, 0x03010000, 0x03000100, 0x05010005, 0x05FF0005] : List Word).all
      (fun w => decide (decode ⟨w, 0, 0, 0, 0, 0, 0, 0⟩ = .rejected (.mustBeZero (opcField w)))) = true := by decide

theorem test_encode_copy_in :
    encode copyIn = ⟨0x02010000, 0, 0x00008000, 6, 5, 0x00002000, 8, 0⟩ := by decide

theorem test_table_word_copy_ss :
    decodeTableWord 32 0x02030000 = some (.copy .supervised .supervised 0 0 0 0 0 0) := by decide

theorem test_table_word_fast : decodeTableWord 32 0x0500000F = some (.fast 15 0 0) := by decide

/-! ## Arithmetic: V-ARI-6, V-ARI-7, and the parameter values of spec/93 section 2 -/

theorem test_add1c32_wraps : add1c32 0x80000000 0x80000000 = 0x00000001 := by decide

theorem test_add1c32_sample : add1c32 0x85114073 0xC0A80001 = 0x45B94075 := by decide

theorem test_odd_placement_low : oddWordOf .low 0xAB = 0x00AB ∧ oddWordOf .high 0xAB = 0xAB00 := by decide

theorem test_fold_carry_dropped : foldStage2Of .carryDropped (foldStage1 0xFFFEFFFF) = 0xFFFD := by decide

theorem test_literal_word : lengthProtocolWordOf .docLiteral 17 8 = 0x08001100 := by decide

theorem test_lane_word : lengthProtocolWordOf .beLanes 17 8 = 0x00110008 := by decide

theorem test_fallback_never_signals : alignmentInvalid .fallback 0x1002 = false := by decide

/-! ## Commands -/

/-- V-ACC-12. -/
theorem test_acc_sample : lastAnswer (exec (.acc 0 0x1000 20 20) (holding 0x1000 sampleHeader)) = some (0, 0x0002479C) := by
  decide +kernel

/-- V-ACC-8 and V-ACC-22: a carry out of bit 31, and the last two addresses. -/
theorem test_acc_corners :
    lastAnswer (exec (.acc 0xFFFFFFFF 0x1000 2 2) (holding 0x1000 [0x00, 0x01])) = some (0, 1) ∧
    lastAnswer (exec (.acc 0 0xFFFFFFFE 2 2) (holding 0xFFFFFFFE [0x12, 0x34])) = some (0, 0x1234) := by
  decide +kernel

/-- V-COPY-1. -/
theorem test_copy_in :
    let t := after State.reset
      (exec copyIn (supervisedHolding 0x8000 [1, 2, 3, 4, 5, 6] [.succeed, .succeed, .succeed, .succeed, .succeed]))
    t.responses.map Response.r1 = [0x906] ∧ t.direct.bytes 0x2000 6 = [1, 2, 3, 4, 5, 0] ∧ t.answers = [] := by
  decide +kernel

/-- V-COPY-4, V-COPY-6 and V-COPY-9. -/
theorem test_copy_stops :
    lastStatus (exec copyIn (supervisedHolding 0x8000 [1, 2, 3, 4, 5, 6] [.succeed, .succeed, .succeed, .fault])) = some 1 ∧
    lastStatus (exec (.copy .supervised .direct 0 0x8000 6 5 0x2000 4) (supervisedHolding 0x8000 [] [.fault])) = some 2 ∧
    refusalOf (exec (.copy .direct .direct 0 0x1000 8 4 0x1002 8) State.reset) = some .overlappingCopy := by
  decide +kernel

/-- V-FOLD-6. -/
theorem test_fold_second_stage : lastAnswer (exec (.fold 0x0001FFFF) State.reset) = some (0, 0x0000FFFE) := by decide +kernel

/-- V-FOLD-12. -/
theorem test_fold_sample : lastAnswer (exec (.fold 0x0002479C) State.reset) = some (0, 0x0000B861) := by decide +kernel

/-- V-PHC-1. -/
theorem test_phc_sample :
    lastAnswer (exec (.phc 17 8 0 0x0A000001 0x0A000002) State.reset) = some (0, 0x0000EBE3) := by decide +kernel

/-- V-PHC-7. -/
theorem test_phc_carry :
    lastAnswer (exec (.phc 6 0x73 0x0002479C 0xC0A80001 0xC0A800C7) State.reset) = some (0, 0x000035CF) := by decide +kernel

/-- V-FAST-1. -/
theorem test_fast_sample :
    lastAnswer (exec (.fast 5 0x1000 20) (holding 0x1000 sampleHeader)) = some (0, 0x0000B861) := by decide +kernel

/-- V-FAST-10, V-FAST-11 and V-FAST-8: alignment, length before alignment, count. -/
theorem test_fast_errors :
    lastStatus (exec (.fast 5 0x1002 20) State.reset) = some 3 ∧ lastStatus (exec (.fast 4 0x1002 20) State.reset) = some 2 ∧
    lastStatus (exec (.fast 16 0x1000 64) State.reset) = some 2 := by
  decide +kernel

/-! ## Steps -/

/-- A free context exists in any state with nothing in flight (R6: N_CTX is at least 1). -/
theorem hasRoom_of_idle {s : State} (h : s.contexts = []) : s.hasRoom = true := by simp [State.hasRoom, h]

/-- The first instruction after reset is the one placed (V-FOLD-1). -/
theorem test_step_after_reset : lastAnswer (step (State.reset.withFetchWord 32 0x03000000)) = some (0, 0x0000FFFF) := by
  decide +kernel

/-- V-ACC-23: an illegal frame is answered InvalidCommand. -/
theorem test_step_illegal : lastStatus (step (State.reset.withFetchWord 32 0x01000001)) = some 4 := by decide +kernel

/-- R104: a COPY without an answer stays in flight and is resumed when the answer comes. -/
theorem test_copy_suspends_and_resumes :
    copyUnderWay.contexts.map Context.pos = [1] ∧ copyUnderWay.responses = [] ∧
    lastAnswer (resume 0 { copyUnderWay with answers := [.succeed, .succeed, .succeed, .succeed] }) = some (0, 0) := by
  decide +kernel

/-! ## Witnesses: concrete values that meet the hypotheses of each statement together -/

theorem witness_AddEndAroundCarry :
    ((0xFFFFFFFF#32).toNat + (0xFFFFFFFF#32).toNat) / 2 ^ 32 = 1 ∧ (0xFFFFFFFF#32).toNat + (0#32).toNat < 2 ^ 32 := by decide

theorem witness_AddEndAroundLaws : List.Perm [1#32, 0xFFFFFFFF#32] [0xFFFFFFFF#32, 1#32] := by decide

theorem witness_SplitAtEvenPoint : ([0x01, 0x02] : List Byte).length % 2 = 0 ∧ ([] : List Byte).length % 2 = 0 := by decide

theorem witness_SplitAtOddPoint : ([0x01, 0x02, 0x03] : List Byte).length % 2 = 1 := by decide

theorem witness_TwoStageFold : 2 ^ 16 ≤ (foldStage1 0x0001FFFF).toNat ∧ 2 ≤ 2 := by decide

theorem witness_FoldCharacterised : (0xFFFFFFFF#32) ≠ 0 ∧ (0xFFFF#32).toNat ≤ 0xFFFF := by decide

theorem witness_SelfVerification :
    (sampleHeader.take 10).length % 2 = 0 ∧ (sampleHeader.drop 12).length % 2 = 0 := by decide

theorem witness_DecodeEncode : Instr.wellFormed copyIn = true ∧ Instr.wellFormed (.phc 0xFF 0xFFFF 0 0 0) = true := by decide

theorem witness_EncodeDecode :
    decode ⟨0x01000000, 0, 0x1000, 1, 1, 0xDEADBEEF, 0, 0⟩ = .command (.acc 0 0x1000 1 1) := by decide

theorem witness_IllegalFrames :
    let s : State := { State.reset with cmd := ⟨3, ⟨0x02040000, 0, 0x8000, 6, 5, 0x2000, 8, 0⟩⟩ }
    decode s.cmd.frame = .rejected (.mustBeZero 2) := by decide

theorem witness_IgnoredWordsHaveNoEffect :
    decode (encode copyIn) = .command copyIn ∧
    readWords copyIn (encode copyIn) = readWords copyIn { encode copyIn with w7 := 0xDEADBEEF } := by decide

theorem witness_AdmissionIsInvisible : ∃ t,
    (waiting copyIn).port = ⟨3, encode copyIn⟩ :: [] ∧ (waiting copyIn).hasRoom = true ∧
    accept 0 (waiting copyIn) = .next t ∧ t.contexts.length = (waiting copyIn).contexts.length + 1 :=
  ⟨_, rfl, hasRoom_of_idle rfl, rfl, rfl⟩

theorem witness_MicroStepsCompose : ∃ t,
    (inFlight [.acc 0 0x1000 4 4] []).contexts.length = 0 + 1 ∧
    (inFlight [.acc 0 0x1000 4 4] []).contexts[0]? = some (opened (.acc 0 0x1000 4 4)) ∧
    contextLegal (opened (.acc 0 0x1000 4 4)) = true ∧ tick 0 (inFlight [.acc 0 0x1000 4 4] []) = .next t ∧
    t.contexts.length = (inFlight [.acc 0 0x1000 4 4] []).contexts.length :=
  ⟨_, rfl, rfl, by decide, rfl, rfl⟩

/-- A state with one legal transaction in flight meets the invariant. -/
theorem inv_of_one (i : Instr) (answers : List Answer) (h : contextLegal (opened i) = true) :
    (inFlight [i] answers).Inv where
  direct_wf := rfl
  supervised_wf := rfl
  room := by simp [inFlight, Config.contextCount]
  contexts_legal := by simp [inFlight, h]
  destinations_apart := List.pairwise_singleton _ _
  responses_legal := by simp [inFlight, State.reset]

theorem witness_InFlightResponds :
    (inFlight [copyIn] [.succeed, .succeed, .succeed, .succeed, .succeed, .fault]).Inv ∧
    (inFlight [copyIn] [.succeed, .succeed, .succeed, .succeed, .succeed, .fault]).answers =
      List.replicate (supervisedAccesses .supervised .direct (5 : Word).toNat) .succeed ++ [.fault] :=
  ⟨inv_of_one _ _ (by decide), by decide⟩

theorem witness_StepRunsDecodedCommand :
    (waiting copyIn).agenda = [] ∧ (waiting copyIn).port = ⟨3, encode copyIn⟩ :: [] ∧ (waiting copyIn).hasRoom = true ∧
    decode (encode copyIn) = .command copyIn :=
  ⟨rfl, rfl, hasRoom_of_idle rfl, by decide⟩

theorem witness_StepRunsDecodedCommand_rejected :
    let c : Command := ⟨3, zeroFrame⟩
    let s : State := { State.reset with port := [c] }
    s.agenda = [] ∧ s.port = c :: [] ∧ s.hasRoom = true ∧ decode c.frame = .rejected (.unknownOpcode 0) :=
  ⟨rfl, rfl, hasRoom_of_idle rfl, by decide⟩

theorem witness_FoldResult_PhcResult :
    (0x03000100#32).extractLsb' 24 8 = 3#8 ∧ (0x04FFFFFF#32).extractLsb' 24 8 = 4#8 := by decide

/-- A state in which every context is busy with a FOLD. -/
def crowded : State :=
  { waiting copyIn with contexts := List.replicate (Config.extraContexts + 1) (opened (.fold 1)) }

theorem crowded_has_no_room : crowded.hasRoom = false := by simp [crowded, State.hasRoom]

/-- A step of the engine, and a command offered while every context is busy. -/
theorem witness_OfferedCommandWaits : ∃ t u,
    let offered : State := { crowded with agenda := [.requester (.offer ⟨4, encode (.fold 1)⟩)] }
    crowded.hasRoom = false ∧ step crowded = .next t ∧ offered.hasRoom = false ∧ step offered = .next u := by
  have h := crowded_has_no_room
  have e : step crowded = resume 0 crowded := by
    show (if crowded.hasRoom then _ else resume 0 crowded) = _
    rw [h]
    rfl
  exact ⟨_, _, h, e.trans rfl, h, rfl⟩

theorem witness_OutsideMoves :
    ({ State.reset with agenda := [.requester (.collect 0), .environment (.answer .fault)] } : State).agenda =
      .requester (.collect 0) :: [.environment (.answer .fault)] := rfl

theorem witness_FieldStoredBigEndian :
    let s : State := { holding 0x1000 sampleHeader with agenda := storeField 0x100A 0xB861 }
    s.agenda = storeField 0x100A 0xB861 ∧ s.contexts = [] ∧ (0x100A#32).toNat + 1 < 2 ^ 32 := by decide

theorem witness_OutsideStores :
    (inFlight [copyIn] []).destinationBusy .direct (0x2004#32).toNat = true ∧
    (inFlight [copyIn] []).destinationBusy .direct (0x2005#32).toNat = false ∧
    (inFlight [copyIn] []).destinationBusy .supervised (0x8000#32).toNat = false := by decide

theorem witness_AccResult :
    ViewFits 0xFFFFFFFE 2 (2#32).toNat ∧
    (inFlight [copyIn] []).readsUndisturbed (.acc 0 0x2005 8 8) = true ∧ ViewFits 0x2005 8 (8#32).toNat := by decide

theorem witness_AccInvalidLength : ¬ViewFits 0x1000 4 (5#32).toNat ∧ ¬ViewFits 0xFFFFFFF0 0x20 (0#32).toNat := by decide

theorem witness_AccZeroLength :
    (0xFFFFFFFF#32).toNat + (1#32).toNat ≤ 2 ^ 32 ∧ 2 ^ 32 < (0xFFFFFFFF#32).toNat + (2#32).toNat := by decide

theorem witness_CopyResult :
    let s := supervisedHolding 0x8000 [1, 2, 3, 4, 5] (List.replicate 5 .succeed ++ [.fault])
    ViewFits 0x8000 6 (5#32).toNat ∧ ViewFits 0x2000 8 (5#32).toNat ∧ selfOverlap copyIn = false ∧
    s.disjointFrom copyIn = true ∧
    s.answers = List.replicate (supervisedAccesses .supervised .direct (5#32).toNat) .succeed ++ [.fault] := by decide

theorem witness_WriteBytesReadsBack : 0xFFF < 0x1000 ∧ 0x1000 + ([1, 2] : List Byte).length ≤ 0x1002 := by decide

theorem witness_CopyInvalidLength :
    ¬(ViewFits 0x8000 6 (5#32).toNat ∧ ViewFits 0x2000 4 (5#32).toNat) ∧
    ¬(ViewFits 0xFFFFFFFC 8 (4#32).toNat ∧ ViewFits 0x9000 4 (4#32).toNat) := by decide

theorem witness_CopyZeroLength :
    (ViewFits 0xFFFFFFFF 1 0 ∧ ViewFits 0x9000 0 0) ∧ ¬(ViewFits 0xFFFFFFFF 2 0 ∧ ViewFits 0x9000 0 0) := by decide

/-- The three cases of CopyRefusals, on destinations that meet in their last byte or only touch. -/
theorem witness_CopyRefusals :
    ViewFits 0x1000 8 (4#32).toNat ∧ ViewFits 0x1003 8 (4#32).toNat ∧
    (0x1000 ≤ 0x1003 ∧ 0x1003 < 0x1000 + 4 ∧ 0x1003 ≤ 0x1003 ∧ 0x1003 < 0x1003 + 4) ∧
    refusalOf (exec (.copy .direct .direct 0 0x1000 8 4 0x1003 8) State.reset) = some .overlappingCopy ∧
    refusalOf (exec (.copy .direct .direct 0 0x1000 8 4 0x2004 8) (inFlight [copyIn] [])) = some .busyDestination ∧
    refusalOf (exec (.copy .direct .direct 0 0x1000 8 4 0x2005 8) (inFlight [copyIn] [])) = none ∧
    refusalOf (exec (.copy .direct .direct 0 0x1000 8 4 0x1004 8) (inFlight [copyIn] [])) = none := by decide +kernel

/-- The source of a second COPY is the destination of one that has written its first byte. -/
theorem witness_CopyOverRacingBytes :
    let i : Instr := .copy .direct .direct 0 0x2000 8 5 0x3000 8
    ViewFits 0x2000 8 (5#32).toNat ∧ ViewFits 0x3000 8 (5#32).toNat ∧ selfOverlap i = false ∧
    copyUnderWay.touchesBusy i = false ∧ copyUnderWay.overwritten i = [(0x2000, 0)] ∧
    copyUnderWay.answers = List.replicate (supervisedAccesses .direct .direct (5#32).toNat) .succeed ++ [] := by
  decide +kernel

theorem witness_CopyFaultConfined :
    let s := supervisedHolding 0x8000 [1, 2, 3, 4, 5] [.succeed, .succeed, .succeed, .fault, .succeed]
    s.disjointFrom copyIn = true ∧ 3 < supervisedAccesses .supervised .direct (5#32).toNat ∧
    s.answers = List.replicate 3 .succeed ++ .fault :: [.succeed] := by decide

theorem witness_CopySuspends :
    let s := supervisedHolding 0x8000 [1, 2, 3, 4, 5] [.succeed, .succeed, .succeed, .succeed]
    s.disjointFrom copyIn = true ∧ 4 < supervisedAccesses .supervised .direct (5#32).toNat ∧
    s.answers = List.replicate 4 .succeed := by decide

theorem witness_SuspensionIsInvisible : ∃ t,
    exec copyIn { State.reset with answers := [.succeed] } = .next t ∧
    t.contexts.length = State.reset.contexts.length + 1 :=
  ⟨_, rfl, rfl⟩

theorem witness_CopyFaultNeedsSupervisedFault : ∃ t r,
    exec copyIn { State.reset with answers := [.fault] } = .next t ∧ t.responses = State.reset.responses ++ [r] ∧
    r.r0 = 1 := ⟨_, _, rfl, rfl, rfl⟩

theorem witness_CopyResponds : ∃ t,
    supervisedAccesses .supervised .direct (1#32).toNat ≤ ({ State.reset with answers := [.succeed] } : State).answers.length ∧
    exec (.copy .supervised .direct 0 0x8000 1 1 0x2000 1) { State.reset with answers := [.succeed] } = .next t :=
  ⟨_, by decide, rfl⟩

theorem witness_FoldCorners : (0xFFFFFFFF#32) ≠ 0 ∧ (0xFFFFFFFF#32).toNat % 65535 = 0 := by decide

theorem witness_FastResult :
    5 ≤ (5#16).toNat ∧ (15#16).toNat ≤ 15 ∧ ViewFits 0x1000 20 (4 * (5#16).toNat) ∧ ViewFits 0xFFFFFFC4 60 (4 * (15#16).toNat) ∧
    (0xFFFFFFC4#32).toNat % 4 = 0 ∧ (inFlight [copyIn] []).readsUndisturbed (.fast 5 0x1000 20) = true := by decide

theorem witness_FastErrors :
    (4#16).toNat < 5 ∧ 15 < (16#16).toNat ∧ ¬ViewFits 0x1000 19 (4 * (5#16).toNat) ∧
    (5 ≤ (15#16).toNat ∧ (15#16).toNat ≤ 15 ∧ ViewFits 0x1001 60 (4 * (15#16).toNat) ∧ (0x1001#32).toNat % 4 ≠ 0) := by decide

theorem witness_FastEqualsAccThenFold :
    (20#32).toNat = 4 * (5#16).toNat ∧ ViewFits 0x1000 20 (4 * (5#16).toNat) ∧ (0x1000#32).toNat % 4 = 0 ∧
    (holding 0x1000 sampleHeader).readsUndisturbed (.fast 5 0x1000 20) = true := by decide

/-- ACC and FAST over the destination of a COPY under way. -/
theorem witness_ReadsOverRacingBytes :
    ViewFits 0x2000 20 (20#32).toNat ∧ ViewFits 0x2000 20 (4 * (5#16).toNat) ∧ (0x2000#32).toNat % 4 = 0 ∧
    copyUnderWay.overwritten (.acc 0 0x2000 20 20) = [(0x2000, 0)] ∧
    copyUnderWay.overwritten (.fast 5 0x2000 20) = [(0x2000, 0)] := by decide +kernel

theorem witness_PureCommandsRespondAndWriteNothing (sdom ddom : Domain)
    (seed srcBase srcSize len dstBase dstSize : Word) :
    Instr.fold 0 ≠ .copy sdom ddom seed srcBase srcSize len dstBase dstSize := by simp

/-- COPY answers a next state: with a result, in flight; in flight it is resumed to its next access or takes a step. -/
theorem witness_FrameOfTransactions : ∃ u v w x,
    exec (.copy .direct .direct 0 0x1000 1 1 0x3000 1) (inFlight [copyIn] []) = .next u ∧
    exec (.copy .direct .supervised 0 0x1000 1 1 0x3000 1) (inFlight [copyIn] []) = .next v ∧
    (inFlight [.fold 1, copyIn] [.succeed]).contexts[1]? = some (opened copyIn) ∧
    resume 1 (inFlight [.fold 1, copyIn] [.succeed]) = .next w ∧ tick 1 (inFlight [.fold 1, copyIn] []) = .next x :=
  ⟨_, _, _, _, rfl, rfl, rfl, rfl, rfl⟩

theorem witness_OneResponseOrInFlight : ∃ t u,
    exec (.fold 1) State.reset = .next t ∧ exec copyIn State.reset = .next u := ⟨_, _, rfl, rfl⟩

/-- Two states that differ in what earlier commands left. -/
theorem witness_NoTraceOfEarlierCommands : ∃ t,
    let u : State := { State.reset with responses := [⟨1, 0, 0x906⟩], draws := 7, port := [⟨3, encode copyIn⟩] }
    State.reset.contexts = [] ∧ u.contexts = [] ∧ State.reset.cmd.tid = u.cmd.tid ∧ State.reset.direct = u.direct ∧
    State.reset.supervised = u.supervised ∧ State.reset.answers = u.answers ∧ exec (.fold 1) State.reset = .next t :=
  ⟨_, rfl, rfl, rfl, rfl, rfl, rfl, rfl⟩

/-- A step that changes a byte, by a COPY of the port. -/
theorem witness_OnlyCopyDestinationsChange :
    let s : State := { holding 0x1000 [0xAB] with port := [⟨3, encode (.copy .direct .direct 0 0x1000 1 1 0x2000 1)⟩] }
    ((after s (step s)).mem .direct).read 0x2000 ≠ (s.mem .direct).read 0x2000 := by decide +kernel

theorem witness_FramesCapturedByValue :
    (after (waiting copyIn) (step (waiting copyIn))).contexts.map Context.frame = [encode copyIn] := by decide +kernel

theorem witness_ResponsesCarryTheirTid :
    (after (waiting (.fold 1)) (step (waiting (.fold 1)))).responses.map Response.tid = [3] := by decide +kernel

/-- Micro-steps of each command that go on. -/
theorem witness_PositionAdvances : ∃ c1 s1 c2 s2 c3 s3 c4 s4 c5 s5,
    tickOf (.acc 0 0 1 1) (opened (.acc 0 0 1 1)) State.reset = .busy c1 s1 ∧
    tickOf (.copy .direct .direct 0 0 1 1 2 1) (opened (.copy .direct .direct 0 0 1 1 2 1)) State.reset = .busy c2 s2 ∧
    tickOf (.fold 1) (opened (.fold 1)) State.reset = .busy c3 s3 ∧
    tickOf (.phc 0 0 0 0 0) (opened (.phc 0 0 0 0 0)) State.reset = .busy c4 s4 ∧
    tickOf (.fast 5 0 20) (opened (.fast 5 0 20)) State.reset = .busy c5 s5 :=
  ⟨_, _, _, _, _, _, _, _, _, _, rfl, rfl, rfl, rfl, rfl⟩

/-- Legal transactions with their last byte or word left: ACC, COPY at its read and at its write, FAST. -/
theorem witness_PositionAdvances_bytesLeft :
    let acc : Context := { opened (.acc 0 0xFFFFFFFE 2 2) with pos := 1, holdv := true }
    let copy : Context := { opened copyIn with pos := 4 }
    let fast : Context := { opened (.fast 5 0xFFFFFFEC 20) with pos := 16 }
    contextLegal acc = true ∧ acc.pos.toNat < (2#32).toNat ∧
    contextLegal copy = true ∧ contextLegal { copy with latch := some 0xAB } = true ∧ copy.pos.toNat < (5#32).toNat ∧
    contextLegal fast = true ∧ fast.pos.toNat < 4 * (5#16).toNat := by decide

/-- Both accesses of a COPY granted: the supervised read by an answer, the direct write without one. -/
theorem witness_PositionAdvances_granted : ∃ u,
    (inFlight [copyIn] [.succeed]).ask .supervised = .granted u ∧ State.reset.ask .direct = .granted State.reset :=
  ⟨_, rfl, rfl⟩

theorem witness_ResetAbandons :
    let s : State := { inFlight [copyIn] [] with agenda := [.environment .reset] }
    s.agenda = .environment .reset :: [] ∧
    ∀ c ∈ s.contexts, rangeCovers (destinationOf c.instr) .direct 0x2005 = false := by decide

theorem witness_ResetIsIdle :
    let s : State := holding 0x1000 sampleHeader
    s.agenda = [] ∧ s.port = [] ∧ s.contexts = [] := ⟨rfl, rfl, rfl⟩

theorem witness_EveryStepKeepsInvariant : ∃ t,
    (inFlight [copyIn] [.succeed]).Inv ∧ step (inFlight [copyIn] [.succeed]) = .next t :=
  ⟨_, inv_of_one _ _ (by decide), rfl⟩

theorem witness_NoAddressFault : (inFlight [.fast 15 0xFFFFFFC4 60] []).Inv := inv_of_one _ _ (by decide)

end Sys2Proof.Tests
end

/-! What one step does with the head of the agenda, and the moves of the outside world that only put something in or
take something out (spec/00_scope.md rule R8). -/

namespace Sys2Proof.Machine

/-- A step takes the head of the agenda off and serves it. -/
theorem step_of_agenda_cons {s : State} {e : Event} {rest : List Event} (h : s.agenda = e :: rest) :
    step s = serve e { s with agenda := rest } := by
  unfold step
  rw [h]

/-- R8: an offered command goes behind the waiting ones. -/
@[simp] theorem serve_offer (c : Command) (s : State) :
    serve (.requester (.offer c)) s = .next { s with port := s.port ++ [c] } := rfl

/-- R13: a collected response leaves the list. -/
@[simp] theorem serve_collect (k : Nat) (s : State) :
    serve (.requester (.collect k)) s = .next { s with responses := s.responses.eraseIdx k } := rfl

/-- R40: an answer goes behind the answers already given. -/
@[simp] theorem serve_answer (a : Answer) (s : State) :
    serve (.environment (.answer a)) s = .next { s with answers := s.answers ++ [a] } := rfl

end Sys2Proof.Machine

namespace Sys2Proof.Proofs

open Sys2Proof.Machine

/-- Settles O22: each move is served at the head of the agenda, and serving it updates one list. -/
theorem outsideMoves : Obligations.OutsideMoves := by
  refine ⟨fun s c rest h => ?offer, fun s k rest h => ?collect, fun s a rest h => ?answer⟩
  case offer => rw [step_of_agenda_cons h, serve_offer]
  case collect => rw [step_of_agenda_cons h, serve_collect]
  case answer => rw [step_of_agenda_cons h, serve_answer]

end Sys2Proof.Proofs

namespace Sys2Proof.Machine

/-! ## Everything one step can do -/

/-- Everything a step can do once it has taken the head of the agenda off (R8). -/
inductive Move (s t : State) : Prop where
  | idle (h : t = s)
  | offered (c : Command) (h : t = { s with port := s.port ++ [c] })
  | collected (k : Nat) (h : t = { s with responses := s.responses.eraseIdx k })
  | answered (a : Answer) (h : t = { s with answers := s.answers ++ [a] })
  | stored (d : Domain) (a : Word) (b : Byte) (free : s.destinationBusy d a.toNat = false) (h : t = s.poke d a.toNat b)
  | ran (c : Command) (rest : List Command) (waiting : c ∈ s.port) (room : s.hasRoom = true)
      (h : runCaptured (s.capture c rest) = .next t)
  | admitted (c : Command) (rest : List Command) (waiting : c ∈ s.port) (room : s.hasRoom = true)
      (h : acceptCaptured (s.capture c rest) = .next t)
  | proceeded (k : Nat) (c : Context) (flying : s.contexts[k]? = some c) (h : resume k s = .next t ∨ tick k s = .next t)
  | reset (h : t = s.engineReset)

theorem move_of_resume {s t : State} {k : Nat} (h : resume k s = .next t) : Move s t := by
  cases hk : s.contexts[k]? with
  | none => exact .idle (by simpa [resume, hk] using h.symm)
  | some c => exact .proceeded k c hk (.inl h)

theorem move_of_tick {s t : State} {k : Nat} (h : tick k s = .next t) : Move s t := by
  cases hk : s.contexts[k]? with
  | none => exact .idle (by simpa [tick, hk] using h.symm)
  | some c => exact .proceeded k c hk (.inr h)

theorem move_of_accept {s t : State} {k : Nat} (h : accept k s = .next t) : Move s t := by
  cases hk : s.port[k]? with
  | none => exact .idle (by simpa [accept, hk] using h.symm)
  | some c =>
    simp only [accept, hk] at h
    split at h
    · next room => exact .admitted c _ (List.mem_of_getElem? hk) room h
    · cases h; exact .idle rfl

theorem move_of_advance {s t : State} (h : advance s = .next t) : Move s t := by
  unfold advance at h
  split at h
  · exact move_of_resume h
  · next c rest hp =>
    split at h
    · next room => exact .ran c rest (by simp [hp]) room h
    · exact move_of_resume h

theorem move_of_outsideStore {s t : State} {d : Domain} {a : Word} {b : Byte}
    (h : outsideStore d a b s = .next t) : Move s t := by
  unfold outsideStore at h
  split at h
  · cases h
  · next free => cases h; exact .stored d a b (Bool.eq_false_iff.mpr free) rfl

theorem move_of_serve {s t : State} {e : Event} (h : serve e s = .next t) : Move s t := by
  cases e with
  | engine => exact move_of_advance h
  | requester m =>
    cases m with
    | offer c => cases h; exact .offered c rfl
    | collect k => cases h; exact .collected k rfl
    | store d a b => exact move_of_outsideStore h
  | environment m =>
    cases m with
    | answer a => cases h; exact .answered a rfl
    | store d a b => exact move_of_outsideStore h
    | accept k => exact move_of_accept h
    | tick k => exact move_of_tick h
    | resume k => exact move_of_resume h
    | reset => cases h; exact .reset rfl

/-- A step takes the head of the agenda off, if there is one, and makes a move. -/
theorem move_of_step {s t : State} (h : step s = .next t) : Move { s with agenda := s.agenda.tail } t := by
  unfold step at h
  split at h
  · next ha =>
    have hs : { s with agenda := s.agenda.tail } = s := by
      obtain ⟨cmd, port, contexts, responses, direct, supervised, answers, agenda, draws⟩ := s
      cases ha
      rfl
    rw [hs]
    exact move_of_advance h
  · next e rest ha =>
    rw [ha]
    exact move_of_serve h

/-! ## Capturing a command -/

/-- What gate has done when it answers a next state. -/
theorem gate_next {check : Option Status} {i : Instr} {s t : State}
    {go : Context → State → Host.Outcome State Fault Refusal} (h : gate check i s go = .next t) :
    (∃ st, check = some st ∧ t = s.raise s.cmd.tid st) ∨
    (check = none ∧ selfOverlap i = false ∧ s.touchesBusy i = false ∧ go (s.newContext i) s.draw = .next t) := by
  rcases gate_cases check i s go with ⟨st, hc, e⟩ | ⟨_, _, e⟩ | ⟨_, _, _, e⟩ | ⟨hc, ho, hb, e⟩ <;> rw [e] at h
  · cases h; exact .inl ⟨st, hc, rfl⟩
  · cases h
  · cases h
  · exact .inr ⟨hc, ho, hb, h⟩

/-- The captured frame decodes to a command that gate lets through (R58, R105, R146). -/
structure Admits (s : State) (i : Instr) : Prop where
  decoded : decode s.cmd.frame = .command i
  checked : checkOf i = none
  apart : selfOverlap i = false
  free : s.touchesBusy i = false

/-- A command that gate lets through runs from its first register writes. -/
theorem Admits.runCaptured_eq {s : State} {i : Instr} (h : Admits s i) :
    runCaptured s = drive (tickOf i) (stepsOf i) (startOf i (s.newContext i)) s.draw := by
  simp only [runCaptured, h.decoded, exec_eq_gate, gate, h.checked, h.apart, h.free]
  rfl

/-- Running what was captured ends at once with an error, or runs the command. -/
theorem runCaptured_next {s t : State} (h : runCaptured s = .next t) :
    (∃ st, t = s.raise s.cmd.tid st) ∨
    ∃ i, Admits s i ∧ drive (tickOf i) (stepsOf i) (startOf i (s.newContext i)) s.draw = .next t := by
  unfold runCaptured at h
  split at h
  · next i hdec =>
    rw [exec_eq_gate] at h
    rcases gate_next h with ⟨st, _, e⟩ | ⟨hc, ho, hb, hrun⟩
    · exact .inl ⟨st, e⟩
    · exact .inr ⟨i, ⟨hdec, hc, ho, hb⟩, hrun⟩
  · cases h; exact .inl ⟨_, rfl⟩

/-- Accepting what was captured ends at once with an error, or puts the opened transaction behind the others. -/
theorem acceptCaptured_next {s t : State} (h : acceptCaptured s = .next t) :
    (∃ st, t = s.raise s.cmd.tid st) ∨ ∃ i, Admits s i ∧ t = s.draw.park (startOf i (s.newContext i)) := by
  unfold acceptCaptured at h
  split at h
  · next i hdec =>
    rcases gate_next h with ⟨st, _, e⟩ | ⟨hc, ho, hb, hpark⟩
    · exact .inl ⟨st, e⟩
    · cases hpark; exact .inr ⟨i, ⟨hdec, hc, ho, hb⟩, rfl⟩
  · cases h; exact .inl ⟨_, rfl⟩

/-! ## Predicates kept by a run -/

/-- What holds of the transaction and the state a micro-step leads to: `P` while it goes on, `Q` when it has ended. -/
def Progress.All (P : Context → State → Prop) (Q : State → Prop) : Progress → Prop
  | .busy c t => P c t
  | .waiting c t => P c t
  | .returned _ t => Q t
  | .raised _ t => Q t
  | .stopped _ => True

theorem all_atAddress {P : Context → State → Prop} {Q : State → Prop} {a : Nat} {p : Progress}
    (h : a < addressSpace → p.All P Q) : (atAddress a p).All P Q := by
  rcases atAddress_cases a p with ⟨ha, e⟩ | ⟨_, e⟩ <;> rw [e]
  · exact h ha
  · trivial

section Runs
variable {P : Context → State → Prop} {Q R : State → Prop} (hpark : ∀ c s, P c s → R (s.park c))
  (hrespond : ∀ s tid st v, Q s → R (s.respond tid st v)) (hdraw : ∀ s, R s → R s.draw)
include hpark hrespond hdraw

/-- What every micro-step keeps gives what holds of the state in which a run stops. -/
theorem drive_all {f : Context → State → Progress} (hf : ∀ c s, P c s → (f c s).All P Q) (n : Nat) {c : Context}
    {s t : State} (h0 : P c s) (h : drive f n c s = .next t) : R t := by
  have lead {c : Context} {s : State} {p : Progress} (hP : P c s) (e : f c s = p) : p.All P Q := e ▸ hf c s hP
  exact drive_induct P R (fun _ _ _ _ hP e => lead hP e) hpark (fun _ _ _ _ hP e => hpark _ _ (lead hP e))
    (fun _ _ _ _ hP e => hrespond _ _ _ _ (lead hP e)) (fun _ _ _ _ hP e => hdraw _ (hrespond _ _ _ _ (lead hP e)))
    n h0 h

/-- The same for one micro-step taken alone. -/
theorem settle_all {p : Progress} (hp : p.All P Q) {tid : Tid} {t : State} (h : settle tid p = .next t) : R t := by
  cases p with
  | busy c s => cases h; exact hpark c s hp
  | waiting c s => cases h; exact hpark c s hp
  | returned v s => cases h; exact hrespond s _ _ _ hp
  | raised st s => cases h; exact hdraw _ (hrespond s _ _ _ hp)
  | stopped r => cases h

end Runs

/-! ## The invariant in three parts -/

/-- Both memories are in canonical form. -/
def State.MemWf (s : State) : Prop := ∀ d, (s.mem d).wf = true

/-- What the invariant says of the transactions in flight. -/
structure ContextsLegal (l : List Context) : Prop where
  room : l.length ≤ Config.contextCount
  legal : ∀ c ∈ l, contextLegal c = true
  apart : l.Pairwise (fun c d => destinationsMeet c.instr d.instr = false)

theorem inv_iff (s : State) :
    s.Inv ↔ s.MemWf ∧ ContextsLegal s.contexts ∧ ∀ r ∈ s.responses, responseLegal r = true := by
  constructor
  · intro h
    refine ⟨fun d => ?_, ⟨h.room, h.contexts_legal, h.destinations_apart⟩, h.responses_legal⟩
    cases d
    · exact h.direct_wf
    · exact h.supervised_wf
  · rintro ⟨hmem, hctx, hresp⟩
    exact ⟨hmem .direct, hmem .supervised, hctx.room, hctx.legal, hctx.apart, hresp⟩

theorem State.Inv.memWf {s : State} (h : s.Inv) : s.MemWf := ((inv_iff s).mp h).1

/-- The invariant speaks of the two memories, the transactions in flight and the responses only. -/
theorem State.Inv.congr {s t : State} (h : s.Inv) (hmem : ∀ d, t.mem d = s.mem d) (hctx : t.contexts = s.contexts)
    (hresp : t.responses = s.responses) : t.Inv := by
  rw [inv_iff] at h ⊢
  obtain ⟨hm, hc, hr⟩ := h
  exact ⟨fun d => by rw [hmem]; exact hm d, by rwa [hctx], by rwa [hresp]⟩

/-! ### The transactions in flight -/

theorem ByteRange.meets_comm (r q : ByteRange) : r.meets q = q.meets r := by
  rw [Bool.eq_iff_iff]
  simp only [ByteRange.meets, Bool.and_eq_true, decide_eq_true_eq]
  constructor <;> (rintro ⟨⟨⟨⟨h1, h2⟩, h3⟩, h4⟩, h5⟩; exact ⟨⟨⟨⟨h1.symm, h3⟩, h2⟩, h5⟩, h4⟩)

theorem destinationsMeet_comm (i j : Instr) : destinationsMeet i j = destinationsMeet j i := by
  unfold destinationsMeet
  cases destinationOf i <;> cases destinationOf j <;> simp [rangesMeet, ByteRange.meets_comm]

theorem ContextsLegal.sublist {l m : List Context} (h : ContextsLegal m) (hl : l.Sublist m) : ContextsLegal l :=
  ⟨hl.length_le.trans h.room, fun c hc => h.legal c (hl.subset hc), h.apart.sublist hl⟩

theorem ContextsLegal.perm {l m : List Context} (h : ContextsLegal m) (hl : l.Perm m) : ContextsLegal l :=
  ⟨hl.length_eq ▸ h.room, fun c hc => h.legal c (hl.subset hc),
   (hl.pairwise_iff (fun hcd => by rwa [destinationsMeet_comm])).mpr h.apart⟩

/-- A transaction in the place of another: the same command, and legal if the other is. -/
def Succeeds (c d : Context) : Prop := c.instr = d.instr ∧ (contextLegal d = true → contextLegal c = true)

theorem sameIdentity_of_same {c d : Context} (h : SameTransaction c d) : SameIdentity c d := by
  obtain ⟨htid, hframe, hinstr, _⟩ := Context.mk.inj h
  exact ⟨htid, hframe, hinstr⟩

/-- Notes of racing bytes count for nothing in whether a transaction is legal. -/
theorem succeeds_of_same {c d : Context} (h : SameTransaction c d) : Succeeds c d := by
  have hl : contextLegal { c with stale := [] } = contextLegal { d with stale := [] } := congrArg contextLegal h
  obtain ⟨_, _, hinstr⟩ := sameIdentity_of_same h
  exact ⟨hinstr, fun hd => hl.trans hd⟩

theorem exists_of_mem_left {r : Context → Context → Prop} {l m : List Context} (h : List.Forall₂ r l m) {c : Context}
    (hc : c ∈ l) : ∃ d ∈ m, r c d := by
  induction h with
  | nil => cases hc
  | cons hr _ ih =>
    rcases List.mem_cons.mp hc with rfl | hc
    · exact ⟨_, List.mem_cons_self, hr⟩
    · obtain ⟨d, hd, hcd⟩ := ih hc
      exact ⟨d, List.mem_cons_of_mem _ hd, hcd⟩

theorem ContextsLegal.succeed {l m : List Context} (h : ContextsLegal m) (hl : List.Forall₂ Succeeds l m) :
    ContextsLegal l := by
  refine ⟨hl.length_eq ▸ h.room, fun c hc => ?legal, ?apart⟩
  case legal =>
    obtain ⟨d, hd, _, hlegal⟩ := exists_of_mem_left hl hc
    exact hlegal (h.legal d hd)
  case apart =>
    have hinstr : l.map Context.instr = m.map Context.instr := by
      rw [← List.forall₂_eq_eq_eq, List.forall₂_map_left_iff, List.forall₂_map_right_iff]
      exact hl.imp fun _ _ hcd => hcd.1
    have hm := h.apart
    rw [← List.pairwise_map (f := Context.instr) (R := fun i j => destinationsMeet i j = false)] at hm ⊢
    rwa [hinstr]

theorem ContextsLegal.append {l : List Context} {c : Context} (h : ContextsLegal l)
    (room : l.length ≤ Config.extraContexts) (legal : contextLegal c = true)
    (apart : ∀ d ∈ l, destinationsMeet c.instr d.instr = false) : ContextsLegal (l ++ [c]) := by
  refine ⟨by simpa [Config.contextCount] using room, fun d hd => ?legal, ?apart⟩
  case legal =>
    rcases List.mem_append.mp hd with hd | hd
    · exact h.legal d hd
    · rw [List.mem_singleton.mp hd]; exact legal
  case apart =>
    refine List.pairwise_append.mpr ⟨h.apart, List.pairwise_singleton _ _, fun d hd e he => ?_⟩
    rw [List.mem_singleton.mp he, destinationsMeet_comm]
    exact apart d hd

/-! ### The memories -/

theorem memWf_poke {s : State} {d : Domain} {a : Nat} (v : Byte) (ha : a < addressSpace) (h : s.MemWf) :
    (s.poke d a v).MemWf := fun e => poke_wf v ha h e

theorem memWf_congr {s t : State} (hmem : ∀ d, t.mem d = s.mem d) (h : s.MemWf) : t.MemWf :=
  fun d => by rw [hmem]; exact h d

theorem memWf_scramble {s : State} {d : Domain} {a n : Nat} (hr : a + n ≤ addressSpace) (h : s.MemWf) :
    (s.scramble d a n).MemWf :=
  scramble_induct d n (fun _ _ v _ hb ht => memWf_poke v (by omega) ht)
    (fun _ ht => memWf_congr (draw_mem _) ht) h

theorem memWf_granted {s t : State} {d : Domain} (h : s.ask d = .granted t) (hs : s.MemWf) : t.MemWf := by
  obtain ⟨_, _, e, _⟩ := ask_granted h
  exact memWf_congr (fun d => by rw [e]; cases d <;> rfl) hs

theorem memWf_faulted {s t : State} {d : Domain} (h : s.ask d = .faulted t) (hs : s.MemWf) : t.MemWf := by
  obtain ⟨_, _, e⟩ := ask_faulted h
  exact memWf_congr (fun d => by rw [e]; cases d <;> rfl) hs

/-! ### What the checks of a command give -/

/-- A view that passes its checks ends inside the address space (R37). -/
theorem view_fits {base size : Word} {n : Nat} (h : viewInvalid base size n = false) :
    base.toNat + n ≤ addressSpace := by
  simp only [viewInvalid, Bool.or_eq_false_iff, decide_eq_false_iff_not] at h
  omega

theorem accCheck_eq_none {base size len : Word} :
    accCheck base size len = none ↔ viewInvalid base size len.toNat = false := by simp [accCheck]

theorem copyCheck_eq_none {srcBase srcSize len dstBase dstSize : Word} :
    copyCheck srcBase srcSize len dstBase dstSize = none ↔
      viewInvalid srcBase srcSize len.toNat = false ∧ viewInvalid dstBase dstSize len.toNat = false := by
  unfold copyCheck
  cases viewInvalid srcBase srcSize len.toNat <;> cases viewInvalid dstBase dstSize len.toNat <;> simp

theorem fastCheck_eq_none {words : Half} {base size : Word} :
    fastCheck words base size = none ↔ wordCountInvalid words = false ∧ viewInvalid base size (fastBytes words) = false ∧
      alignmentInvalid Config.fastUnaligned base = false := by
  unfold fastCheck
  cases wordCountInvalid words <;> cases viewInvalid base size (fastBytes words) <;>
    cases alignmentInvalid Config.fastUnaligned base <;> simp

/-- The checks of a command keep its source inside the address space (R37). -/
theorem source_fits {i : Instr} {r : ByteRange} (hc : checkOf i = none) (hr : sourceOf i = some r) :
    r.base + r.len ≤ addressSpace := by
  cases i with
  | acc => cases hr; exact view_fits (accCheck_eq_none.mp hc)
  | copy => cases hr; exact view_fits (copyCheck_eq_none.mp hc).1
  | fold => cases hr
  | phc => cases hr
  | fast => cases hr; exact view_fits (fastCheck_eq_none.mp hc).2.1

/-- The checks of a command keep its destination inside the address space (R37). -/
theorem destination_fits {i : Instr} {r : ByteRange} (hc : checkOf i = none) (hr : destinationOf i = some r) :
    r.base + r.len ≤ addressSpace := by
  cases i with
  | copy => cases hr; exact view_fits (copyCheck_eq_none.mp hc).2
  | _ => cases hr

/-! ### The registers after a micro-step -/

/-- POS counts on without wrapping while bytes are left (R14). -/
theorem toNat_add_one {p len : Word} (h : p.toNat < len.toNat) : (p + 1).toNat = p.toNat + 1 := by
  have := len.isLt
  simp [BitVec.toNat_add]
  omega

/-- POS counts on without wrapping while words are left (R130). -/
theorem toNat_add_four {p : Word} {words : Half} (h : p.toNat < fastBytes words) : (p + 4).toNat = p.toNat + 4 := by
  have := words.isLt
  simp only [fastBytes] at h
  simp [BitVec.toNat_add]
  omega

theorem byteLoopLegal_iff (c : Context) (len : Word) :
    byteLoopLegal c len = true ↔
      c.pos.toNat ≤ len.toNat ∧ c.holdv = decide (c.pos.toNat % 2 = 1) ∧ c.phase = .gather := by
  simp [byteLoopLegal, and_assoc]

/-- A byte that enters the sum keeps POS and HOLDV in step (R14, R74). -/
theorem byteLoopLegal_feed {c : Context} {len : Word} (x : Byte) (h : byteLoopLegal c len = true)
    (hp : c.pos.toNat < len.toNat) : byteLoopLegal (c.feed x) len = true := by
  rw [byteLoopLegal_iff] at h ⊢
  obtain ⟨_, hv, hph⟩ := h
  rw [feed_pos, feed_holdv, feed_phase, toNat_add_one hp, hv, Bool.eq_iff_iff]
  exact ⟨hp, by simp; omega, hph⟩

section Registers
variable {c : Context}

theorem registersLegal_acc {seed base size len : Word} (hi : c.instr = .acc seed base size len) :
    registersLegal c = true ↔ byteLoopLegal c len = true ∧ c.latch = none := by
  simp [registersLegal, hi]

theorem registersLegal_copy {sdom ddom : Domain} {seed srcBase srcSize len dstBase dstSize : Word}
    (hi : c.instr = .copy sdom ddom seed srcBase srcSize len dstBase dstSize) :
    registersLegal c = true ↔ byteLoopLegal c len = true ∧ (c.latch = none ∨ c.pos.toNat < len.toNat) := by
  simp [registersLegal, hi]

theorem registersLegal_fold {sum : Word} (hi : c.instr = .fold sum) :
    registersLegal c = true ↔ c.phase ≠ .gather ∧ c.sum = sum ∧ pipelineLegal c = true ∧ c.latch = none := by
  simp [registersLegal, hi, and_assoc]

theorem registersLegal_phc {proto : Byte} {len16 : Half} {sum saddr daddr : Word}
    (hi : c.instr = .phc proto len16 sum saddr daddr) :
    registersLegal c = true ↔
      c.sum = (if c.phase = .gather then sum else phcSum proto len16 sum saddr daddr) ∧ pipelineLegal c = true ∧
        c.latch = none := by
  simp [registersLegal, hi, and_assoc]

theorem registersLegal_fast {words : Half} {base size : Word} (hi : c.instr = .fast words base size) :
    registersLegal c = true ↔
      c.pos.toNat ≤ fastBytes words ∧ c.pos.toNat % 4 = 0 ∧ (c.phase = .gather ∨ c.pos.toNat = fastBytes words) ∧
        pipelineLegal c = true ∧ c.latch = none := by
  simp [registersLegal, hi, and_assoc]

end Registers

/-- The first register writes of a command make a new transaction legal in its registers. -/
theorem registersLegal_startOf {i : Instr} {c : Context} (hi : c.instr = i) (hp : c.phase = .gather)
    (hl : c.latch = none) : registersLegal (startOf i c) = true := by
  cases i <;>
    simp [registersLegal, startOf, accStart, copyStart, foldStart, phcStart, fastStart, byteLoopLegal, pipelineLegal,
      hi, hp, hl]

section Ticks
variable {c : Context} {s : State}

/-- The stages of the pipeline keep what they have computed so far (R112). -/
theorem all_foldPipeline {P : Context → State → Prop} {Q : State → Prop} (hl : pipelineLegal c = true)
    (hP : ∀ t1 t2 p, p ≠ .gather → pipelineLegal { c with t1 := t1, t2 := t2, phase := p } = true →
      P { c with t1 := t1, t2 := t2, phase := p } s) (hQ : Q s) : (foldPipeline c s).All P Q := by
  rcases foldPipeline_cases c s with ⟨_, e⟩ | ⟨_, e⟩ | ⟨hp, e⟩ | ⟨_, e⟩ <;> rw [e]
  · exact hP c.t1 c.t2 .stage1 (by simp) (by simp [pipelineLegal])
  · exact hP (foldStage1 c.sum) c.t2 .stage2 (by simp) (by simp [pipelineLegal])
  · exact hP c.t1 (foldStage2 c.t1) .output (by simp) (by simpa [pipelineLegal, hp] using hl)
  · exact hQ

/-- A transaction with legal registers over memories in canonical form. -/
def Sound (c : Context) (s : State) : Prop := registersLegal c = true ∧ s.MemWf

theorem sound_accTick {seed base size len : Word} (hi : c.instr = .acc seed base size len) (h : Sound c s) :
    (accTick base len c s).All Sound State.MemWf := by
  obtain ⟨hr, hs⟩ := h
  obtain ⟨hloop, hlatch⟩ := (registersLegal_acc hi).mp hr
  unfold accTick
  split
  · next hp =>
    refine all_atAddress fun _ => ⟨?_, memWf_congr (by simp) hs⟩
    exact (registersLegal_acc (by simpa using hi)).mpr ⟨byteLoopLegal_feed _ hloop hp, by simpa using hlatch⟩
  · exact hs

theorem sound_copyTick {sdom ddom : Domain} {seed srcBase srcSize len dstBase dstSize : Word}
    (hi : c.instr = .copy sdom ddom seed srcBase srcSize len dstBase dstSize) (hc : checkOf c.instr = none)
    (h : Sound c s) : (copyTick sdom ddom srcBase len dstBase c s).All Sound State.MemWf := by
  obtain ⟨hr, hs⟩ := h
  have hfits := destination_fits hc (r := ⟨ddom, dstBase.toNat, len.toNat⟩) (by rw [hi]; rfl)
  have hloop := ((registersLegal_copy hi).mp hr).1
  unfold copyTick
  simp only
  split
  next hp =>
    split
    · unfold copyRead
      split
      · exact ⟨hr, hs⟩
      · next e => exact memWf_scramble hfits (memWf_faulted e hs)
      · next e =>
        refine all_atAddress fun _ => ⟨?_, memWf_congr (by simp) (memWf_granted e hs)⟩
        exact (registersLegal_copy (by exact hi)).mpr ⟨hloop, .inr hp⟩
    · unfold copyWrite
      split
      · exact ⟨hr, hs⟩
      · next e => exact memWf_scramble hfits (memWf_faulted e hs)
      · next e =>
        refine all_atAddress fun ha => ⟨?_, memWf_poke _ ha (memWf_granted e hs)⟩
        exact (registersLegal_copy (by simpa using hi)).mpr ⟨byteLoopLegal_feed _ hloop hp, .inl rfl⟩
  next => exact hs

theorem sound_foldTick {sum : Word} (hi : c.instr = .fold sum) (h : Sound c s) :
    (foldTick c s).All Sound State.MemWf := by
  obtain ⟨hr, hs⟩ := h
  obtain ⟨_, hsum, hpipe, hlatch⟩ := (registersLegal_fold hi).mp hr
  refine all_foldPipeline hpipe (fun t1 t2 p hp hl => ⟨?_, hs⟩) hs
  exact (registersLegal_fold (by exact hi)).mpr ⟨hp, hsum, hl, hlatch⟩

theorem sound_phcTick {proto : Byte} {len16 : Half} {sum saddr daddr : Word}
    (hi : c.instr = .phc proto len16 sum saddr daddr) (h : Sound c s) :
    (phcTick proto len16 saddr daddr c s).All Sound State.MemWf := by
  obtain ⟨hr, hs⟩ := h
  obtain ⟨hsum, hpipe, hlatch⟩ := (registersLegal_phc hi).mp hr
  unfold phcTick
  split
  · next hp =>
    rw [if_pos hp] at hsum
    exact ⟨(registersLegal_phc (by exact hi)).mpr ⟨by simp [hsum], rfl, hlatch⟩, hs⟩
  · next hp =>
    rw [if_neg hp] at hsum
    refine all_foldPipeline hpipe (fun t1 t2 p hp hl => ⟨?_, hs⟩) hs
    exact (registersLegal_phc (by exact hi)).mpr ⟨by simpa [hp] using hsum, hl, hlatch⟩

theorem sound_fastTick {words : Half} {base size : Word} (hi : c.instr = .fast words base size) (h : Sound c s) :
    (fastTick words base c s).All Sound State.MemWf := by
  obtain ⟨hr, hs⟩ := h
  obtain ⟨hle, hmod, hphase, hpipe, hlatch⟩ := (registersLegal_fast hi).mp hr
  have hstages (hdone : c.pos.toNat = fastBytes words) : (foldPipeline c s).All Sound State.MemWf := by
    refine all_foldPipeline hpipe (fun t1 t2 p _ hl => ⟨?_, hs⟩) hs
    exact (registersLegal_fast (by exact hi)).mpr ⟨hle, hmod, .inr hdone, hl, hlatch⟩
  unfold fastTick
  split
  · next hp =>
    split
    · next hlt =>
      refine all_atAddress fun _ => ⟨?_, memWf_congr (by simp [afterFastWord]) hs⟩
      have hbytes : fastBytes words % 4 = 0 := Nat.mul_mod_right 4 _
      refine (registersLegal_fast (by exact hi)).mpr ⟨?_, ?_, .inl hp, by simp [pipelineLegal, hp], hlatch⟩
      · rw [toNat_add_four hlt]
        omega
      · rw [toNat_add_four hlt]
        omega
    · exact hstages (by omega)
  · next hp => exact hstages (hphase.resolve_left hp)

/-- Every micro-step of a command that passed its checks keeps the registers legal and the memories canonical. -/
theorem sound_tickOf (hc : checkOf c.instr = none) (h : Sound c s) :
    (tickOf c.instr c s).All Sound State.MemWf := by
  cases hi : c.instr with
  | acc => exact sound_accTick hi h
  | copy => exact sound_copyTick hi hc h
  | fold => exact sound_foldTick hi h
  | phc => exact sound_phcTick hi h
  | fast => exact sound_fastTick hi h

end Ticks

/-! ### What keeps the invariant -/

theorem contextLegal_iff (c : Context) :
    contextLegal c = true ↔ decode c.frame = .command c.instr ∧ checkOf c.instr = none ∧ selfOverlap c.instr = false ∧
      registersLegal c = true := by
  simp [contextLegal, and_assoc]

theorem State.Inv.capture {s : State} (h : s.Inv) (c : Command) (rest : List Command) : (s.capture c rest).Inv :=
  h.congr (by simp) rfl rfl

theorem inv_draw {s : State} (h : s.Inv) : s.draw.Inv := h.congr (by simp) rfl rfl

/-- Each of the five codes is a legal STATUS (R56). -/
theorem code_le_four (st : Status) : decide (st.code.toNat ≤ 4) = true := by cases st <;> rfl

theorem inv_respond {s : State} (tid : Tid) (st : Status) (v : Word) (h : s.Inv) : (s.respond tid st v).Inv := by
  rw [inv_iff] at h ⊢
  obtain ⟨hm, hc, hr⟩ := h
  refine ⟨memWf_congr (by simp) hm, hc, fun r hmem => ?_⟩
  rcases List.mem_append.mp hmem with hmem | hmem
  · exact hr r hmem
  · rw [List.mem_singleton.mp hmem]
    exact code_le_four st

theorem inv_raise {s : State} (tid : Tid) (st : Status) (h : s.Inv) : (s.raise tid st).Inv :=
  inv_draw (inv_respond tid st _ h)

/-- Micro-steps and stores leave the other transactions but for their notes, so they keep the invariant where they keep
the memories canonical. -/
theorem State.Inv.of_touches {dest : Option ByteRange} {s t : State} (h : s.Inv) (ht : Touches dest s t)
    (hm : t.MemWf) : t.Inv := by
  rw [inv_iff] at h ⊢
  obtain ⟨_, hc, hr⟩ := h
  exact ⟨hm, hc.succeed (ht.contexts.imp fun _ _ => succeeds_of_same), ht.responses ▸ hr⟩

/-- A transaction in flight that has ended leaves a state with the invariant. -/
theorem State.Inv.unpark {s : State} {c : Context} (h : (s.park c).Inv) : s.Inv := by
  rw [inv_iff] at h ⊢
  obtain ⟨hm, hc, hr⟩ := h
  exact ⟨memWf_congr (by simp) hm, hc.sublist (List.sublist_append_left _ _), hr⟩

/-- A transaction in flight that proceeds is put in again in a state with the invariant. -/
theorem State.Inv.repark {dest : Option ByteRange} {s t : State} {c c' : Context} (h : (s.park c).Inv)
    (ht : Touches dest s t) (hm : t.MemWf) (hs : Succeeds c' c) : (t.park c').Inv := by
  rw [inv_iff] at h ⊢
  obtain ⟨_, hc, hr⟩ := h
  refine ⟨memWf_congr (by simp) hm, hc.succeed ?_, ht.responses ▸ hr⟩
  exact List.rel_append (ht.contexts.imp fun _ _ => succeeds_of_same) (.cons hs .nil)

/-- The invariant with one transaction of a command taken out to proceed. -/
def Flying (i : Instr) (c : Context) (s : State) : Prop := c.instr = i ∧ (s.park c).Inv

/-- Every micro-step keeps the invariant. -/
theorem flying_tickOf (i : Instr) (c : Context) (s : State) (h : Flying i c s) :
    (tickOf i c s).All (Flying i) State.Inv := by
  obtain ⟨rfl, hinv⟩ := h
  obtain ⟨hdec, hchk, hov, hreg⟩ := (contextLegal_iff c).mp (hinv.contexts_legal c (by simp))
  have hmem : s.MemWf := hinv.unpark.memWf
  have hsound := sound_tickOf hchk ⟨hreg, hmem⟩
  have hwithin := within_tickOf c.instr c s
  cases e : tickOf c.instr c s with
  | busy c' t =>
    rw [e] at hsound hwithin
    obtain ⟨hreg', hm⟩ := hsound
    obtain ⟨⟨_, hframe, hinstr⟩, ht⟩ := hwithin
    refine ⟨hinstr, hinv.repark ht hm ⟨hinstr, fun _ => (contextLegal_iff c').mpr ?_⟩⟩
    rw [hframe, hinstr]
    exact ⟨hdec, hchk, hov, hreg'⟩
  | waiting c' t =>
    rw [e] at hwithin
    obtain ⟨rfl, rfl, _⟩ := hwithin
    exact ⟨rfl, hinv⟩
  | returned v t =>
    rw [e] at hsound hwithin
    exact hinv.unpark.of_touches hwithin hsound
  | raised st t =>
    rw [e] at hsound hwithin
    exact hinv.unpark.of_touches hwithin.2.1 hsound
  | stopped r => trivial

theorem drive_keeps_inv {i : Instr} {n : Nat} {c : Context} {s t : State} (h : Flying i c s)
    (hd : drive (tickOf i) n c s = .next t) : t.Inv :=
  drive_all (fun _ _ h => h.2) (fun _ _ _ _ => inv_respond _ _ _) (fun _ => inv_draw) (flying_tickOf i) n h hd

/-- A command that gate lets through opens a legal transaction in a free context (R11, R153). -/
theorem inv_open {i : Instr} {s : State} (h : s.Inv) (room : s.hasRoom = true) (ha : Admits s i) :
    (s.draw.park (startOf i (s.newContext i))).Inv := by
  rw [inv_iff] at h ⊢
  obtain ⟨hm, hc, hr⟩ := h
  obtain ⟨_, hframe, hinstr⟩ := startOf_identity i (s.newContext i)
  refine ⟨memWf_congr (by simp) hm, hc.append (of_decide_eq_true room) ((contextLegal_iff _).mpr ?legal) ?apart, hr⟩
  case legal =>
    rw [hframe, hinstr]
    exact ⟨ha.decoded, ha.checked, ha.apart, registersLegal_startOf rfl rfl rfl⟩
  case apart =>
    rw [hinstr]
    simpa [State.touchesBusy] using ha.free

theorem inv_runCaptured {s t : State} (h : s.Inv) (room : s.hasRoom = true) (he : runCaptured s = .next t) : t.Inv := by
  rcases runCaptured_next he with ⟨st, rfl⟩ | ⟨i, ha, hrun⟩
  · exact inv_raise _ _ h
  · exact drive_keeps_inv ⟨(startOf_identity i (s.newContext i)).2.2, inv_open h room ha⟩ hrun

theorem inv_acceptCaptured {s t : State} (h : s.Inv) (room : s.hasRoom = true) (he : acceptCaptured s = .next t) :
    t.Inv := by
  rcases acceptCaptured_next he with ⟨st, rfl⟩ | ⟨i, ha, rfl⟩
  · exact inv_raise _ _ h
  · exact inv_open h room ha

/-- Taking a transaction in flight out and putting it behind the others keeps the invariant. -/
theorem inv_without_park {s : State} {k : Nat} {c : Context} (h : s.Inv) (hk : s.contexts[k]? = some c) :
    ((s.without k).park c).Inv := by
  obtain ⟨hlt, rfl⟩ := List.getElem?_eq_some_iff.mp hk
  rw [inv_iff] at h ⊢
  obtain ⟨hm, hc, hr⟩ := h
  refine ⟨memWf_congr (by simp) hm, hc.perm ?_, hr⟩
  exact (List.perm_append_singleton _ _).trans (List.getElem_cons_eraseIdx_perm hlt)

theorem inv_proceed {s t : State} {k : Nat} {c : Context} (h : s.Inv) (hk : s.contexts[k]? = some c)
    (he : resume k s = .next t ∨ tick k s = .next t) : t.Inv := by
  have hout := inv_without_park h hk
  rcases he with he | he
  · simp only [resume, hk] at he
    exact drive_keeps_inv ⟨rfl, hout⟩ he
  · simp only [tick, hk] at he
    exact settle_all (fun _ _ h => h.2) (fun _ _ _ _ => inv_respond _ _ _) (fun _ => inv_draw)
      (flying_tickOf c.instr c _ ⟨rfl, hout⟩) he

theorem inv_poke {s : State} (d : Domain) (a : Word) (b : Byte) (h : s.Inv) : (s.poke d a.toNat b).Inv := by
  have ht : Touches (some ⟨d, a.toNat, 1⟩) s (s.poke d a.toNat b) := touches_poke b (by simp [ByteRange.covers])
  exact h.of_touches ht (memWf_poke b a.isLt h.memWf)

/-! ### Reset -/

theorem touches_abandon (s : State) (c : Context) : Touches (destinationOf c.instr) s (s.abandon c) := by
  unfold State.abandon
  cases destinationOf c.instr with
  | none => exact Touches.refl _ s
  | some r => exact touches_scramble s r.dom r.base r.len

/-- What abandoning a transaction keeps holds after reset. -/
theorem engineReset_induct {P : State → Prop} {s : State}
    (h0 : P { s with contexts := [], responses := [], cmd := Command.atReset })
    (h : ∀ c ∈ s.contexts, ∀ t, P t → P (t.abandon c)) : P s.engineReset :=
  List.foldlRecOn s.contexts State.abandon h0 (fun t ht c hc => h c hc t ht)

@[simp] theorem engineReset_contexts (s : State) : s.engineReset.contexts = [] := by
  refine engineReset_induct (P := (·.contexts = [])) rfl (fun c _ t ht => ?_)
  have hkept := (touches_abandon t c).contexts
  rwa [ht, List.forall₂_nil_right_iff] at hkept

theorem inv_abandon {s : State} {c : Context} (hc : contextLegal c = true) (h : s.Inv) : (s.abandon c).Inv := by
  refine h.of_touches (touches_abandon s c) ?_
  have hm := h.memWf
  obtain ⟨_, hchk, _⟩ := (contextLegal_iff c).mp hc
  unfold State.abandon
  cases hr : destinationOf c.instr with
  | none => exact hm
  | some r => exact memWf_scramble (destination_fits hchk hr) hm

theorem inv_engineReset {s : State} (h : s.Inv) : s.engineReset.Inv := by
  refine engineReset_induct ?_ (fun c hc t ht => inv_abandon (h.contexts_legal c hc) ht)
  exact ⟨h.direct_wf, h.supervised_wf, Nat.zero_le _, by simp, .nil, by simp⟩

/-- Every move keeps the invariant. -/
theorem inv_of_move {s t : State} (h : s.Inv) (hm : Move s t) : t.Inv := by
  cases hm with
  | idle e => exact e ▸ h
  | offered c e => exact e ▸ h.congr (by intro d; cases d <;> rfl) rfl rfl
  | collected k e =>
    subst e
    exact ⟨h.direct_wf, h.supervised_wf, h.room, h.contexts_legal, h.destinations_apart,
      fun r hr => h.responses_legal r (List.mem_of_mem_eraseIdx hr)⟩
  | answered a e => exact e ▸ h.congr (by intro d; cases d <;> rfl) rfl rfl
  | stored d a b _ e => exact e ▸ inv_poke d a b h
  | ran c rest _ room he => exact inv_runCaptured (h.capture c rest) room he
  | admitted c rest _ room he => exact inv_acceptCaptured (h.capture c rest) room he
  | proceeded k c hk he => exact inv_proceed h hk he
  | reset e => exact e ▸ inv_engineReset h

end Sys2Proof.Machine

namespace Sys2Proof.Proofs

open Sys2Proof.Machine

/-- Settles O59: a step is a move of the state without the head of its agenda, and every move keeps the invariant. -/
theorem everyStepKeepsInvariant : Obligations.EveryStepKeepsInvariant := by
  intro s t h hstep
  have htail : State.Inv { s with agenda := s.agenda.tail } := h.congr (by intro d; cases d <;> rfl) rfl rfl
  exact inv_of_move htail (move_of_step hstep)

end Sys2Proof.Proofs

namespace Sys2Proof.Machine

/-! ## Frames and commands -/

/-- A selected opcode is that of a row whose pattern W[0] shows under the mask (R53). -/
theorem exists_row_of_selectOpcode {w : Word} {op : Opcode} (h : selectOpcode w = some op) :
    ∃ r ∈ opcodeRows, r.op = op ∧ w &&& r.mask = r.pattern := by
  obtain ⟨r, hfind, hop⟩ := Option.map_eq_some_iff.mp h
  exact ⟨r, List.mem_of_find?_eq_some hfind, hop, by simpa [OpcodeRow.selects] using List.find?_some hfind⟩

/-- A word is what it shows under a mask and what it shows beside it. -/
theorem eq_masked_or {w m p : Word} (h : w &&& m = p) : w = p ||| (w &&& ~~~m) := by
  rw [← h, ← BitVec.and_or_distrib_left, BitVec.or_not_self, BitVec.and_allOnes]

/-- MOD and ARG are the bits of W[0] beside OPC (R51). -/
theorem modField_argField (w : Word) :
    w &&& ~~~0xFF000000#32 = (modField w).setWidth 32 <<< 16 ||| (argField w).setWidth 32 := by
  apply BitVec.eq_of_getLsbD_eq
  simp only [Nat.forall_lt_succ_right]
  simp [modField, argField]

/-- ARG is the low half of W[0] (R51). -/
theorem argField_low (w : Word) : w &&& ~~~0xFFFF0000#32 = (argField w).setWidth 32 := by
  apply BitVec.eq_of_getLsbD_eq
  simp only [Nat.forall_lt_succ_right]
  simp [argField]

theorem getElem_bitOfDomain (b : Bool) {i : Nat} (h : i < 32) :
    (bitOfDomain (domainOfBit b))[i] = (decide (i = 0) && b) := by
  cases b <;> cases i <;> simp [domainOfBit, bitOfDomain]

/-- The domain bits are bits 17 and 16 of W[0] (R51). -/
theorem domain_bits (w : Word) :
    w &&& ~~~0xFFFCFFFF#32 =
      bitOfDomain (domainOfBit (w.getLsbD 17)) <<< 17 ||| bitOfDomain (domainOfBit (w.getLsbD 16)) <<< 16 := by
  apply BitVec.eq_of_getLsbD_eq
  simp only [Nat.forall_lt_succ_right]
  simp [getElem_bitOfDomain]

/-- W[0] of the command a selected row assembles is W[0] of the frame (R51, R53). -/
theorem encodeWord0_assemble {f : Frame} {op : Opcode} (h : selectOpcode f.w0 = some op) :
    encodeWord0 (assemble op f) = f.w0 := by
  obtain ⟨r, hr, rfl, hw⟩ := exists_row_of_selectOpcode h
  refine Eq.trans ?_ (eq_masked_or hw).symm
  simp only [opcodeRows, List.mem_cons, List.not_mem_nil, or_false] at hr
  rcases hr with rfl | rfl | rfl | rfl | rfl
  case inl => simp [assemble, encodeWord0]
  case inr.inl => rw [domain_bits, ← BitVec.or_assoc]; rfl
  case inr.inr.inl => simp [assemble, encodeWord0]
  case inr.inr.inr.inl => rw [modField_argField, ← BitVec.or_assoc]; rfl
  case inr.inr.inr.inr => rw [argField_low]; rfl

/-- The encoding of an assembled command copies the operand words the command reads (R52, R54). -/
theorem encode_assemble_operands (op : Opcode) (f : Frame) :
    encode (assemble op f) = { readWords (assemble op f) f with w0 := encodeWord0 (assemble op f) } := by
  cases op <;> rfl

theorem readWords_w0 (i : Instr) (f : Frame) : (readWords i f).w0 = f.w0 := by cases i <;> rfl

/-- The encoding of an assembled command holds W[0] and the words the command reads (R52, R54). -/
theorem encode_assemble {f : Frame} {op : Opcode} (h : selectOpcode f.w0 = some op) :
    encode (assemble op f) = readWords (assemble op f) f := by
  rw [encode_assemble_operands, encodeWord0_assemble h, ← readWords_w0 (assemble op f) f]

/-- A row assembles its command from W[0] and the words the command reads (R22, R54). -/
theorem assemble_congr {f g : Frame} {op : Opcode}
    (h : readWords (assemble op f) f = readWords (assemble op f) g) :
    f.w0 = g.w0 ∧ assemble op f = assemble op g := by
  cases op <;> simp_all [assemble, readWords]

end Sys2Proof.Machine

namespace Sys2Proof.Proofs

open Sys2Proof.Machine

/-- Settles O11: the row that W[0] selects gives back W[0], and the other words are copied. -/
theorem encodeDecode : Obligations.EncodeDecode := by
  intro f i h
  obtain ⟨op, hop, rfl⟩ := (decode_command_iff f i).mp h
  exact encode_assemble hop

/-- Settles O14: the row is selected by W[0] alone and assembles nothing but the words its command reads. -/
theorem ignoredWordsHaveNoEffect : Obligations.IgnoredWordsHaveNoEffect := by
  intro f g i h hwords
  obtain ⟨op, hop, rfl⟩ := (decode_command_iff f i).mp h
  obtain ⟨hw0, hassemble⟩ := assemble_congr hwords
  exact (decode_command_iff g _).mpr ⟨op, hw0 ▸ hop, hassemble⟩

end Sys2Proof.Proofs

namespace Sys2Proof.Machine

/-! ## The frame of a transaction -/

/-- What a transaction with this destination leaves behind when it stops (R39, R40, R55, R63, R103): it has ended with one
response, or is in flight behind the others. -/
structure Confined (dest : Option ByteRange) (c : Context) (s t : State) : Prop where
  outside : ∀ d a, rangeCovers dest d a = false → (t.mem d).read a = (s.mem d).read a
  answers : t.answers <:+ s.answers
  cmd : t.cmd = s.cmd
  port : t.port = s.port
  agenda : t.agenda = s.agenda
  ends : ∃ others, List.Forall₂ SameTransaction others s.contexts ∧
    ((t.contexts = others ∧ ∃ r, t.responses = s.responses ++ [r] ∧ r.tid = c.tid) ∨
     (t.responses = s.responses ∧ ∃ c', t.contexts = others ++ [c'] ∧ SameIdentity c' c))

section Confinement
variable {dest : Option ByteRange} {c : Context} {s t u : State}

theorem Touches.confined_respond (h : Touches dest s u) (st : Status) (v : Word) :
    Confined dest c s (u.respond c.tid st v) where
  outside d a hd := by rw [respond_mem]; exact h.outside d a hd
  answers := h.answers
  cmd := h.cmd
  port := h.port
  agenda := h.agenda
  ends := ⟨u.contexts, h.contexts, .inl ⟨rfl, ⟨c.tid, st.code, v⟩, by simp [h.responses], rfl⟩⟩

theorem Touches.confined_park (h : Touches dest s u) {c' : Context} (same : SameIdentity c' c) :
    Confined dest c s (u.park c') where
  outside d a hd := by rw [park_mem]; exact h.outside d a hd
  answers := h.answers
  cmd := h.cmd
  port := h.port
  agenda := h.agenda
  ends := ⟨u.contexts, h.contexts, .inr ⟨h.responses, c', rfl, same⟩⟩

theorem Confined.draw (h : Confined dest c s t) : Confined dest c s t.draw :=
  ⟨fun d a hd => by rw [draw_mem]; exact h.outside d a hd, h.answers, h.cmd, h.port, h.agenda, h.ends⟩

theorem Confined.of_draw (h : Confined dest c s.draw t) : Confined dest c s t :=
  ⟨fun d a hd => by rw [h.outside d a hd, draw_mem], h.answers, h.cmd, h.port, h.agenda, h.ends⟩

theorem Touches.confined_raise (h : Touches dest s u) (st : Status) : Confined dest c s (u.raise c.tid st) :=
  (h.confined_respond st _).draw

/-- However a run stops, it is confined to its destination. -/
theorem RunStops.confined (h : RunStops dest c s t) : Confined dest c s t := by
  cases h with
  | inFlight c' u hu same e => exact e ▸ hu.confined_park same
  | returned v u hu e => exact e ▸ hu.confined_respond .ok v
  | faulted u hu _ _ e => exact e ▸ hu.confined_raise .copyFault

/-- A transaction in flight after the stop is one of the others or the one that ran. -/
theorem Confined.mem_contexts (h : Confined dest c s t) {d : Context} (hd : d ∈ t.contexts) :
    (∃ c' ∈ s.contexts, SameIdentity d c') ∨ SameIdentity d c := by
  obtain ⟨others, hsame, hends⟩ := h.ends
  have hothers (hmem : d ∈ others) : ∃ c' ∈ s.contexts, SameIdentity d c' := by
    obtain ⟨c', hc', hdc⟩ := exists_of_mem_left hsame hmem
    exact ⟨c', hc', sameIdentity_of_same hdc⟩
  rcases hends with ⟨e, _⟩ | ⟨_, c', e, same⟩
  · exact .inl (hothers (e ▸ hd))
  · rw [e] at hd
    rcases List.mem_append.mp hd with hd | hd
    · exact .inl (hothers hd)
    · exact .inr (List.mem_singleton.mp hd ▸ same)

/-- The others stand first, as they did. -/
theorem Confined.take_contexts (h : Confined dest c s t) :
    List.Forall₂ SameTransaction (t.contexts.take s.contexts.length) s.contexts := by
  obtain ⟨others, hsame, hends⟩ := h.ends
  have htake : t.contexts.take s.contexts.length = others := by
    rw [← hsame.length_eq]
    rcases hends with ⟨e, _⟩ | ⟨_, c', e, _⟩ <;> simp [e]
  rwa [htake]

theorem Confined.responses_prefix (h : Confined dest c s t) : s.responses <+: t.responses := by
  obtain ⟨_, _, ⟨_, r, e, _⟩ | ⟨e, _⟩⟩ := h.ends
  · exact ⟨[r], e.symm⟩
  · exact ⟨[], by simp [e]⟩

end Confinement

/-- An executed command is confined to its destination in every outcome. -/
theorem confined_of_exec {i : Instr} {s t : State} (h : exec i s = .next t) :
    Confined (destinationOf i) (s.newContext i) s t := by
  rcases exec_stops h with ⟨st, _, e⟩ | ⟨_, _, _, hstops⟩
  · exact e ▸ (Touches.refl _ s).confined_raise (c := s.newContext i) st
  · exact hstops.confined.of_draw

/-- So is a transaction in flight that is let proceed. -/
theorem confined_of_proceed {s t : State} {k : Nat} {c : Context} (hk : s.contexts[k]? = some c)
    (h : resume k s = .next t ∨ tick k s = .next t) : Confined (destinationOf c.instr) c (s.without k) t :=
  h.elim (fun h => (resume_stops hk h).confined) (fun h => (tick_stops hk h).confined)

/-- With both sides in DIRECT a micro-step of COPY asks the environment nothing (R40). -/
theorem copyTick_direct_answers (srcBase len dstBase : Word) (c : Context) (s : State) (as : List Answer)
    (h : s.answers = as) :
    (copyTick .direct .direct srcBase len dstBase c s).All (fun _ t => t.answers = as) (·.answers = as) := by
  unfold copyTick
  simp only
  split
  · split
    · exact all_atAddress fun _ => by simpa [Progress.All] using h
    · exact all_atAddress fun _ => by simpa [Progress.All] using h
  · exact h

theorem copy_direct_answers {seed srcBase srcSize len dstBase dstSize : Word} {s t : State}
    (h : exec (.copy .direct .direct seed srcBase srcSize len dstBase dstSize) s = .next t) :
    t.answers = s.answers := by
  rw [exec_eq_gate] at h
  rcases gate_next h with ⟨st, _, e⟩ | ⟨_, _, _, hrun⟩
  · rw [e, raise_answers]
  · exact drive_all (P := fun _ u => u.answers = s.answers) (Q := (·.answers = s.answers)) (R := (·.answers = s.answers))
      (fun _ _ h => h) (fun _ _ _ _ h => h) (fun _ h => h)
      (fun c u hu => copyTick_direct_answers srcBase len dstBase c u s.answers hu) _ (draw_answers s) hrun

/-! ## Accepting first and running later -/

/-- Accepting a command that stays in flight puts its transaction behind the others; running it is running what was
captured. -/
theorem acceptCaptured_inFlight {s t : State} (h : acceptCaptured s = .next t)
    (hlen : t.contexts.length = s.contexts.length + 1) :
    ∃ (c : Context) (u : State), t = u.park c ∧ u.contexts = s.contexts ∧
      runCaptured s = drive (tickOf c.instr) (stepsOf c.instr) c u := by
  rcases acceptCaptured_next h with ⟨st, rfl⟩ | ⟨i, ha, rfl⟩
  · simp at hlen
  · refine ⟨startOf i (s.newContext i), s.draw, rfl, rfl, ?_⟩
    rw [ha.runCaptured_eq, (startOf_identity i (s.newContext i)).2.2, newContext_instr]

/-- Resuming the transaction that stands last takes it out and runs it. -/
theorem resume_park (c : Context) (s : State) :
    resume s.contexts.length (s.park c) = drive (tickOf c.instr) (stepsOf c.instr) c s := by
  have hlast : (s.park c).contexts[s.contexts.length]? = some c := by simp
  have hrest : (s.park c).without s.contexts.length = s := by
    simp [State.without, State.park, List.eraseIdx_append_of_length_le]
  simp only [resume, hlast, hrest]

/-! ## The engine's own move -/

section Engine
variable {s : State}

theorem runCaptured_of_command {i : Instr} (h : decode s.cmd.frame = .command i) : runCaptured s = exec i s := by
  simp only [runCaptured, h]

theorem runCaptured_of_rejected {r : Rejection} (h : decode s.cmd.frame = .rejected r) :
    runCaptured s = .next (s.raise s.cmd.tid .invalidCommand) := by
  simp only [runCaptured, h]

/-- With no event and a free context the engine takes the oldest waiting command. -/
theorem step_of_waiting {c : Command} {rest : List Command} (hagenda : s.agenda = []) (hport : s.port = c :: rest)
    (room : s.hasRoom = true) : step s = runCaptured (s.capture c rest) := by
  simp [step, advance, hagenda, hport, room]

/-- With no event, nothing waiting and nothing in flight the engine changes nothing. -/
theorem step_of_nothing (hagenda : s.agenda = []) (hport : s.port = []) (hcontexts : s.contexts = []) :
    step s = .next s := by
  simp [step, advance, resume, hagenda, hport, hcontexts]

end Engine

/-! ## Where the transactions in flight come from -/

/-- A transaction in flight that was in flight before, or whose command waited at the port (R11). -/
def Captured (s : State) (d : Context) : Prop :=
  (∃ c ∈ s.contexts, SameIdentity d c) ∨ (⟨d.tid, d.frame⟩ ∈ s.port ∧ decode d.frame = .command d.instr)

/-- The transaction of a captured command, as it is in flight later. -/
theorem identity_of_newContext {s : State} {i : Instr} (hdec : decode s.cmd.frame = .command i) {d : Context}
    (hd : SameIdentity d (s.newContext i)) : ⟨d.tid, d.frame⟩ = s.cmd ∧ decode d.frame = .command d.instr := by
  obtain ⟨htid, hframe, hinstr⟩ := hd
  rw [htid, hframe, hinstr]
  exact ⟨rfl, hdec⟩

section Capturing
variable {s t : State} {d : Context} (hd : d ∈ t.contexts)
include hd

theorem contexts_of_runCaptured (h : runCaptured s = .next t) :
    (∃ c ∈ s.contexts, SameIdentity d c) ∨ (⟨d.tid, d.frame⟩ = s.cmd ∧ decode d.frame = .command d.instr) := by
  unfold runCaptured at h
  split at h
  · next i hdec => exact ((confined_of_exec h).mem_contexts hd).imp_right (identity_of_newContext hdec)
  · cases h; exact .inl ⟨d, hd, rfl, rfl, rfl⟩

theorem contexts_of_acceptCaptured (h : acceptCaptured s = .next t) :
    (∃ c ∈ s.contexts, SameIdentity d c) ∨ (⟨d.tid, d.frame⟩ = s.cmd ∧ decode d.frame = .command d.instr) := by
  rcases acceptCaptured_next h with ⟨st, rfl⟩ | ⟨i, ha, rfl⟩
  · exact .inl ⟨d, hd, rfl, rfl, rfl⟩
  · rcases List.mem_append.mp hd with hd | hd
    · exact .inl ⟨d, hd, rfl, rfl, rfl⟩
    · exact .inr (identity_of_newContext ha.decoded (List.mem_singleton.mp hd ▸ startOf_identity i (s.newContext i)))

end Capturing

/-- Every move leaves in flight only what was in flight or was captured from the port. -/
theorem captured_of_move {s t : State} (h : Move s t) {d : Context} (hd : d ∈ t.contexts) : Captured s d := by
  have kept (hmem : d ∈ s.contexts) : Captured s d := .inl ⟨d, hmem, rfl, rfl, rfl⟩
  cases h with
  | idle e => exact kept (e ▸ hd)
  | offered c e => subst e; exact kept hd
  | collected k e => subst e; exact kept hd
  | answered a e => subst e; exact kept hd
  | stored d' a b _ e =>
    subst e
    rw [poke_contexts] at hd
    obtain ⟨c, hc, rfl⟩ := List.mem_map.mp hd
    exact .inl ⟨c, hc, noteOverwrite_tid .., noteOverwrite_frame .., noteOverwrite_instr ..⟩
  | ran c rest waiting _ h => exact (contexts_of_runCaptured hd h).imp_right fun ⟨e, hdec⟩ => ⟨e ▸ waiting, hdec⟩
  | admitted c rest waiting _ h => exact (contexts_of_acceptCaptured hd h).imp_right fun ⟨e, hdec⟩ => ⟨e ▸ waiting, hdec⟩
  | proceeded k c hk h =>
    have hc : c ∈ s.contexts := List.mem_of_getElem? hk
    refine .inl (((confined_of_proceed hk h).mem_contexts hd).elim ?_ (fun same => ⟨c, hc, same⟩))
    rintro ⟨c', hc', same⟩
    exact ⟨c', List.mem_of_mem_eraseIdx hc', same⟩
  | reset e => simp [e] at hd

end Sys2Proof.Machine

namespace Sys2Proof.Proofs

open Sys2Proof.Machine

/-- Settles O49: both halves are the confinement of a run, read off for COPY and for a transaction in flight. -/
theorem frameOfTransactions : Obligations.FrameOfTransactions := by
  refine ⟨?executed, ?inFlight⟩
  case executed =>
    intro sdom ddom seed srcBase srcSize len dstBase dstSize s t h
    have hconf := confined_of_exec h
    refine ⟨fun d a hout => hconf.outside d a ?_, hconf.take_contexts, hconf.answers, ?_, hconf.cmd, hconf.port,
      hconf.agenda, hconf.responses_prefix⟩
    · simp only [destinationOf, rangeCovers, ByteRange.covers, Bool.and_eq_false_iff, decide_eq_false_iff_not]
      exact hout.elim (fun hd => .inl (.inl (Ne.symm hd))) (fun ha => by omega)
    · rintro rfl rfl
      exact copy_direct_answers h
  case inFlight =>
    intro s t k c hk h
    have hconf := confined_of_proceed hk h
    exact ⟨fun d a hout => (hconf.outside d a hout).trans (by simp), hconf.answers, hconf.cmd, hconf.port, hconf.agenda,
      hconf.ends⟩

/-- Settles O17: accepting leaves the opened transaction last in flight, where resuming it is what running at once does. -/
theorem admissionIsInvisible : Obligations.AdmissionIsInvisible := by
  intro s t c rest hport room haccept hlen
  have hcaptured : acceptCaptured (s.capture c rest) = .next t := by simpa [accept, hport, room] using haccept
  obtain ⟨c', u, rfl, hcontexts, hrun⟩ := acceptCaptured_inFlight hcaptured hlen
  rw [hrun, ← resume_park, hcontexts, capture_contexts]

/-- Settles O53: by the move the step makes; what ran is in flight with the identity it had or was captured with. -/
theorem framesCapturedByValue : Obligations.FramesCapturedByValue := by
  intro s t h d hd
  exact captured_of_move (move_of_step h) hd

/-- Settles O20: with no event the engine captures the head of the port and runs what it decodes to. -/
theorem stepRunsDecodedCommand : Obligations.StepRunsDecodedCommand := by
  intro s c rest hagenda hport room
  rw [step_of_waiting hagenda hport room]
  exact ⟨fun i hdec => runCaptured_of_command hdec, fun r hdec => runCaptured_of_rejected hdec⟩

/-- Settles O57: nothing waits and nothing is in flight, so the engine has nothing to resume. -/
theorem resetIsIdle : Obligations.ResetIsIdle :=
  ⟨rfl, rfl, decide_eq_true (Nat.zero_le _), step_of_nothing rfl rfl rfl,
    fun _ hagenda hport hcontexts => step_of_nothing hagenda hport hcontexts⟩

/-- Settles O58: at reset memory is in canonical form and nothing is in flight. -/
theorem invariantAtReset : Obligations.InvariantAtReset :=
  (inv_iff _).mpr ⟨fun d => by cases d <;> rfl, ⟨Nat.zero_le _, by simp [State.reset], .nil⟩, by simp [State.reset]⟩

end Sys2Proof.Proofs

namespace Sys2Proof.Machine

/-! ## POS after a micro-step -/

section Position
variable {c c' : Context} {s s' : State}

theorem atAddress_busy {a : Nat} {p : Progress} (h : atAddress a p = .busy c s) : p = .busy c s := by
  rcases atAddress_cases a p with ⟨_, e⟩ | ⟨_, e⟩ <;> rw [e] at h
  · exact h
  · cases h

theorem atAddress_of_lt {a : Nat} (p : Progress) (h : a < addressSpace) : atAddress a p = p := if_pos h

/-- The stages of the pipeline leave POS alone (R15, R112). -/
theorem foldPipeline_pos (h : foldPipeline c s = .busy c' s') : c'.pos = c.pos := by
  rcases foldPipeline_cases c s with ⟨_, e⟩ | ⟨_, e⟩ | ⟨_, e⟩ | ⟨_, e⟩ <;> rw [e] at h <;> cases h <;> rfl

theorem accTick_pos {base len : Word} (h : accTick base len c s = .busy c' s') : c'.pos = c.pos + 1 := by
  unfold accTick at h
  split at h
  · cases atAddress_busy h; exact feed_pos c _
  · cases h

theorem copyRead_pos {sdom : Domain} {srcBase : Word} {dest : ByteRange}
    (h : copyRead sdom srcBase dest c s = .busy c' s') : c'.pos = c.pos := by
  unfold copyRead at h
  split at h
  · cases h
  · cases h
  · cases atAddress_busy h; rfl

theorem copyWrite_pos {ddom : Domain} {dstBase : Word} {dest : ByteRange} {x : Byte}
    (h : copyWrite ddom dstBase dest x c s = .busy c' s') : c'.pos = c.pos + 1 := by
  unfold copyWrite at h
  split at h
  · cases h
  · cases h
  · cases atAddress_busy h; exact feed_pos c x

theorem copyTick_pos {sdom ddom : Domain} {srcBase len dstBase : Word}
    (h : copyTick sdom ddom srcBase len dstBase c s = .busy c' s') :
    c'.pos = if c.latch = none then c.pos else c.pos + 1 := by
  unfold copyTick at h
  simp only at h
  split at h
  · split at h
    · next hlatch => rw [if_pos hlatch]; exact copyRead_pos h
    · next x hlatch => rw [if_neg (by simp [hlatch])]; exact copyWrite_pos h
  · cases h

theorem phcTick_pos {proto : Byte} {len16 : Half} {saddr daddr : Word}
    (h : phcTick proto len16 saddr daddr c s = .busy c' s') : c'.pos = c.pos := by
  unfold phcTick at h
  split at h
  · cases h; rfl
  · exact foldPipeline_pos h

theorem fastTick_pos {words : Half} {base : Word} (h : fastTick words base c s = .busy c' s') :
    c'.pos = if c.phase = .gather ∧ c.pos.toNat < 4 * words.toNat then c.pos + 4 else c.pos := by
  unfold fastTick at h
  split at h
  · next hp =>
    split at h
    · next hlt => rw [if_pos ⟨hp, hlt⟩]; cases atAddress_busy h; rfl
    · next hlt => rw [if_neg fun hboth => hlt hboth.2]; exact foldPipeline_pos h
  · next hp => rw [if_neg fun hboth => hp hboth.1]; exact foldPipeline_pos h

/-- A micro-step that goes on leaves POS where the statement says, for every command (R14). -/
theorem tickOf_pos (h : tickOf c.instr c s = .busy c' s') : c'.pos = positionAfter c := by
  unfold positionAfter
  cases hi : c.instr with rw [hi] at h
  | acc => exact accTick_pos h
  | copy => exact copyTick_pos h
  | fold => exact foldPipeline_pos h
  | phc => exact phcTick_pos h
  | fast => exact fastTick_pos h

end Position

/-! ## Micro-steps that go on -/

section GoesOn
variable {c : Context} {s u : State}

/-- A byte of ACC inside the address space is read and enters the sum (R34, R87). -/
theorem accTick_goes_on {base len : Word} (hp : c.pos.toNat < len.toNat)
    (ha : base.toNat + c.pos.toNat < addressSpace) :
    accTick base len c s = .busy (c.feed (s.sourceByte c .direct (base.toNat + c.pos.toNat)))
      (s.afterSource c (base.toNat + c.pos.toNat)) := by
  simp only [accTick, if_pos hp, atAddress_of_lt _ ha]

/-- A granted read of COPY inside the address space fills the latch (R97). -/
theorem copyTick_reads {sdom ddom : Domain} {srcBase len dstBase : Word} (hp : c.pos.toNat < len.toNat)
    (hl : c.latch = none) (hu : s.ask sdom = .granted u) (ha : srcBase.toNat + c.pos.toNat < addressSpace) :
    copyTick sdom ddom srcBase len dstBase c s =
      .busy { c with latch := some (u.sourceByte c sdom (srcBase.toNat + c.pos.toNat)) }
        (u.afterSource c (srcBase.toNat + c.pos.toNat)) := by
  simp only [copyTick, if_pos hp, hl, copyRead, hu, atAddress_of_lt _ ha]

/-- A granted write of COPY inside the address space empties the latch into memory and the sum (R97). -/
theorem copyTick_writes {sdom ddom : Domain} {srcBase len dstBase : Word} {x : Byte} (hp : c.pos.toNat < len.toNat)
    (hl : c.latch = some x) (hu : s.ask ddom = .granted u) (ha : dstBase.toNat + c.pos.toNat < addressSpace) :
    copyTick sdom ddom srcBase len dstBase c s =
      .busy { c.feed x with
          latch := none
          undo := c.undo ++ [(dstBase.toNat + c.pos.toNat, (u.mem ddom).read (dstBase.toNat + c.pos.toNat))] }
        (u.poke ddom (dstBase.toNat + c.pos.toNat) x) := by
  simp only [copyTick, if_pos hp, hl, copyWrite, hu, atAddress_of_lt _ ha]

/-- A word of FAST inside the address space is read and added (R130). -/
theorem fastTick_goes_on {words : Half} {base : Word} (hg : c.phase = .gather) (hp : c.pos.toNat < fastBytes words)
    (ha : base.toNat + c.pos.toNat + 3 < addressSpace) :
    fastTick words base c s =
      .busy { c with sum := add1c32 c.sum (fastWord (base.toNat + c.pos.toNat) c s), pos := c.pos + 4 }
        (afterFastWord (base.toNat + c.pos.toNat) c s) := by
  simp only [fastTick, hg, if_pos hp, atAddress_of_lt _ ha]

end GoesOn

/-- A legal FAST with words left is in its additions and has a whole word left (R130). -/
theorem fast_word_left {c : Context} {words : Half} {base size : Word} (hi : c.instr = .fast words base size)
    (hr : registersLegal c = true) (hp : c.pos.toNat < fastBytes words) :
    c.phase = .gather ∧ c.pos.toNat + 4 ≤ fastBytes words := by
  obtain ⟨_, hmod, hphase, _, _⟩ := (registersLegal_fast hi).mp hr
  have hbytes : fastBytes words % 4 = 0 := Nat.mul_mod_right 4 _
  exact ⟨hphase.resolve_right (by omega), by omega⟩

end Sys2Proof.Machine

namespace Sys2Proof.Proofs

open Sys2Proof.Machine

/-- Settles O55: each micro-step that goes on leaves POS as stated, and one with bytes left goes on because the checks keep
its addresses inside the address space. -/
theorem positionAdvances : Obligations.PositionAdvances := by
  refine ⟨fun _ _ _ _ h => tickOf_pos h, ?acc, ?copy, ?fast⟩
  case acc =>
    intro seed base size len c s hi hlegal hp
    obtain ⟨_, hchk, _, _⟩ := (contextLegal_iff c).mp hlegal
    have hfits := source_fits hchk (r := ⟨.direct, base.toNat, len.toNat⟩) (by rw [hi]; rfl)
    rw [hi]
    refine ⟨_, _, accTick_goes_on hp (by simp only at hfits; omega), ?_⟩
    rw [feed_pos, toNat_add_one hp]
  case copy =>
    intro sdom ddom seed srcBase srcSize len dstBase dstSize c s u hi hlegal hp
    obtain ⟨_, hchk, _, _⟩ := (contextLegal_iff c).mp hlegal
    have hsrc := source_fits hchk (r := ⟨sdom, srcBase.toNat, len.toNat⟩) (by rw [hi]; rfl)
    have hdst := destination_fits hchk (r := ⟨ddom, dstBase.toNat, len.toNat⟩) (by rw [hi]; rfl)
    rw [hi]
    refine ⟨fun hl hu => ?read, fun hl hu => ?write⟩
    case read => exact ⟨_, _, copyTick_reads hp hl hu (by simp only at hsrc; omega), by simp, rfl⟩
    case write =>
      obtain ⟨x, hx⟩ := Option.ne_none_iff_exists'.mp hl
      refine ⟨_, _, copyTick_writes hp hx hu (by simp only at hdst; omega), rfl, ?_⟩
      rw [feed_pos, toNat_add_one hp]
  case fast =>
    intro words base size c s hi hlegal hp
    obtain ⟨_, hchk, _, hreg⟩ := (contextLegal_iff c).mp hlegal
    have hfits := source_fits hchk (r := ⟨.direct, base.toNat, fastBytes words⟩) (by rw [hi]; rfl)
    obtain ⟨hg, hword⟩ := fast_word_left hi hreg hp
    rw [hi]
    exact ⟨_, _, fastTick_goes_on hg hp (by simp only at hfits; omega), toNat_add_four hp⟩

end Sys2Proof.Proofs

namespace Sys2Proof.Machine

/-! ## Two runs of one command -/

/-- Two states with nothing else in flight that agree on memory and on the environment's answers. -/
structure SameSurroundings (s u : State) : Prop where
  alone : s.contexts = []
  alone' : u.contexts = []
  direct : s.direct = u.direct
  supervised : s.supervised = u.supervised
  answers : s.answers = u.answers

/-- Two byte loops at the same place: they agree on the registers the loop reads, HOLD only while it is valid, and no
source byte is noted as racing (R74, R97). -/
structure SameLoop (c d : Context) : Prop where
  sum : c.sum = d.sum
  pos : c.pos = d.pos
  holdv : c.holdv = d.holdv
  hold : c.holdv = true → c.hold = d.hold
  latch : c.latch = d.latch
  stale : c.stale = []
  stale' : d.stale = []

/-- Two pipelines at the same place: they agree on the stages computed so far (R112). -/
structure SamePipeline (c d : Context) : Prop where
  sum : c.sum = d.sum
  phase : c.phase = d.phase
  t1 : c.phase = .stage2 → c.t1 = d.t1
  t2 : c.phase = .output → c.t2 = d.t2

/-- Two FASTs at the same place: their pipelines and POS agree and no source byte is noted as racing (R130). -/
structure SameHeader (c d : Context) : Prop extends SamePipeline c d where
  pos : c.pos = d.pos
  stale : c.stale = []
  stale' : d.stale = []

/-- Two transactions of one command at the same place: they agree on every register the command reads from here. -/
def SamePlace : Instr → Context → Context → Prop
  | .acc _ _ _ _ => SameLoop
  | .copy _ _ _ _ _ _ _ _ => SameLoop
  | .fold _ => SamePipeline
  | .phc _ _ _ _ _ => SamePipeline
  | .fast _ _ _ => SameHeader

/-- Two micro-steps that lead to the same: on to related transactions, to a wait, to one result or to one status. -/
inductive Progress.Matches (R : Context → Context → Prop) : Progress → Progress → Prop where
  | busy {c d : Context} {s u : State} (same : R c d) (around : SameSurroundings s u) :
      Matches R (.busy c s) (.busy d u)
  | waiting (c d : Context) (s u : State) : Matches R (.waiting c s) (.waiting d u)
  | returned {v w : Word} (same : v = w) (s u : State) : Matches R (.returned v s) (.returned w u)
  | raised (st : Status) (s u : State) : Matches R (.raised st s) (.raised st u)
  | stopped (r : Fault) : Matches R (.stopped r) (.stopped r)

theorem matches_atAddress {R : Context → Context → Prop} (a : Nat) {p q : Progress} (h : p.Matches R q) :
    (atAddress a p).Matches R (atAddress a q) := by
  unfold atAddress
  split
  · exact h
  · exact .stopped _

section Pairs
variable {c d : Context} {s u : State}

theorem SameSurroundings.mem (h : SameSurroundings s u) (e : Domain) : s.mem e = u.mem e := by
  cases e
  · exact h.direct
  · exact h.supervised

/-- Without notes of racing bytes a read gives the byte in memory and draws nothing. -/
theorem SameSurroundings.read (h : SameSurroundings s u) (hc : c.stale = []) (hd : d.stale = []) (e : Domain) (a : Nat) :
    s.sourceByte c e a = u.sourceByte d e a ∧ SameSurroundings (s.afterSource c a) (u.afterSource d a) := by
  obtain ⟨hs, hs'⟩ := sourceByte_of_no_note (s := s) (c := c) (d := e) (a := a) (by rw [hc, staleAt_nil])
  obtain ⟨hu, hu'⟩ := sourceByte_of_no_note (s := u) (c := d) (d := e) (a := a) (by rw [hd, staleAt_nil])
  rw [hs, hs', hu, hu', h.mem e]
  exact ⟨rfl, h⟩

theorem SameSurroundings.poke (h : SameSurroundings s u) (e : Domain) (a : Nat) (v : Byte) :
    SameSurroundings (s.poke e a v) (u.poke e a v) := by
  have hmem (e' : Domain) : (s.poke e a v).mem e' = (u.poke e a v).mem e' := by
    by_cases he : e' = e
    · subst he; simp [h.mem e']
    · rw [poke_mem_other s e a v he, poke_mem_other u e a v he, h.mem e']
  exact ⟨by simp [h.alone], by simp [h.alone'], hmem .direct, hmem .supervised, by simp [h.answers]⟩

theorem SameSurroundings.ask (h : SameSurroundings s u) (e : Domain) :
    (s.ask e = .unanswered ∧ u.ask e = .unanswered) ∨
    (∃ s' u', s.ask e = .faulted s' ∧ u.ask e = .faulted u') ∨
    (∃ s' u', s.ask e = .granted s' ∧ u.ask e = .granted u' ∧ SameSurroundings s' u') := by
  have ha := h.answers
  rcases ask_cases s e with ⟨rfl, hs⟩ | ⟨rfl, hnil, hs⟩ | ⟨rest, rfl, hok, hs⟩ | ⟨rest, rfl, hbad, hs⟩
  · exact .inr (.inr ⟨s, u, hs, rfl, h⟩)
  · exact .inl ⟨hs, by simp [State.ask, ← ha, hnil]⟩
  · exact .inr (.inr ⟨_, { u with answers := rest }, hs, by simp [State.ask, ← ha, hok],
      h.alone, h.alone', h.direct, h.supervised, rfl⟩)
  · exact .inr (.inl ⟨_, { u with answers := rest }, hs, by simp [State.ask, ← ha, hbad]⟩)

theorem SameLoop.feed (h : SameLoop c d) (x : Byte) : SameLoop (c.feed x) (d.feed x) := by
  obtain ⟨hsum, hpos, hholdv, hhold, hlatch, hstale, hstale'⟩ := h
  refine ⟨?_, by simp [hpos], by simp [hholdv], ?_, by simp [hlatch], by simp [hstale], by simp [hstale']⟩
  · unfold Context.feed
    rw [← hholdv]
    split
    · next hv => simp [hsum, hhold hv]
    · exact hsum
  · unfold Context.feed
    rw [← hholdv]
    split
    · simp
    · simp

theorem SameLoop.flush_sum (h : SameLoop c d) : c.flush.sum = d.flush.sum := by
  unfold Context.flush
  rw [← h.holdv]
  split
  · next hv => simp [h.sum, h.hold hv]
  · exact h.sum

theorem SameLoop.accTick (h : SameLoop c d) (hs : SameSurroundings s u) (base len : Word) :
    (accTick base len c s).Matches SameLoop (accTick base len d u) := by
  unfold Machine.accTick
  rw [← h.pos]
  split
  · obtain ⟨hbyte, hafter⟩ := hs.read h.stale h.stale' .direct (base.toNat + c.pos.toNat)
    refine matches_atAddress _ (.busy ?_ hafter)
    rw [hbyte]
    exact h.feed _
  · exact .returned h.flush_sum s u

theorem SameLoop.copyRead (h : SameLoop c d) (hs : SameSurroundings s u) (sdom : Domain) (srcBase : Word)
    (dest : ByteRange) :
    (copyRead sdom srcBase dest c s).Matches SameLoop (copyRead sdom srcBase dest d u) := by
  unfold Machine.copyRead
  rcases hs.ask sdom with ⟨e, e'⟩ | ⟨s', u', e, e'⟩ | ⟨s', u', e, e', hs'⟩ <;> rw [e, e']
  · exact .waiting c d s u
  · exact .raised _ _ _
  · obtain ⟨hbyte, hafter⟩ := hs'.read h.stale h.stale' sdom (srcBase.toNat + c.pos.toNat)
    simp only [← h.pos, ← hbyte]
    exact matches_atAddress _ (.busy ⟨h.sum, rfl, h.holdv, h.hold, rfl, h.stale, h.stale'⟩ hafter)

theorem SameLoop.copyWrite (h : SameLoop c d) (hs : SameSurroundings s u) (ddom : Domain) (dstBase : Word)
    (dest : ByteRange) (x : Byte) :
    (copyWrite ddom dstBase dest x c s).Matches SameLoop (copyWrite ddom dstBase dest x d u) := by
  unfold Machine.copyWrite
  rcases hs.ask ddom with ⟨e, e'⟩ | ⟨s', u', e, e'⟩ | ⟨s', u', e, e', hs'⟩ <;> rw [e, e']
  · exact .waiting c d s u
  · exact .raised _ _ _
  · simp only [← h.pos]
    have hf := h.feed x
    exact matches_atAddress _ (.busy ⟨hf.sum, hf.pos, hf.holdv, hf.hold, rfl, hf.stale, hf.stale'⟩ (hs'.poke _ _ _))

theorem SameLoop.copyTick (h : SameLoop c d) (hs : SameSurroundings s u) (sdom ddom : Domain)
    (srcBase len dstBase : Word) :
    (copyTick sdom ddom srcBase len dstBase c s).Matches SameLoop (copyTick sdom ddom srcBase len dstBase d u) := by
  unfold Machine.copyTick
  simp only
  rw [← h.pos, ← h.latch]
  split
  · split
    · exact h.copyRead hs _ _ _
    · exact h.copyWrite hs _ _ _ _
  · exact .returned h.flush_sum s u

/-- The pipeline keeps two transactions at the same place, whatever else is asked of them. -/
theorem SamePipeline.foldPipeline {R : Context → Context → Prop} (h : SamePipeline c d) (hs : SameSurroundings s u)
    (hR : ∀ c' d', SamePipeline c' d' → c'.pos = c.pos → d'.pos = d.pos → c'.stale = c.stale → d'.stale = d.stale →
      R c' d') : (foldPipeline c s).Matches R (foldPipeline d u) := by
  obtain ⟨hsum, hphase, ht1, ht2⟩ := h
  unfold Machine.foldPipeline
  rw [← hphase]
  cases hp : c.phase with
  | gather => exact .busy (hR _ _ ⟨hsum, rfl, by simp, by simp⟩ rfl rfl rfl rfl) hs
  | stage1 => exact .busy (hR _ _ ⟨hsum, rfl, fun _ => congrArg foldStage1 hsum, by simp⟩ rfl rfl rfl rfl) hs
  | stage2 => exact .busy (hR _ _ ⟨hsum, rfl, by simp, fun _ => congrArg foldStage2 (ht1 hp)⟩ rfl rfl rfl rfl) hs
  | output => exact .returned (congrArg (fun t2 => checksumResult (complementFold t2)) (ht2 hp)) s u

theorem SamePipeline.phcTick (h : SamePipeline c d) (hs : SameSurroundings s u) (proto : Byte) (len16 : Half)
    (saddr daddr : Word) :
    (phcTick proto len16 saddr daddr c s).Matches SamePipeline (phcTick proto len16 saddr daddr d u) := by
  unfold Machine.phcTick
  rw [← h.phase]
  split
  · exact .busy ⟨by simp [h.sum], rfl, by simp, by simp⟩ hs
  · exact h.foldPipeline hs fun _ _ h' _ _ _ _ => h'

theorem SameSurroundings.fastWord (hs : SameSurroundings s u) (hc : c.stale = []) (hd : d.stale = []) (a : Nat) :
    fastWord a c s = fastWord a d u ∧ SameSurroundings (afterFastWord a c s) (afterFastWord a d u) := by
  obtain ⟨h0, hs0⟩ := hs.read hc hd .direct a
  obtain ⟨h1, hs1⟩ := hs0.read hc hd .direct (a + 1)
  obtain ⟨h2, hs2⟩ := hs1.read hc hd .direct (a + 2)
  obtain ⟨h3, hs3⟩ := hs2.read hc hd .direct (a + 3)
  simp only [Machine.fastWord, h0, h1, h2, h3]
  exact ⟨trivial, hs3⟩

theorem SameHeader.fastTick (h : SameHeader c d) (hs : SameSurroundings s u) (words : Half) (base : Word) :
    (fastTick words base c s).Matches SameHeader (fastTick words base d u) := by
  obtain ⟨hpipe, hpos, hstale, hstale'⟩ := h
  have hfold : (Machine.foldPipeline c s).Matches SameHeader (Machine.foldPipeline d u) :=
    hpipe.foldPipeline hs fun c' d' h' hc hd hcs hds =>
      ⟨h', by rw [hc, hd, hpos], by rw [hcs, hstale], by rw [hds, hstale']⟩
  unfold Machine.fastTick
  rw [← hpipe.phase, ← hpos]
  split
  · split
    · obtain ⟨hword, hafter⟩ := hs.fastWord hstale hstale' (base.toNat + c.pos.toNat)
      simp only [hword]
      exact matches_atAddress _
        (.busy ⟨⟨congrArg (add1c32 · _) hpipe.sum, rfl, hpipe.t1, hpipe.t2⟩, rfl, hstale, hstale'⟩ hafter)
    · exact hfold
  · exact hfold

/-- Two micro-steps of one command from the same place lead to the same. -/
theorem matches_tickOf {i : Instr} (h : SamePlace i c d) (hs : SameSurroundings s u) :
    (tickOf i c s).Matches (SamePlace i) (tickOf i d u) := by
  cases i with
  | acc => exact SameLoop.accTick h hs _ _
  | copy => exact SameLoop.copyTick h hs _ _ _ _ _
  | fold => exact SamePipeline.foldPipeline h hs fun _ _ h' _ _ _ _ => h'
  | phc => exact SamePipeline.phcTick h hs _ _ _ _
  | fast => exact SameHeader.fastTick h hs _ _

/-- Two transactions opened with nothing else in flight start at the same place, whatever their registers held (R10). -/
theorem samePlace_startOf (hs : SameSurroundings s u) (i : Instr) :
    SamePlace i (startOf i (s.newContext i)) (startOf i (u.newContext i)) := by
  have hstale : (s.newContext i).stale = [] := by simp [State.overwritten, hs.alone]
  have hstale' : (u.newContext i).stale = [] := by simp [State.overwritten, hs.alone']
  cases i with
  | acc => exact ⟨rfl, rfl, rfl, by simp [startOf, accStart], rfl, hstale, hstale'⟩
  | copy => exact ⟨rfl, rfl, rfl, by simp [startOf, copyStart], rfl, hstale, hstale'⟩
  | fold => exact ⟨rfl, rfl, by simp [startOf, foldStart], by simp [startOf, foldStart]⟩
  | phc => exact ⟨rfl, rfl, by simp [startOf, phcStart], by simp [startOf, phcStart]⟩
  | fast => exact ⟨⟨rfl, rfl, by simp [startOf, fastStart], by simp [startOf, fastStart]⟩, rfl, hstale, hstale'⟩

end Pairs

/-! ### The responses of two runs -/

theorem newResponses_of_append {s t : State} {l : List Response} (h : t.responses = s.responses ++ l) :
    newResponses s t = l := by
  simp [newResponses, h]

theorem sameAnswers_of_none {s t u w : State} (h : t.responses = s.responses) (h' : w.responses = u.responses) :
    List.Forall₂ SameAnswer (newResponses s t) (newResponses u w) := by
  rw [newResponses_of_append (h.trans (List.append_nil _).symm), newResponses_of_append (h'.trans (List.append_nil _).symm)]
  exact .nil

theorem sameAnswers_of_one {s t u w : State} {r q : Response} (h : t.responses = s.responses ++ [r])
    (h' : w.responses = u.responses ++ [q]) (hrq : SameAnswer r q) :
    List.Forall₂ SameAnswer (newResponses s t) (newResponses u w) := by
  rw [newResponses_of_append h, newResponses_of_append h']
  exact .cons hrq .nil

theorem newResponses_congr {s s' : State} (h : s'.responses = s.responses) (t : State) :
    newResponses s' t = newResponses s t := by
  simp [newResponses, h]

theorem code_ne_zero {st : Status} (h : st ≠ .ok) : st.code ≠ 0 := by
  cases st
  case ok => exact absurd rfl h
  all_goals decide

/-- Two responses with one status that is not OK are the same answer, whatever their free RESULT (R56). -/
theorem sameAnswers_of_raise {s t u w : State} {tid tid' : Tid} {st : Status} (htid : tid = tid') (hst : st ≠ .ok)
    (h : t.responses = s.responses) (h' : w.responses = u.responses) :
    List.Forall₂ SameAnswer (newResponses s (t.raise tid st)) (newResponses u (w.raise tid' st)) := by
  have ht := raise_responses t tid st
  have hw := raise_responses w tid' st
  rw [h] at ht
  rw [h'] at hw
  exact sameAnswers_of_one ht hw ⟨htid, rfl, fun h0 => absurd h0 (code_ne_zero hst)⟩

/-- No check answers OK (R146). -/
theorem checkOf_ne_ok (i : Instr) : checkOf i ≠ some .ok := by
  cases i with
  | acc => simp only [checkOf, accCheck]; split <;> simp
  | copy => simp only [checkOf, copyCheck]; split <;> [simp; (split <;> simp)]
  | fold => simp [checkOf, foldCheck]
  | phc => simp [checkOf, phcCheck]
  | fast => simp only [checkOf, fastCheck]; split <;> [simp; (split <;> [simp; (split <;> simp)])]

/-- Two runs from the same place stop alike and write the same responses. -/
theorem drive_same {i : Instr} (n : Nat) {c d : Context} {s u t : State} (h : SamePlace i c d)
    (hs : SameSurroundings s u) (htid : c.tid = d.tid) (hrun : drive (tickOf i) n c s = .next t) :
    ∃ t', drive (tickOf i) n d u = .next t' ∧ List.Forall₂ SameAnswer (newResponses s t) (newResponses u t') := by
  induction n generalizing c d s u with
  | zero =>
    cases hrun
    exact ⟨_, rfl, sameAnswers_of_none rfl rfl⟩
  | succ n ih =>
    have hmatch := matches_tickOf h hs
    have hwithin := within_tickOf i c s
    have hwithin' := within_tickOf i d u
    unfold drive at hrun ⊢
    generalize tickOf i c s = p at hrun hmatch hwithin
    generalize tickOf i d u = q at hmatch hwithin' ⊢
    cases hmatch with
    | busy same around =>
      obtain ⟨⟨htid', _⟩, htouch⟩ := hwithin
      obtain ⟨⟨htid'', _⟩, htouch'⟩ := hwithin'
      obtain ⟨t', hrun', hsame⟩ := ih same around (htid'.trans (htid.trans htid''.symm)) hrun
      rw [newResponses_congr htouch.responses, newResponses_congr htouch'.responses] at hsame
      exact ⟨t', hrun', hsame⟩
    | waiting c' d' s' u' =>
      obtain ⟨_, rfl, _⟩ := hwithin
      obtain ⟨_, rfl, _⟩ := hwithin'
      cases hrun
      exact ⟨_, rfl, sameAnswers_of_none rfl rfl⟩
    | returned same s' u' =>
      cases hrun
      refine ⟨_, rfl, sameAnswers_of_one (r := ⟨c.tid, Status.ok.code, _⟩) (q := ⟨d.tid, Status.ok.code, _⟩) ?_ ?_
        ⟨htid, rfl, fun _ => same⟩⟩
      · rw [respond_responses, hwithin.responses]
      · rw [respond_responses, hwithin'.responses]
    | raised st s' u' =>
      obtain ⟨rfl, htouch, _⟩ := hwithin
      cases hrun
      exact ⟨_, rfl, sameAnswers_of_raise htid (by simp) htouch.responses hwithin'.2.1.responses⟩
    | stopped r => cases hrun

/-- Two executions of one command with nothing else in flight write the same responses (R10). -/
theorem exec_same {i : Instr} {s u t : State} (hs : SameSurroundings s u) (htid : s.cmd.tid = u.cmd.tid)
    (h : exec i s = .next t) :
    ∃ t', exec i u = .next t' ∧ List.Forall₂ SameAnswer (newResponses s t) (newResponses u t') := by
  rw [exec_eq_gate] at h ⊢
  rcases gate_next h with ⟨st, hchk, rfl⟩ | ⟨hchk, hov, _, hrun⟩
  · refine ⟨_, by simp [gate, hchk], sameAnswers_of_raise htid ?_ rfl rfl⟩
    rintro rfl
    exact checkOf_ne_ok i hchk
  · have hfree : u.touchesBusy i = false := by simp [State.touchesBusy, hs.alone']
    have hid := (startOf_identity i (s.newContext i)).1
    have hid' := (startOf_identity i (u.newContext i)).1
    have hdraw : SameSurroundings s.draw u.draw := ⟨hs.alone, hs.alone', hs.direct, hs.supervised, hs.answers⟩
    obtain ⟨t', hrun', hsame⟩ := drive_same _ (samePlace_startOf hs i) hdraw (hid.trans (htid.trans hid'.symm)) hrun
    exact ⟨t', by simpa [gate, hchk, hov, hfree] using hrun', hsame⟩

end Sys2Proof.Machine

namespace Sys2Proof.Proofs

open Sys2Proof.Machine

/-- Settles O51: two runs over the same surroundings go through the same places, so what the registers held before, the
earlier responses and the free values show in no answer. -/
theorem noTraceOfEarlierCommands : Obligations.NoTraceOfEarlierCommands :=
  fun _ _ _ _ halone halone' htid hdirect hsupervised hanswers h =>
    exec_same ⟨halone, halone', hdirect, hsupervised, hanswers⟩ htid h

end Sys2Proof.Proofs

namespace Sys2Proof.Machine

/-! ## Stores from outside -/

section Stores
variable {s : State} {d : Domain} {a : Word} (b : Byte)

theorem outsideStore_of_busy (h : s.destinationBusy d a.toNat = true) :
    outsideStore d a b s = .refused .storeToBusyDestination := if_pos h

theorem outsideStore_of_free (h : s.destinationBusy d a.toNat = false) :
    outsideStore d a b s = .next (s.poke d a.toNat b) := if_neg (by simp [h])

theorem destinationBusy_of_nothing (h : s.contexts = []) (d : Domain) (a : Nat) : s.destinationBusy d a = false := by
  simp [State.destinationBusy, h]

/-- A requester's store to a byte that is not in use writes that byte (R32). -/
theorem step_of_store {b : Byte} {rest : List Event} (h : s.agenda = .requester (.store d a b) :: rest)
    (free : s.destinationBusy d a.toNat = false) : step s = .next (State.poke { s with agenda := rest } d a.toNat b) := by
  rw [step_of_agenda_cons h]
  exact outsideStore_of_free (s := { s with agenda := rest }) b free

end Stores

end Sys2Proof.Machine

namespace Sys2Proof.Proofs

open Sys2Proof.Machine

/-- Settles O24: the store is a poke where no destination in flight holds the byte. -/
theorem outsideStores : Obligations.OutsideStores := by
  intro s d a b
  refine ⟨outsideStore_of_busy b, fun free => ⟨_, outsideStore_of_free b free, poke_read_eq .., ?_, poke_responses ..⟩⟩
  exact fun d' a' h => poke_read_ne s d a.toNat b h

/-- Settles O23: with nothing in flight both stores write their byte, and the addresses differ. -/
theorem fieldStoredBigEndian : Obligations.FieldStoredBigEndian := by
  intro s a v hagenda halone htop
  have hnext : (a + 1).toNat = a.toNat + 1 := BitVec.toNat_add_of_lt htop
  have hfirst := step_of_store hagenda (destinationBusy_of_nothing halone _ _)
  set t := State.poke { s with agenda := _ } .direct a.toNat (v.extractLsb' 8 8) with ht
  have hsecond := step_of_store (s := t) (d := .direct) (a := a + 1) (b := v.extractLsb' 0 8) (rest := [])
    (by rw [ht, poke_agenda]) (destinationBusy_of_nothing (by simp [ht, halone]) _ _)
  refine ⟨_, _, hfirst, hsecond, ?high, ?low, ?others, ?supervised⟩
  case high =>
    refine (poke_read_ne _ .direct _ _ (e := .direct) (.inr (by omega))).trans ?_
    exact poke_read_eq _ .direct a.toNat _
  case low =>
    rw [← hnext]
    exact poke_read_eq _ .direct _ _
  case others =>
    intro b hb hb'
    refine (poke_read_ne _ .direct _ _ (e := .direct) (.inr (by omega))).trans ?_
    exact poke_read_ne _ .direct _ _ (e := .direct) (.inr hb)
  case supervised => rfl

end Sys2Proof.Proofs

namespace Sys2Proof.Machine

/-! ## Which bytes a step can write -/

/-- A byte in the destination of no COPY in flight or waiting at the port (R39). -/
structure OutOfReach (s : State) (d : Domain) (a : Nat) : Prop where
  flying : ∀ c ∈ s.contexts, rangeCovers (destinationOf c.instr) d a = false
  waiting : ∀ c ∈ s.port, ∀ i, decode c.frame = .command i → rangeCovers (destinationOf i) d a = false

section Reach
variable {s t : State} {d : Domain} {a k : Nat}

theorem read_of_proceed {c : Context} (hout : OutOfReach s d a) (hk : s.contexts[k]? = some c)
    (h : resume k s = .next t ∨ tick k s = .next t) : (t.mem d).read a = (s.mem d).read a := by
  rw [(confined_of_proceed hk h).outside d a (hout.flying c (List.mem_of_getElem? hk)), without_mem]

theorem read_of_resume (hout : OutOfReach s d a) (h : resume k s = .next t) : (t.mem d).read a = (s.mem d).read a := by
  cases hk : s.contexts[k]? with
  | none => simp only [resume, hk] at h; cases h; rfl
  | some c => exact read_of_proceed hout hk (.inl h)

theorem read_of_tick (hout : OutOfReach s d a) (h : tick k s = .next t) : (t.mem d).read a = (s.mem d).read a := by
  cases hk : s.contexts[k]? with
  | none => simp only [tick, hk] at h; cases h; rfl
  | some c => exact read_of_proceed hout hk (.inr h)

theorem read_of_runCaptured {c : Command} {rest : List Command} (hout : OutOfReach s d a) (hc : c ∈ s.port)
    (h : runCaptured (s.capture c rest) = .next t) : (t.mem d).read a = (s.mem d).read a := by
  unfold runCaptured at h
  split at h
  · next i hdec => rw [(confined_of_exec h).outside d a (hout.waiting c hc i hdec), capture_mem]
  · cases h; simp

theorem read_of_acceptCaptured {c : Command} {rest : List Command}
    (h : acceptCaptured (s.capture c rest) = .next t) : (t.mem d).read a = (s.mem d).read a := by
  rcases acceptCaptured_next h with ⟨st, rfl⟩ | ⟨i, _, rfl⟩ <;> simp

theorem read_of_accept (h : accept k s = .next t) : (t.mem d).read a = (s.mem d).read a := by
  unfold accept at h
  split at h
  · cases h; rfl
  · split at h
    · exact read_of_acceptCaptured h
    · cases h; rfl

theorem read_of_advance (hout : OutOfReach s d a) (h : advance s = .next t) : (t.mem d).read a = (s.mem d).read a := by
  unfold advance at h
  split at h
  · exact read_of_resume hout h
  · next c rest hp =>
    split at h
    · exact read_of_runCaptured hout (by simp [hp]) h
    · exact read_of_resume hout h

theorem read_of_engineReset (hout : OutOfReach s d a) : (s.engineReset.mem d).read a = (s.mem d).read a := by
  refine engineReset_induct (P := fun t => (t.mem d).read a = (s.mem d).read a) (by cases d <;> rfl) ?_
  intro c hc t ht
  rw [(touches_abandon t c).outside d a (hout.flying c hc), ht]

/-- An outside store that changes a byte is a store to that byte. -/
theorem address_of_outsideStore {d' : Domain} {w : Word} {b : Byte} (h : outsideStore d' w b s = .next t)
    (hne : (t.mem d).read a ≠ (s.mem d).read a) : d' = d ∧ w.toNat = a := by
  unfold outsideStore at h
  split at h
  · cases h
  · cases h
    by_contra hother
    exact hne (poke_read_ne s d' w.toNat b (by rw [not_and_or] at hother; exact hother.imp Ne.symm Ne.symm))

/-- A byte out of reach changes only by an outside store to it (R39). -/
theorem store_of_serve {e : Event} (hout : OutOfReach s d a) (h : serve e s = .next t)
    (hne : (t.mem d).read a ≠ (s.mem d).read a) :
    ∃ (w : Word) (b : Byte), w.toNat = a ∧ (e = .requester (.store d w b) ∨ e = .environment (.store d w b)) := by
  cases e with
  | engine => exact absurd (read_of_advance hout h) hne
  | requester m =>
    cases m with
    | offer c => cases h; exact absurd (by cases d <;> rfl) hne
    | collect k => cases h; exact absurd (by cases d <;> rfl) hne
    | store d' w b =>
      obtain ⟨rfl, hw⟩ := address_of_outsideStore h hne
      exact ⟨w, b, hw, .inl rfl⟩
  | environment m =>
    cases m with
    | answer x => cases h; exact absurd (by cases d <;> rfl) hne
    | store d' w b =>
      obtain ⟨rfl, hw⟩ := address_of_outsideStore h hne
      exact ⟨w, b, hw, .inr rfl⟩
    | accept k => exact absurd (read_of_accept h) hne
    | tick k => exact absurd (read_of_tick hout h) hne
    | resume k => exact absurd (read_of_resume hout h) hne
    | reset => cases h; exact absurd (read_of_engineReset hout) hne

end Reach

end Sys2Proof.Machine

namespace Sys2Proof.Proofs

open Sys2Proof.Machine

/-- Settles O52: a byte in no destination in flight or waiting is out of reach of every event but a store to it. -/
theorem onlyCopyDestinationsChange : Obligations.OnlyCopyDestinationsChange := by
  intro s t d a h hne
  by_contra hnone
  simp only [not_or, not_exists, not_and, Bool.not_eq_true] at hnone
  obtain ⟨hstore, hflying, hwaiting⟩ := hnone
  have hout : OutOfReach s d a := ⟨hflying, hwaiting⟩
  cases ha : s.agenda with
  | nil => exact hne (read_of_advance hout (by simpa only [step, ha] using h))
  | cons e rest =>
    rw [step_of_agenda_cons ha] at h
    have hmem : State.mem { s with agenda := rest } d = s.mem d := by cases d <;> rfl
    obtain ⟨w, b, hw, he⟩ := store_of_serve (s := { s with agenda := rest }) ⟨hout.flying, hout.waiting⟩ h (by rwa [hmem])
    obtain ⟨hrequester, henvironment⟩ := hstore w b rest hw
    exact he.elim (fun he => hrequester (he ▸ ha)) (fun he => henvironment (he ▸ ha))

end Sys2Proof.Proofs

namespace Sys2Proof.Machine

/-! ## No address outside the address space -/

section Addresses
variable {c : Context} {s : State} {r : Fault}

theorem atAddress_ne_stopped {a : Nat} {p : Progress} (ha : a < addressSpace) (hp : p ≠ .stopped r) :
    atAddress a p ≠ .stopped r := by rwa [atAddress_of_lt p ha]

theorem foldPipeline_ne_stopped : foldPipeline c s ≠ .stopped r := by
  rcases foldPipeline_cases c s with ⟨_, e⟩ | ⟨_, e⟩ | ⟨_, e⟩ | ⟨_, e⟩ <;> simp [e]

theorem accTick_ne_stopped {base len : Word} (hfits : base.toNat + len.toNat ≤ addressSpace) :
    accTick base len c s ≠ .stopped r := by
  unfold accTick
  split
  · exact atAddress_ne_stopped (by omega) (by simp)
  · simp

theorem copyTick_ne_stopped {sdom ddom : Domain} {srcBase len dstBase : Word}
    (hsrc : srcBase.toNat + len.toNat ≤ addressSpace) (hdst : dstBase.toNat + len.toNat ≤ addressSpace) :
    copyTick sdom ddom srcBase len dstBase c s ≠ .stopped r := by
  unfold copyTick
  simp only
  split
  · split
    · unfold copyRead
      split
      · simp
      · simp [copyFault]
      · exact atAddress_ne_stopped (by omega) (by simp)
    · unfold copyWrite
      split
      · simp
      · simp [copyFault]
      · exact atAddress_ne_stopped (by omega) (by simp)
  · simp

theorem phcTick_ne_stopped {proto : Byte} {len16 : Half} {saddr daddr : Word} :
    phcTick proto len16 saddr daddr c s ≠ .stopped r := by
  unfold phcTick
  split
  · simp
  · exact foldPipeline_ne_stopped

theorem fastTick_ne_stopped {words : Half} {base size : Word} (hi : c.instr = .fast words base size)
    (hfits : base.toNat + fastBytes words ≤ addressSpace) (hr : registersLegal c = true) :
    fastTick words base c s ≠ .stopped r := by
  unfold fastTick
  split
  · split
    · next hp =>
      have hword := (fast_word_left hi hr hp).2
      exact atAddress_ne_stopped (by omega) (by simp)
    · exact foldPipeline_ne_stopped
  · exact foldPipeline_ne_stopped

/-- A command that passed its checks forms addresses inside the address space only (R37, R84). -/
theorem tickOf_ne_stopped (hc : checkOf c.instr = none) (hr : registersLegal c = true) :
    tickOf c.instr c s ≠ .stopped r := by
  have hsrc {q : ByteRange} (hq : sourceOf c.instr = some q) := source_fits hc hq
  have hdst {q : ByteRange} (hq : destinationOf c.instr = some q) := destination_fits hc hq
  cases hi : c.instr with rw [hi] at hsrc hdst
  | acc => exact accTick_ne_stopped (hsrc rfl)
  | copy => exact copyTick_ne_stopped (hsrc rfl) (hdst rfl)
  | fold => exact foldPipeline_ne_stopped
  | phc => exact phcTick_ne_stopped
  | fast => exact fastTick_ne_stopped hi (hsrc rfl) hr

theorem flying_ne_stopped {i : Instr} (h : Flying i c s) : tickOf i c s ≠ .stopped r := by
  obtain ⟨rfl, hinv⟩ := h
  obtain ⟨_, hchk, _, hreg⟩ := (contextLegal_iff c).mp (hinv.contexts_legal c (by simp))
  exact tickOf_ne_stopped hchk hreg

theorem drive_ne_fault {i : Instr} (n : Nat) (h : Flying i c s) : drive (tickOf i) n c s ≠ .fault r := by
  refine drive_not_fault (Flying i) (fun c s c' s' h e => ?_) (fun _ _ _ h => flying_ne_stopped h) n h r
  have hnext := flying_tickOf i c s h
  rwa [e] at hnext

theorem gate_ne_fault {check : Option Status} {i : Instr} {go : Context → State → Host.Outcome State Fault Refusal}
    (h : check = none → selfOverlap i = false → s.touchesBusy i = false → go (s.newContext i) s.draw ≠ .fault r) :
    gate check i s go ≠ .fault r := by
  rcases gate_cases check i s go with ⟨st, _, e⟩ | ⟨_, _, e⟩ | ⟨_, _, _, e⟩ | ⟨hc, ho, hb, e⟩ <;> rw [e]
  · simp
  · simp
  · simp
  · exact h hc ho hb

theorem runCaptured_ne_fault (h : s.Inv) (room : s.hasRoom = true) : runCaptured s ≠ .fault r := by
  unfold runCaptured
  split
  · next i hdec =>
    rw [exec_eq_gate]
    refine gate_ne_fault fun hc ho hb => drive_ne_fault _ ⟨(startOf_identity i _).2.2, ?_⟩
    exact inv_open h room ⟨hdec, hc, ho, hb⟩
  · simp

theorem accept_ne_fault (k : Nat) : accept k s ≠ .fault r := by
  unfold accept
  split
  · simp
  · split
    · unfold acceptCaptured
      split
      · exact gate_ne_fault fun _ _ _ => by simp
      · simp
    · simp

theorem resume_ne_fault (k : Nat) (h : s.Inv) : resume k s ≠ .fault r := by
  cases hk : s.contexts[k]? with
  | none => simp [resume, hk]
  | some c =>
    simp only [resume, hk]
    exact drive_ne_fault _ ⟨rfl, inv_without_park h hk⟩

theorem settle_ne_fault {tid : Tid} {p : Progress} (h : ∀ r, p ≠ .stopped r) : settle tid p ≠ .fault r := by
  cases p with
  | stopped r => exact absurd rfl (h r)
  | _ => simp [settle]

theorem tick_ne_fault (k : Nat) (h : s.Inv) : tick k s ≠ .fault r := by
  cases hk : s.contexts[k]? with
  | none => simp [tick, hk]
  | some c =>
    simp only [tick, hk]
    exact settle_ne_fault fun _ => flying_ne_stopped ⟨rfl, inv_without_park h hk⟩

theorem advance_ne_fault (h : s.Inv) : advance s ≠ .fault r := by
  unfold advance
  split
  · exact resume_ne_fault 0 h
  · next c rest _ =>
    split
    · next room => exact runCaptured_ne_fault (h.capture c rest) room
    · exact resume_ne_fault 0 h

theorem outsideStore_ne_fault (d : Domain) (a : Word) (b : Byte) : outsideStore d a b s ≠ .fault r := by
  unfold outsideStore
  split <;> simp

theorem serve_ne_fault (e : Event) (h : s.Inv) : serve e s ≠ .fault r := by
  cases e with
  | engine => exact advance_ne_fault h
  | requester m =>
    cases m with
    | offer c => simp
    | collect k => simp
    | store d a b => exact outsideStore_ne_fault d a b
  | environment m =>
    cases m with
    | answer x => simp
    | store d a b => exact outsideStore_ne_fault d a b
    | accept k => exact accept_ne_fault k
    | tick k => exact tick_ne_fault k h
    | resume k => exact resume_ne_fault k h
    | reset => simp [serve, environmentStep]

end Addresses

end Sys2Proof.Machine

namespace Sys2Proof.Proofs

open Sys2Proof.Machine

/-- Settles O60: the transactions a step lets proceed are legal, so their checks passed and their addresses fit. -/
theorem noAddressFault : Obligations.NoAddressFault := by
  intro s h
  cases ha : s.agenda with
  | nil => simpa only [step, ha] using advance_ne_fault h
  | cons e rest =>
    rw [step_of_agenda_cons ha]
    exact serve_ne_fault e (h.congr (by intro d; cases d <;> rfl) rfl rfl)

end Sys2Proof.Proofs

namespace Sys2Proof.Machine

/-! ## How many micro-steps are left -/

/-- How many more stages of the pipeline go on (R112). -/
def stagesLeft : Phase → Nat
  | .gather => 3
  | .stage1 => 2
  | .stage2 => 1
  | .output => 0

/-- How many more micro-steps of a transaction can go on before one ends it (the grain: log entry 9). -/
def stepsLeft : Instr → Context → Nat
  | .acc _ _ _ len, c => len.toNat - c.pos.toNat
  | .copy _ _ _ _ _ len _ _, c => 2 * (len.toNat - c.pos.toNat) - if c.latch = none then 0 else 1
  | .fold _, c => stagesLeft c.phase
  | .phc _ _ _ _ _, c => stagesLeft c.phase
  | .fast words _ _, c =>
    stagesLeft c.phase + if c.phase = .gather then (fastBytes words - c.pos.toNat + 3) / 4 else 0

section StepsLeft
variable {c c' : Context} {s s' : State}

theorem stagesLeft_lt_of_foldPipeline (h : foldPipeline c s = .busy c' s') :
    stagesLeft c'.phase < stagesLeft c.phase ∧ c'.phase ≠ .gather := by
  rcases foldPipeline_cases c s with ⟨hp, e⟩ | ⟨hp, e⟩ | ⟨hp, e⟩ | ⟨hp, e⟩ <;> rw [e] at h <;> cases h <;>
    simp [hp, stagesLeft]

theorem stepsLeft_accTick {seed base size len : Word} (h : accTick base len c s = .busy c' s') :
    stepsLeft (.acc seed base size len) c' < stepsLeft (.acc seed base size len) c := by
  have hpos := accTick_pos h
  unfold accTick at h
  split at h
  · next hp =>
    simp only [stepsLeft, hpos, toNat_add_one hp]
    omega
  · cases h

/-- A read fills the latch, a write empties it and moves POS on (R97). -/
theorem stepsLeft_copyTick {sdom ddom : Domain} {seed srcBase srcSize len dstBase dstSize : Word}
    (h : copyTick sdom ddom srcBase len dstBase c s = .busy c' s') :
    stepsLeft (.copy sdom ddom seed srcBase srcSize len dstBase dstSize) c' <
      stepsLeft (.copy sdom ddom seed srcBase srcSize len dstBase dstSize) c := by
  unfold copyTick at h
  simp only at h
  split at h
  next hp =>
    split at h
    next hl =>
      unfold copyRead at h
      split at h
      · cases h
      · cases h
      · cases atAddress_busy h
        simp [stepsLeft, hl]
        omega
    next x hl =>
      unfold copyWrite at h
      split at h
      · cases h
      · cases h
      · cases atAddress_busy h
        simp [stepsLeft, hl]
        omega
  next => cases h

theorem stagesLeft_phcTick {proto : Byte} {len16 : Half} {saddr daddr : Word}
    (h : phcTick proto len16 saddr daddr c s = .busy c' s') : stagesLeft c'.phase < stagesLeft c.phase := by
  unfold phcTick at h
  split at h
  · next hp => cases h; simp [hp, stagesLeft]
  · exact (stagesLeft_lt_of_foldPipeline h).1

theorem stepsLeft_fastTick {words : Half} {base size : Word} (h : fastTick words base c s = .busy c' s') :
    stepsLeft (.fast words base size) c' < stepsLeft (.fast words base size) c := by
  have hstage (h : foldPipeline c s = .busy c' s') :
      stepsLeft (.fast words base size) c' < stepsLeft (.fast words base size) c := by
    obtain ⟨hlt, hne⟩ := stagesLeft_lt_of_foldPipeline h
    simp only [stepsLeft, if_neg hne]
    omega
  unfold fastTick at h
  split at h
  · next hg =>
    split at h
    · next hp =>
      cases atAddress_busy h
      simp only [stepsLeft, hg, if_true, toNat_add_four hp]
      omega
    · exact hstage h
  · exact hstage h

/-- A micro-step that goes on leaves fewer to go. -/
theorem stepsLeft_lt_of_busy {i : Instr} (h : tickOf i c s = .busy c' s') : stepsLeft i c' < stepsLeft i c := by
  cases i with
  | acc => exact stepsLeft_accTick h
  | copy => exact stepsLeft_copyTick h
  | fold => exact (stagesLeft_lt_of_foldPipeline h).1
  | phc => exact stagesLeft_phcTick h
  | fast => exact stepsLeft_fastTick h

theorem stagesLeft_le (p : Phase) : stagesLeft p ≤ 3 := by cases p <;> decide

/-- A run is given more micro-steps than a legal transaction can need. -/
theorem stepsLeft_lt_stepsOf (hr : registersLegal c = true) : stepsLeft c.instr c < stepsOf c.instr := by
  have hstages := stagesLeft_le c.phase
  cases hi : c.instr with
  | acc seed base size len =>
    simp only [stepsLeft, stepsOf, accSteps]
    omega
  | copy sdom ddom seed srcBase srcSize len dstBase dstSize =>
    simp only [stepsLeft, stepsOf, copySteps]
    omega
  | fold sum =>
    have hphase := ((registersLegal_fold hi).mp hr).1
    simp only [stepsLeft, stepsOf, foldSteps]
    cases hp : c.phase with
    | gather => exact absurd hp hphase
    | _ => decide
  | phc proto len16 sum saddr daddr =>
    simp only [stepsLeft, stepsOf, phcSteps]
    omega
  | fast words base size =>
    simp only [stepsLeft, stepsOf, fastSteps, fastBytes]
    split <;> omega

/-- With enough micro-steps allowed, how many more are allowed does not show. -/
theorem drive_fuel {i : Instr} {n m : Nat} (hn : stepsLeft i c < n) (hm : stepsLeft i c < m) :
    drive (tickOf i) n c s = drive (tickOf i) m c s := by
  induction n generalizing m c s with
  | zero => omega
  | succ n ih =>
    obtain ⟨m, rfl⟩ := Nat.exists_eq_add_one_of_ne_zero (Nat.ne_of_gt (Nat.zero_lt_of_lt hm))
    unfold drive
    cases e : tickOf i c s with
    | busy c' s' =>
      have hlt := stepsLeft_lt_of_busy e
      exact ih (by omega) (by omega)
    | _ => rfl

/-- A run goes on from where its first micro-step leads. -/
theorem drive_of_busy {i : Instr} {n : Nat} (hn : stepsLeft i c < n) (e : tickOf i c s = .busy c' s') :
    drive (tickOf i) n c s = drive (tickOf i) n c' s' := by
  obtain ⟨n, rfl⟩ := Nat.exists_eq_add_one_of_ne_zero (Nat.ne_of_gt (Nat.zero_lt_of_lt hn))
  have hlt := stepsLeft_lt_of_busy e
  rw [drive, e]
  exact drive_fuel (by omega) (by omega)

/-- A micro-step after which the transaction is still in flight went on, or changed nothing. -/
theorem settle_inFlight {dest : Option ByteRange} {p : Progress} {t : State} (hp : p.Within dest c s)
    (h : settle c.tid p = .next t) (hlen : t.contexts.length = s.contexts.length + 1) :
    ∃ c' u, t = u.park c' ∧ u.contexts.length = s.contexts.length ∧ c'.instr = c.instr ∧
      (p = .busy c' u ∨ c' = c ∧ u = s) := by
  cases p with
  | busy c' u =>
    cases h
    obtain ⟨⟨_, _, hinstr⟩, ht⟩ := hp
    exact ⟨c', u, rfl, ht.contexts.length_eq, hinstr, .inl rfl⟩
  | waiting c' u =>
    cases h
    obtain ⟨rfl, rfl, _⟩ := hp
    exact ⟨c', u, rfl, rfl, rfl, .inr ⟨rfl, rfl⟩⟩
  | returned v u =>
    cases h
    have hkept := hp.contexts.length_eq
    rw [respond_contexts] at hlen
    omega
  | raised st u =>
    cases h
    have hkept := hp.2.1.contexts.length_eq
    rw [raise_contexts] at hlen
    omega
  | stopped r => cases h

end StepsLeft

end Sys2Proof.Machine

namespace Sys2Proof.Proofs

open Sys2Proof.Machine

/-- Settles O18: the run goes on from where its first micro-step led, and is allowed more micro-steps than it needs. -/
theorem microStepsCompose : Obligations.MicroStepsCompose := by
  intro s t k c hlen hk hlegal htick hsame
  have hrest : (s.without k).contexts.length = k := by simp [List.length_eraseIdx, hlen]
  have hresume : resume k s = drive (tickOf c.instr) (stepsOf c.instr) c (s.without k) := by simp only [resume, hk]
  simp only [tick, hk] at htick
  obtain ⟨c', u, rfl, hkept, hinstr, hnext⟩ :=
    settle_inFlight (within_tickOf c.instr c (s.without k)) htick (by omega)
  have hparked := resume_park c' u
  rw [hkept, hrest, hinstr] at hparked
  rw [hparked, hresume]
  rcases hnext with e | ⟨rfl, rfl⟩
  · have hleft := stepsLeft_lt_stepsOf ((contextLegal_iff c).mp hlegal).2.2.2
    exact (drive_of_busy hleft e).symm
  · rfl

end Sys2Proof.Proofs

namespace Sys2Proof.Machine

/-! ## More answers of the environment -/

/-- The state when the environment has given more answers (R40). -/
def State.answered (s : State) (later : List Answer) : State := { s with answers := s.answers ++ later }

section Answered
variable {c c' : Context} {s s' : State} (later : List Answer)

@[simp] theorem answered_contexts (s : State) : (s.answered later).contexts = s.contexts := rfl

theorem sourceByte_answered (s : State) (c : Context) (d : Domain) (a : Nat) :
    (s.answered later).sourceByte c d a = s.sourceByte c d a := by cases d <;> rfl

theorem afterSource_answered (s : State) (c : Context) (a : Nat) :
    (s.answered later).afterSource c a = (s.afterSource c a).answered later := by
  unfold State.afterSource
  split <;> rfl

theorem mem_answered (s : State) (d : Domain) : (s.answered later).mem d = s.mem d := by cases d <;> rfl

theorem poke_answered (s : State) (d : Domain) (a : Nat) (v : Byte) :
    (s.answered later).poke d a v = (s.poke d a v).answered later := by cases d <;> rfl

/-- What is granted stays granted when more answers come behind. -/
theorem ask_answered {d : Domain} (h : s.ask d = .granted s') :
    (s.answered later).ask d = .granted (s'.answered later) := by
  rcases ask_cases s d with ⟨rfl, e⟩ | ⟨_, _, e⟩ | ⟨rest, rfl, ha, e⟩ | ⟨_, _, _, e⟩ <;> rw [e] at h <;> cases h
  · rfl
  · simp [State.ask, State.answered, ha]

theorem atAddress_eq_busy_iff {a : Nat} {p : Progress} :
    atAddress a p = .busy c s ↔ a < addressSpace ∧ p = .busy c s := by
  rcases atAddress_cases a p with ⟨ha, e⟩ | ⟨ha, e⟩ <;> rw [e]
  · simp [ha]
  · simp [Nat.not_lt.mpr ha]

theorem copyRead_answered {sdom : Domain} {srcBase : Word} {dest : ByteRange}
    (h : copyRead sdom srcBase dest c s = .busy c' s') :
    copyRead sdom srcBase dest c (s.answered later) = .busy c' (s'.answered later) := by
  unfold copyRead at h ⊢
  split at h
  · cases h
  · cases h
  · next t hask =>
    obtain ⟨ha, e⟩ := atAddress_eq_busy_iff.mp h
    cases e
    simp only [ask_answered later hask, sourceByte_answered, afterSource_answered, atAddress_of_lt _ ha]

theorem copyWrite_answered {ddom : Domain} {dstBase : Word} {dest : ByteRange} {x : Byte}
    (h : copyWrite ddom dstBase dest x c s = .busy c' s') :
    copyWrite ddom dstBase dest x c (s.answered later) = .busy c' (s'.answered later) := by
  unfold copyWrite at h ⊢
  split at h
  · cases h
  · cases h
  · next t hask =>
    obtain ⟨ha, e⟩ := atAddress_eq_busy_iff.mp h
    cases e
    simp only [ask_answered later hask, mem_answered, poke_answered, atAddress_of_lt _ ha]

/-- A micro-step of COPY that goes on does the same when more answers come behind. -/
theorem copyTick_answered {sdom ddom : Domain} {srcBase len dstBase : Word}
    (h : copyTick sdom ddom srcBase len dstBase c s = .busy c' s') :
    copyTick sdom ddom srcBase len dstBase c (s.answered later) = .busy c' (s'.answered later) := by
  unfold copyTick at h ⊢
  simp only at h ⊢
  split at h
  next hp =>
    rw [if_pos hp]
    split at h
    next hl => simpa only [hl] using copyRead_answered later h
    next x hl => simpa only [hl] using copyWrite_answered later h
  next => cases h

theorem tickOf_answered {i : Instr} (hd : destinationOf i ≠ none) (h : tickOf i c s = .busy c' s') :
    tickOf i c (s.answered later) = .busy c' (s'.answered later) := by
  cases i with
  | copy => exact copyTick_answered later h
  | _ => exact absurd rfl hd

end Answered

/-- A COPY that runs out of answers is in flight where its run goes on when more have come (R104). -/
theorem drive_suspended {i : Instr} (hd : destinationOf i ≠ none) {n : Nat} {c : Context} {s t : State}
    (hn : stepsLeft i c < n) (h : drive (tickOf i) n c s = .next t)
    (hlen : t.contexts.length = s.contexts.length + 1) :
    ∃ (c' : Context) (u : State), t = u.park c' ∧ c'.instr = c.instr ∧ u.contexts.length = s.contexts.length ∧
      u.answers = [] ∧ ∀ later m, stepsLeft i c < m →
        drive (tickOf i) m c (s.answered later) = drive (tickOf i) m c' (u.answered later) := by
  induction n generalizing c s with
  | zero => omega
  | succ n ih =>
    have hwithin := within_tickOf i c s
    unfold drive at h
    cases e : tickOf i c s with
    | busy c1 s1 =>
      rw [e] at h hwithin
      obtain ⟨⟨_, _, hinstr⟩, ht⟩ := hwithin
      have hkept := ht.contexts.length_eq
      have hlt := stepsLeft_lt_of_busy e
      obtain ⟨c', u, hpark, hinstr', hlen', hnil, hrun⟩ := ih (by omega) h (by omega)
      refine ⟨c', u, hpark, hinstr'.trans hinstr, hlen'.trans hkept, hnil, fun later m hm => ?_⟩
      rw [drive_of_busy hm (tickOf_answered later hd e)]
      exact hrun later m (by omega)
    | waiting c' u =>
      rw [e] at h hwithin
      cases h
      obtain ⟨rfl, rfl, hnil, _⟩ := hwithin
      exact ⟨c', u, rfl, rfl, rfl, hnil, fun _ _ _ => rfl⟩
    | returned v u =>
      rw [e] at h hwithin
      cases h
      have hkept := hwithin.contexts.length_eq
      rw [respond_contexts] at hlen
      omega
    | raised st u =>
      rw [e] at h hwithin
      cases h
      have hkept := hwithin.2.1.contexts.length_eq
      rw [raise_contexts] at hlen
      omega
    | stopped r => rw [e] at h; cases h

/-- A command that gate lets through runs from its first register writes. -/
theorem exec_of_admitted {i : Instr} {s : State} (hchk : checkOf i = none) (hov : selfOverlap i = false)
    (hfree : s.touchesBusy i = false) :
    exec i s = drive (tickOf i) (stepsOf i) (startOf i (s.newContext i)) s.draw := by
  simp [exec_eq_gate, gate, hchk, hov, hfree]

/-- A command starts with fewer micro-steps to go than its run is given. -/
theorem stepsLeft_startOf (i : Instr) (s : State) : stepsLeft i (startOf i (s.newContext i)) < stepsOf i := by
  have hinstr : (startOf i (s.newContext i)).instr = i := (startOf_identity i (s.newContext i)).2.2
  have hlt := stepsLeft_lt_stepsOf (registersLegal_startOf (i := i) (c := s.newContext i) rfl rfl rfl)
  rwa [hinstr] at hlt

end Sys2Proof.Machine

namespace Sys2Proof.Proofs

open Sys2Proof.Machine

/-- Settles O36: with the later answers behind the first ones the run passes through the place where it was suspended. -/
theorem suspensionIsInvisible : Obligations.SuspensionIsInvisible := by
  intro sdom ddom seed srcBase srcSize len dstBase dstSize s t first later i h hlen
  rw [exec_eq_gate] at h
  rcases gate_next h with ⟨st, _, rfl⟩ | ⟨hchk, hov, hfree, hrun⟩
  · simp at hlen
  have hleft := stepsLeft_startOf i { s with answers := first }
  obtain ⟨c', u, rfl, hinstr, hkept, hnil, hmore⟩ :=
    drive_suspended (by simp [i, destinationOf]) hleft hrun hlen
  have hatOnce : exec i { s with answers := first ++ later } = drive (tickOf i) (stepsOf i) c' (u.answered later) :=
    (exec_of_admitted (s := { s with answers := first ++ later }) hchk hov hfree).trans (hmore later _ hleft)
  have hpark : { u.park c' with answers := later } = (u.answered later).park c' := by
    simp [State.park, State.answered, hnil]
  have hresume := resume_park c' (u.answered later)
  rw [answered_contexts, hkept, hinstr] at hresume
  rw [hatOnce, hpark]
  exact hresume

end Sys2Proof.Proofs

namespace Sys2Proof.Machine

/-! ## The fold of two sums -/

theorem add1c32_toNat (a b : Word) :
    (add1c32 a b).toNat = (a.toNat + b.toNat) % 4294967296 + (a.toNat + b.toNat) / 4294967296 := by
  have ha := a.isLt
  have hb := b.isLt
  simp only [add1c32, BitVec.toNat_ofNat]
  omega

/-- Addition with end-around carry keeps the sum modulo 65535 (R71, R78). -/
theorem add1c32_residue (a b : Word) : (add1c32 a b).toNat % 65535 = (a.toNat + b.toNat) % 65535 := by
  rw [add1c32_toNat]
  omega

theorem add1c32_eq_zero (a b : Word) : (add1c32 a b).toNat = 0 ↔ a.toNat = 0 ∧ b.toNat = 0 := by
  rw [add1c32_toNat]
  omega

theorem be16_toNat (b0 b1 : Byte) : (be16 b0 b1).toNat = b0.toNat * 256 + b1.toNat := by
  rw [be16, BitVec.toNat_append, ← Nat.shiftLeft_add_eq_or_of_lt b1.isLt, Nat.shiftLeft_eq]

/-- A big-endian word is its two halves (R72). -/
theorem be32_toNat (b0 b1 b2 b3 : Byte) :
    (be32 b0 b1 b2 b3).toNat = (be16 b0 b1).toNat * 65536 + (be16 b2 b3).toNat := by
  rw [be16_toNat b2 b3, be32, BitVec.toNat_append, BitVec.toNat_append, ← be16,
    ← Nat.shiftLeft_add_eq_or_of_lt b2.isLt, ← Nat.shiftLeft_add_eq_or_of_lt b3.isLt, Nat.shiftLeft_eq, Nat.shiftLeft_eq]
  omega

theorem foldStage1_toNat (s : Word) : (foldStage1 s).toNat = s.toNat % 65536 + s.toNat / 65536 := by
  have hhigh : s.toNat / 65536 < 65536 := by have := s.isLt; omega
  simp [foldStage1, BitVec.toNat_add, Nat.shiftRight_eq_div_pow, Nat.mod_eq_of_lt hhigh]
  omega

theorem foldStage2_toNat {t : Stage} (ht : t.toNat ≤ 131070) :
    (foldStage2 t).toNat = t.toNat % 65536 + t.toNat / 65536 := by
  have hcarry : t.toNat / 65536 < 2 := by omega
  simp [foldStage2, foldStage2Of, Config.foldForm, BitVec.toNat_add, Nat.shiftRight_eq_div_pow, Nat.mod_eq_of_lt hcarry]
  omega

theorem fold16_toNat (s : Word) :
    (fold16 s).toNat = (s.toNat % 65536 + s.toNat / 65536) % 65536 + (s.toNat % 65536 + s.toNat / 65536) / 65536 := by
  have hstage := foldStage1_toNat s
  have hs := s.isLt
  rw [fold16, foldStage2_toNat (by omega), hstage]

/-- The fold keeps the value modulo 65535 (R78). -/
theorem fold16_residue (s : Word) : (fold16 s).toNat % 65535 = s.toNat % 65535 := by
  rw [fold16_toNat]
  omega

theorem fold16_eq_zero (s : Word) : (fold16 s).toNat = 0 ↔ s.toNat = 0 := by
  rw [fold16_toNat]
  omega

/-- Two sums that fold alike: equal modulo 65535, and zero together (R78). -/
structure SameFold (s t : Word) : Prop where
  residue : s.toNat % 65535 = t.toNat % 65535
  zero : s.toNat = 0 ↔ t.toNat = 0

theorem SameFold.fold16_eq {s t : Word} (h : SameFold s t) : fold16 s = fold16 t := by
  have hresidue : (fold16 s).toNat % 65535 = (fold16 t).toNat % 65535 := by
    rw [fold16_residue, fold16_residue, h.residue]
  have hzero : (fold16 s).toNat = 0 ↔ (fold16 t).toNat = 0 := by
    rw [fold16_eq_zero, fold16_eq_zero, h.zero]
  have hs := (fold16 s).isLt
  have ht := (fold16 t).isLt
  apply BitVec.eq_of_toNat_eq
  omega

theorem SameFold.add {s t : Word} (h : SameFold s t) (w : Word) : SameFold (add1c32 s w) (add1c32 t w) where
  residue := by rw [add1c32_residue, add1c32_residue, Nat.add_mod, h.residue, ← Nat.add_mod]
  zero := by rw [add1c32_eq_zero, add1c32_eq_zero, h.zero]

theorem SameFold.sumWords {s t : Word} (h : SameFold s t) (l : List Half) :
    SameFold (sumWords s l) (sumWords t l) := by
  induction l generalizing s t with
  | nil => exact h
  | cons w rest ih => exact ih (h.add _)

/-- Adding a 32-bit word folds like adding its two halves (R78, R131). -/
theorem sameFold_be32 (s : Word) (b0 b1 b2 b3 : Byte) :
    SameFold (add1c32 s (be32 b0 b1 b2 b3))
      (add1c32 (add1c32 s ((be16 b0 b1).setWidth 32)) ((be16 b2 b3).setWidth 32)) := by
  have hwidth (x : Half) : (x.setWidth 32).toNat = x.toNat := BitVec.toNat_setWidth_of_le (by decide)
  constructor
  · rw [add1c32_residue, add1c32_residue, Nat.add_mod (add1c32 _ _).toNat, add1c32_residue, ← Nat.add_mod, hwidth, hwidth,
      be32_toNat]
    omega
  · rw [add1c32_eq_zero, add1c32_eq_zero, add1c32_eq_zero, hwidth, hwidth, be32_toNat]
    omega

/-- The checksum of bytes summed as 32-bit words is that of the bytes summed as 16-bit words (R131). -/
theorem csum16_accBytes_be32 (s : Word) (b0 b1 b2 b3 : Byte) (rest : List Byte) :
    csum16 (accBytes (add1c32 s (be32 b0 b1 b2 b3)) rest) = csum16 (accBytes s (b0 :: b1 :: b2 :: b3 :: rest)) :=
  congrArg complementFold ((sameFold_be32 s b0 b1 b2 b3).sumWords (wordsOf rest)).fold16_eq

/-! ## The sum of a byte loop -/

/-- The sum a byte loop ends with when these bytes are still to come (R74). -/
def Context.total (c : Context) (b : List Byte) : Word :=
  if c.holdv then accBytes c.sum (c.hold :: b) else accBytes c.sum b

theorem total_nil (c : Context) : c.total [] = c.flush.sum := by
  unfold Context.total Context.flush
  split <;> rfl

theorem total_cons (c : Context) (x : Byte) (b : List Byte) : c.total (x :: b) = (c.feed x).total b := by
  unfold Context.total Context.feed
  split <;> rfl

/-! ## Bytes as a racing command reads them -/

/-- Bytes as a command may read them from an address on: each is what memory holds or a noted value (R49, log entry 10). -/
def ReadsAs (m : Memory) (notes : List Host.Cell) (a : Nat) (b : List Byte) : Prop :=
  ∀ k (h : k < b.length), b[k] = m.read (a + k) ∨ (a + k, b[k]) ∈ notes

theorem readsAs_nil (m : Memory) (notes : List Host.Cell) (a : Nat) : ReadsAs m notes a [] :=
  fun _ h => absurd h (Nat.not_lt_zero _)

theorem ReadsAs.cons {m : Memory} {notes : List Host.Cell} {a : Nat} {x : Byte} {b : List Byte}
    (hx : x = m.read a ∨ (a, x) ∈ notes) (hb : ReadsAs m notes (a + 1) b) : ReadsAs m notes a (x :: b) := by
  intro k h
  cases k with
  | zero => exact hx
  | succ k =>
    have hk := hb k (Nat.lt_of_succ_lt_succ h)
    rwa [Nat.add_right_comm] at hk

/-- Memory elsewhere does not matter. -/
theorem ReadsAs.congr {m p : Memory} {notes : List Host.Cell} {a : Nat} {b : List Byte} (h : ReadsAs m notes a b)
    (hmem : ∀ x, a ≤ x → x < a + b.length → m.read x = p.read x) : ReadsAs p notes a b := by
  intro k hk
  rw [← hmem (a + k) (by omega) (by omega)]
  exact h k hk

/-! ## The runs of the commands that write nothing -/

section PureRuns
variable {c : Context} {s : State}

/-- From its first stage the pipeline returns the checksum of the sum (R112). -/
theorem drive_stages {f : Context → State → Progress} (hf : ∀ c s, c.phase ≠ .gather → f c s = foldPipeline c s)
    (hp : c.phase = .stage1) :
    drive f 3 c s = .next (s.respond c.tid .ok (checksumResult (csum16 c.sum))) := by
  simp [drive, hf, foldPipeline, hp]
  rfl

theorem drive_phc {proto : Byte} {len16 : Half} {saddr daddr : Word} (hp : c.phase = .gather) :
    drive (phcTick proto len16 saddr daddr) 4 c s =
      .next (s.respond c.tid .ok (checksumResult (csum16 (phcSum proto len16 c.sum saddr daddr)))) := by
  rw [drive, phcTick, hp]
  exact drive_stages (fun c s hne => by unfold phcTick; split <;> [contradiction; rfl]) rfl

/-- A run of ACC returns the sum of the bytes it reads (R34, R87). -/
theorem drive_acc {base len : Word} (hfits : base.toNat + len.toNat ≤ addressSpace) (n : Nat)
    (hpos : c.pos.toNat + n = len.toNat) :
    ∃ (b : List Byte) (d : Nat), b.length = n ∧ ReadsAs s.direct c.stale (base.toNat + c.pos.toNat) b ∧
      drive (accTick base len) (n + 1) c s = .next (State.respond { s with draws := d } c.tid .ok (c.total b)) := by
  induction n generalizing c s with
  | zero =>
    refine ⟨[], s.draws, rfl, readsAs_nil _ _ _, ?_⟩
    rw [drive, accTick, if_neg (by omega), total_nil]
  | succ n ih =>
    have hp : c.pos.toNat < len.toNat := by omega
    have htick := accTick_goes_on (s := s) (base := base) hp (by omega)
    obtain ⟨d0, hdraw⟩ := afterSource_eq s c (base.toNat + c.pos.toNat)
    rw [hdraw] at htick
    obtain ⟨b, d, hlen, hreads, hrun⟩ := ih (c := c.feed (s.sourceByte c .direct (base.toNat + c.pos.toNat)))
      (s := { s with draws := d0 }) (by rw [feed_pos, toNat_add_one hp]; omega)
    rw [feed_stale, feed_pos, toNat_add_one hp] at hreads
    rw [feed_tid, ← total_cons] at hrun
    refine ⟨_ :: b, d, by simp [hlen], hreads.cons (sourceByte_cases s c .direct _), ?_⟩
    rw [drive, htick]
    exact hrun

/-- The word FAST reads, from bytes as a racing command reads them (R35, R130). -/
theorem fastWord_readsAs (a : Nat) (c : Context) (s : State) :
    ∃ (b0 b1 b2 b3 : Byte) (d : Nat), fastWord a c s = be32 b0 b1 b2 b3 ∧ afterFastWord a c s = { s with draws := d } ∧
      ∀ rest, ReadsAs s.direct c.stale (a + 4) rest → ReadsAs s.direct c.stale a (b0 :: b1 :: b2 :: b3 :: rest) := by
  obtain ⟨d1, h1⟩ := afterSource_eq s c a
  obtain ⟨d2, h2⟩ := afterSource_eq { s with draws := d1 } c (a + 1)
  obtain ⟨d3, h3⟩ := afterSource_eq { s with draws := d2 } c (a + 2)
  obtain ⟨d4, h4⟩ := afterSource_eq { s with draws := d3 } c (a + 3)
  have byte (d : Nat) (a : Nat) := sourceByte_cases { s with draws := d } c .direct a
  refine ⟨_, _, _, _, d4, rfl, by simp only [afterFastWord, h1, h2, h3, h4], fun rest hrest => ?_⟩
  simp only [h1, h2, h3]
  exact (((hrest.cons (byte d3 _)).cons (byte d2 _)).cons (byte d1 _)).cons (sourceByte_cases s c .direct a)

/-- A run of FAST returns the checksum of the bytes it reads (R130, R131). -/
theorem drive_fast {words : Half} {base : Word} (hfits : base.toNat + fastBytes words ≤ addressSpace) (n : Nat)
    (hg : c.phase = .gather) (hpos : c.pos.toNat + 4 * n = fastBytes words) :
    ∃ (b : List Byte) (d : Nat), b.length = 4 * n ∧ ReadsAs s.direct c.stale (base.toNat + c.pos.toNat) b ∧
      drive (fastTick words base) (n + 4) c s =
        .next (State.respond { s with draws := d } c.tid .ok (checksumResult (csum16 (accBytes c.sum b)))) := by
  induction n generalizing c s with
  | zero =>
    refine ⟨[], s.draws, rfl, readsAs_nil _ _ _, ?_⟩
    have htick : fastTick words base c s = .busy { c with phase := .stage1 } s := by
      simp only [fastTick, hg, if_neg (show ¬c.pos.toNat < fastBytes words by omega), foldPipeline]
    rw [drive, htick]
    exact drive_stages (fun c s hne => by unfold fastTick; split <;> [contradiction; rfl]) rfl
  | succ n ih =>
    have hp : c.pos.toNat < fastBytes words := by omega
    have htick := fastTick_goes_on (s := s) hg hp (base := base) (by omega)
    obtain ⟨b0, b1, b2, b3, d0, hword, hafter, hreads⟩ := fastWord_readsAs (base.toNat + c.pos.toNat) c s
    rw [hword, hafter] at htick
    obtain ⟨b, d, hlen, hrest, hrun⟩ := ih (c := { c with sum := add1c32 c.sum (be32 b0 b1 b2 b3), pos := c.pos + 4 })
      (s := { s with draws := d0 }) hg (by rw [toNat_add_four hp]; omega)
    simp only [toNat_add_four hp] at hrest
    rw [csum16_accBytes_be32] at hrun
    refine ⟨b0 :: b1 :: b2 :: b3 :: b, d, by simp [hlen]; omega, hreads b hrest, ?_⟩
    rw [Nat.add_right_comm, drive, htick]
    exact hrun

end PureRuns

/-! ## The commands that write nothing, executed -/

section PureCommands
variable (s : State)

/-- A command that writes nothing and passed its checks runs from its first register writes. -/
theorem exec_of_pure {i : Instr} (hd : destinationOf i = none) (hchk : checkOf i = none) :
    exec i s = drive (tickOf i) (stepsOf i) (startOf i (s.newContext i)) s.draw :=
  exec_of_admitted hchk (selfOverlap_of_no_destination hd) (touchesBusy_of_no_destination hd s)

theorem exec_of_failed {i : Instr} {st : Status} (h : checkOf i = some st) :
    exec i s = .next (s.raise s.cmd.tid st) := by
  simp only [exec_eq_gate, gate, h]

theorem exec_acc {seed base size len : Word} (hchk : accCheck base size len = none) :
    ∃ (b : List Byte) (d : Nat), b.length = len.toNat ∧
      ReadsAs s.direct (s.overwritten (.acc seed base size len)) base.toNat b ∧
      exec (.acc seed base size len) s =
        .next { s with responses := s.responses ++ [⟨s.cmd.tid, 0, accBytes seed b⟩], draws := d } := by
  obtain ⟨b, d, hlen, hreads, hrun⟩ := drive_acc (c := accStart seed (s.newContext (.acc seed base size len)))
    (s := s.draw) (view_fits (accCheck_eq_none.mp hchk)) len.toNat (by simp [accStart])
  exact ⟨b, d, hlen, hreads, (exec_of_pure s (i := .acc seed base size len) rfl hchk).trans hrun⟩

theorem exec_fast {words : Half} {base size : Word} (hchk : fastCheck words base size = none) :
    ∃ (b : List Byte) (d : Nat), b.length = 4 * words.toNat ∧
      ReadsAs s.direct (s.overwritten (.fast words base size)) base.toNat b ∧
      exec (.fast words base size) s = .next
        { s with responses := s.responses ++ [⟨s.cmd.tid, 0, checksumResult (csum16 (accBytes 0 b))⟩], draws := d } := by
  obtain ⟨b, d, hlen, hreads, hrun⟩ := drive_fast (c := fastStart (s.newContext (.fast words base size)))
    (s := s.draw) (view_fits (fastCheck_eq_none.mp hchk).2.1) words.toNat rfl (by simp [fastStart, fastBytes])
  exact ⟨b, d, hlen, hreads, (exec_of_pure s (i := .fast words base size) rfl hchk).trans hrun⟩

theorem exec_fold (sum : Word) :
    exec (.fold sum) s = .next
      { s with responses := s.responses ++ [⟨s.cmd.tid, 0, checksumResult (csum16 sum)⟩], draws := s.draws + 1 } :=
  (exec_of_pure s rfl rfl).trans (drive_stages (fun _ _ _ => rfl) rfl)

theorem exec_phc (proto : Byte) (len16 : Half) (sum saddr daddr : Word) :
    exec (.phc proto len16 sum saddr daddr) s = .next
      { s with
        responses := s.responses ++ [⟨s.cmd.tid, 0, checksumResult (csum16 (phcSum proto len16 sum saddr daddr))⟩]
        draws := s.draws + 1 } :=
  (exec_of_pure s rfl rfl).trans (drive_phc rfl)

/-- A command that writes nothing and passed its checks answers OK, and only counts free values besides (R39, R153). -/
theorem exec_pure_returns {i : Instr} (hd : destinationOf i = none) (hchk : checkOf i = none) :
    ∃ (v : Word) (d : Nat),
      exec i s = .next { s with responses := s.responses ++ [⟨s.cmd.tid, 0, v⟩], draws := d } := by
  cases i with
  | acc => obtain ⟨b, d, _, _, hrun⟩ := exec_acc s hchk; exact ⟨_, d, hrun⟩
  | copy => cases hd
  | fold sum => exact ⟨_, _, exec_fold s sum⟩
  | phc => exact ⟨_, _, exec_phc ..⟩
  | fast => obtain ⟨b, d, _, _, hrun⟩ := exec_fast s hchk; exact ⟨_, d, hrun⟩

end PureCommands

/-! ## Views that fit -/

theorem viewInvalid_of_fits {base size : Word} {n : Nat} (h : ViewFits base size n) : viewInvalid base size n = false := by
  obtain ⟨htop, hsize⟩ := h
  exact Bool.or_eq_false_iff.mpr ⟨decide_eq_false (Nat.not_lt.mpr htop), decide_eq_false (Nat.not_lt.mpr hsize)⟩

/-- The checks of FAST pass on a valid aligned header (R129). -/
theorem fastCheck_of_valid {words : Half} {base size : Word} (hmin : 5 ≤ words.toNat) (hmax : words.toNat ≤ 15)
    (hfits : ViewFits base size (4 * words.toNat)) (haligned : base.toNat % 4 = 0) :
    fastCheck words base size = none := by
  refine fastCheck_eq_none.mpr ⟨?count, viewInvalid_of_fits hfits, ?alignment⟩
  case count => exact Bool.or_eq_false_iff.mpr ⟨decide_eq_false (Nat.not_lt.mpr hmin), decide_eq_false (Nat.not_lt.mpr hmax)⟩
  case alignment =>
    have hlow : base.extractLsb' 0 2 = 0 := BitVec.eq_of_toNat_eq (by simpa using haligned)
    simp [alignmentInvalid, Config.fastUnaligned, hlow]

end Sys2Proof.Machine

namespace Sys2Proof.Proofs

open Sys2Proof.Machine

/-- Settles O48: a failed check is raised, and a command that passed its checks runs to its result. -/
theorem pureCommandsRespondAndWriteNothing : Obligations.PureCommandsRespondAndWriteNothing := by
  intro i s hcopy
  have hd : destinationOf i = none := by
    cases i with
    | copy => exact (hcopy _ _ _ _ _ _ _ _ rfl).elim
    | _ => rfl
  cases hchk : checkOf i with
  | some st => exact ⟨⟨s.cmd.tid, st.code, _⟩, s.draws + 1, rfl, exec_of_failed s hchk⟩
  | none =>
    obtain ⟨v, d, hrun⟩ := exec_pure_returns s hd hchk
    exact ⟨⟨s.cmd.tid, 0, v⟩, d, rfl, hrun⟩

/-- Settles O47: every byte of the loop is read from memory or from the notes the transaction was opened with. -/
theorem readsOverRacingBytes : Obligations.ReadsOverRacingBytes := by
  refine ⟨fun seed base size len s hfits => ?acc, fun words base size s hmin hmax hfits haligned => ?fast⟩
  case acc => exact exec_acc s (accCheck_eq_none.mpr (viewInvalid_of_fits hfits))
  case fast => exact exec_fast s (fastCheck_of_valid hmin hmax hfits haligned)

end Sys2Proof.Proofs

namespace Sys2Proof.Machine

/-! ## COPY over racing bytes -/

/-- The source and the destination of a COPY share no byte (R105). -/
theorem source_ne_destination {sdom ddom : Domain} {seed srcBase srcSize len dstBase dstSize : Word}
    (h : selfOverlap (.copy sdom ddom seed srcBase srcSize len dstBase dstSize) = false) {j k : Nat}
    (hj : j < len.toNat) (hk : k < len.toNat) : sdom ≠ ddom ∨ srcBase.toNat + j ≠ dstBase.toNat + k := by
  simp only [selfOverlap, sourceOf, destinationOf, rangesMeet, ByteRange.meets, Bool.and_eq_false_iff,
    decide_eq_false_iff_not] at h
  rcases h with (((h | h) | h) | h) | h
  · exact .inl h
  all_goals right; omega

theorem supervisedAccesses_succ (sdom ddom : Domain) (n : Nat) :
    supervisedAccesses sdom ddom (n + 1) =
      (if sdom = .supervised then 1 else 0) + ((if ddom = .supervised then 1 else 0) + supervisedAccesses sdom ddom n) := by
  unfold supervisedAccesses
  split <;> split <;> omega

/-- An access with its answer at hand is granted and uses that answer only (R40). -/
theorem ask_of_succeed {s : State} {d : Domain} {n : Nat} {rest : List Answer}
    (h : s.answers = List.replicate ((if d = .supervised then 1 else 0) + n) .succeed ++ rest) :
    s.ask d = .granted { s with answers := List.replicate n .succeed ++ rest } := by
  cases d with
  | direct =>
    have hs : { s with answers := List.replicate n .succeed ++ rest } = s := by
      rw [if_neg (by simp), Nat.zero_add] at h
      rw [← h]
    rw [hs]
    rfl
  | supervised =>
    rw [if_pos rfl, Nat.add_comm, List.replicate_succ] at h
    simp only [State.ask, h, List.cons_append]

/-- A COPY after one more byte: it has entered the sum, and the latch is empty again (R97). -/
def Context.copied (c : Context) (x : Byte) (undo : List Host.Cell) : Context :=
  { c.feed x with latch := none, undo := undo }

/-- The latch is no register of the sum. -/
theorem feed_of_latch (c : Context) (x : Byte) (l : Option Byte) :
    { c with latch := l }.feed x = { c.feed x with latch := l } := by
  unfold Context.feed
  split <;> rfl

section Copied
variable (c : Context) (x : Byte) (undo : List Host.Cell)

@[simp] theorem copied_tid : (c.copied x undo).tid = c.tid := feed_tid c x
@[simp] theorem copied_pos : (c.copied x undo).pos = c.pos + 1 := feed_pos c x
@[simp] theorem copied_latch : (c.copied x undo).latch = none := rfl
@[simp] theorem copied_stale : (c.copied x undo).stale = c.stale := feed_stale c x
@[simp] theorem copied_total (b : List Byte) : (c.copied x undo).total b = c.total (x :: b) := (total_cons c x b).symm

end Copied

section CopyRun
variable {sdom ddom : Domain} {seed srcBase srcSize len dstBase dstSize : Word} {c : Context} {s : State} {n : Nat}
  {rest : List Answer}

/-- One byte of COPY with both its accesses answered: it is read, written and added to the sum (R97). -/
theorem drive_copy_byte (hsrc : srcBase.toNat + len.toNat ≤ addressSpace)
    (hdst : dstBase.toNat + len.toNat ≤ addressSpace) (hp : c.pos.toNat < len.toNat) (hl : c.latch = none)
    (ha : s.answers = List.replicate (supervisedAccesses sdom ddom (n + 1)) .succeed ++ rest) :
    ∃ (x : Byte) (d : Nat) (undo : List Host.Cell),
      (x = (s.mem sdom).read (srcBase.toNat + c.pos.toNat) ∨ (srcBase.toNat + c.pos.toNat, x) ∈ c.stale) ∧
      ∀ m, drive (copyTick sdom ddom srcBase len dstBase) (m + 2) c s =
        drive (copyTick sdom ddom srcBase len dstBase) m (c.copied x undo)
          (State.poke { s with
            answers := List.replicate (supervisedAccesses sdom ddom n) .succeed ++ rest
            draws := d } ddom (dstBase.toNat + c.pos.toNat) x) := by
  rw [supervisedAccesses_succ] at ha
  have hread := copyTick_reads (ddom := ddom) (dstBase := dstBase) (srcBase := srcBase) hp hl (ask_of_succeed ha)
    (by omega)
  set u : State := { s with answers := _ }
  set x := u.sourceByte c sdom (srcBase.toNat + c.pos.toNat)
  have hmem : u.mem sdom = s.mem sdom := by cases sdom <;> rfl
  have hx := sourceByte_cases u c sdom (srcBase.toNat + c.pos.toNat)
  rw [hmem] at hx
  obtain ⟨d, hd⟩ := afterSource_eq u c (srcBase.toNat + c.pos.toNat)
  rw [hd] at hread
  have hwrite := copyTick_writes (sdom := sdom) (srcBase := srcBase) (dstBase := dstBase)
    (c := { c with latch := some x }) (s := { u with draws := d }) hp rfl (ask_of_succeed rfl) (by simp only; omega)
  rw [feed_of_latch] at hwrite
  refine ⟨x, d, c.undo ++ [(dstBase.toNat + c.pos.toNat, (s.mem ddom).read (dstBase.toNat + c.pos.toNat))], hx,
    fun m => ?_⟩
  rw [drive, hread]
  simp only
  rw [drive, hwrite]
  cases ddom <;> rfl

/-- A run of COPY with all its accesses answered writes the bytes it reads and returns their sum (R97, R106). -/
theorem drive_copy (hsrc : srcBase.toNat + len.toNat ≤ addressSpace) (hdst : dstBase.toNat + len.toNat ≤ addressSpace)
    (hov : selfOverlap (.copy sdom ddom seed srcBase srcSize len dstBase dstSize) = false)
    (hl : c.latch = none) (hpos : c.pos.toNat + n = len.toNat)
    (ha : s.answers = List.replicate (supervisedAccesses sdom ddom n) .succeed ++ rest) :
    ∃ (b : List Byte) (t : State), b.length = n ∧ ReadsAs (s.mem sdom) c.stale (srcBase.toNat + c.pos.toNat) b ∧
      drive (copyTick sdom ddom srcBase len dstBase) (2 * n + 1) c s = .next (t.respond c.tid .ok (c.total b)) ∧
      t.responses = s.responses ∧ t.mem ddom = (s.mem ddom).writeBytes (dstBase.toNat + c.pos.toNat) b ∧
      (∀ d, d ≠ ddom → t.mem d = s.mem d) ∧ List.Forall₂ SameTransaction t.contexts s.contexts ∧ t.answers = rest := by
  induction n generalizing c s with
  | zero =>
    have ha' : s.answers = rest := by simpa [supervisedAccesses] using ha
    refine ⟨[], s, rfl, readsAs_nil _ _ _, ?_, rfl, rfl, fun _ _ => rfl, forall₂_same_refl _, ha'⟩
    simp only [drive, copyTick, if_neg (show ¬c.pos.toNat < len.toNat by omega), total_nil]
  | succ n ih =>
    have hp : c.pos.toNat < len.toNat := by omega
    obtain ⟨x, d, undo, hx, hbyte⟩ := drive_copy_byte hsrc hdst hp hl ha
    set v : State := { s with answers := _, draws := d }
    have hmem (e : Domain) : v.mem e = s.mem e := by cases e <;> rfl
    set a := dstBase.toNat + c.pos.toNat with hadr
    have hnext : (c.copied x undo).pos.toNat = c.pos.toNat + 1 := by rw [copied_pos, toNat_add_one hp]
    obtain ⟨b, t, hlen, hreads, hrun, hresp, hwritten, hother, hctx, hans⟩ :=
      ih (c := c.copied x undo) (s := v.poke ddom a x) rfl (by omega) (poke_answers ..)
    rw [hnext] at hreads hwritten
    rw [copied_stale] at hreads
    rw [copied_tid, copied_total] at hrun
    refine ⟨x :: b, t, by simp [hlen], .cons hx ?reads, ?run, ?responses, ?written, ?other, ?contexts, hans⟩
    case reads =>
      refine hreads.congr fun y hlo hhi => ?_
      have hapart := source_ne_destination hov (j := y - srcBase.toNat) (k := c.pos.toNat) (by omega) hp
      rw [poke_read_ne v ddom a x (hapart.imp_right fun h => by omega), hmem]
    case run => exact (hbyte (2 * n + 1)).trans hrun
    case responses => rw [hresp, poke_responses]
    case written => rw [hwritten, poke_mem_same, hmem]; rfl
    case other => intro e he; rw [hother e he, poke_mem_other v ddom a x he, hmem]
    case contexts =>
      have hpoke : Touches (some ⟨ddom, a, 1⟩) v (v.poke ddom a x) := touches_poke x (by simp [ByteRange.covers])
      exact forall₂_same_trans hctx hpoke.contexts

end CopyRun

end Sys2Proof.Machine

namespace Sys2Proof.Proofs

open Sys2Proof.Machine

/-- Settles O33: the bytes read are noted or in memory, and since source and destination share no byte the writes of the
run itself change none of them. -/
theorem copyOverRacingBytes : Obligations.CopyOverRacingBytes := by
  intro sdom ddom seed srcBase srcSize len dstBase dstSize s rest i hsrc hdst hov hfree ha
  have hsrc' := viewInvalid_of_fits hsrc
  have hdst' := viewInvalid_of_fits hdst
  obtain ⟨b, t, hlen, hreads, hrun, hresp, hwritten, hother, hctx, hans⟩ :=
    drive_copy (c := copyStart seed (s.newContext i)) (s := s.draw) (view_fits hsrc') (view_fits hdst') hov rfl
      (n := len.toNat) (by simp [copyStart]) ha
  have hexec : exec i s = .next (t.respond s.cmd.tid .ok (accBytes seed b)) :=
    (exec_of_admitted (i := i) (copyCheck_eq_none.mpr ⟨hsrc', hdst'⟩) hov hfree).trans hrun
  refine ⟨b, _, hlen, ?reads, hexec, ?responses, ?written, ?other, hctx, hans⟩
  case reads => simpa [copyStart, ReadsAs] using hreads
  case responses => rw [respond_responses, hresp]; rfl
  case written => rw [respond_mem, hwritten, draw_mem]; rfl
  case other => intro d hd; rw [respond_mem, hother d hd, draw_mem]

end Sys2Proof.Proofs

/-! The decoder in terms of the fields of W[0] (spec/30_encoding.md rules R51 to R58): each row of the opcode map selects
the legal command words of its opcode, so the map agrees with the list of legal words and its rows exclude each other. -/

namespace Sys2Proof

open Sys2Proof.Machine

/-! ## The opcode map and the fields of W[0] -/

/-- The value of OPC that names a row of the opcode map (R53). -/
def Opcode.code : Opcode → Byte
  | .acc => 1
  | .copy => 2
  | .fold => 3
  | .phc => 4
  | .fast => 5

theorem Opcode.code_injective : Function.Injective Opcode.code := by
  intro op op'
  cases op <;> cases op' <;> decide

theorem exists_row (op : Opcode) : ∃ r ∈ opcodeRows, r.op = op := by
  cases op <;> decide

/-- What MOD and ARG must satisfy under each opcode (R51). -/
def Opcode.FieldsLegal : Opcode → CommandWord → Prop
  | .acc, c => c.mod = 0 ∧ c.arg = 0
  | .copy, c => c.mod.toNat < 4 ∧ c.arg = 0
  | .fold, c => c.mod = 0 ∧ c.arg = 0
  | .phc, _ => True
  | .fast, c => c.mod = 0

theorem wellFormed_iff_fieldsLegal {c : CommandWord} {op : Opcode} (h : c.opc = op.code) :
    c.wellFormed = true ↔ op.FieldsLegal c := by
  cases op <;>
    simp [CommandWord.wellFormed, CommandWord.opcodeKnown, CommandWord.modLegal, CommandWord.argLegal,
      Opcode.FieldsLegal, Opcode.code, h]

/-- A legal command word has one of the five opcodes (R53, R57). -/
theorem exists_code_of_wellFormed {c : CommandWord} (h : c.wellFormed = true) : ∃ op : Opcode, c.opc = op.code := by
  simp only [CommandWord.wellFormed, CommandWord.opcodeKnown, Bool.and_eq_true, decide_eq_true_eq] at h
  obtain ⟨⟨⟨hlo, hhi⟩, -⟩, -⟩ := h
  have hcode : c.opc.toNat = 1 ∨ c.opc.toNat = 2 ∨ c.opc.toNat = 3 ∨ c.opc.toNat = 4 ∨ c.opc.toNat = 5 := by omega
  rcases hcode with h | h | h | h | h
  · exact ⟨.acc, BitVec.eq_of_toNat_eq h⟩
  · exact ⟨.copy, BitVec.eq_of_toNat_eq h⟩
  · exact ⟨.fold, BitVec.eq_of_toNat_eq h⟩
  · exact ⟨.phc, BitVec.eq_of_toNat_eq h⟩
  · exact ⟨.fast, BitVec.eq_of_toNat_eq h⟩

theorem low24_eq_zero_iff (w : Word) : w.extractLsb' 0 24 = 0#24 ↔ modField w = 0#8 ∧ argField w = 0#16 := by
  simp only [modField, argField, ← BitVec.toNat_inj, BitVec.extractLsb'_toNat, Nat.shiftRight_eq_div_pow,
    BitVec.toNat_ofNat]
  omega

theorem bits23_18_eq_zero_iff (w : Word) : w.extractLsb' 18 6 = 0#6 ↔ (modField w).toNat < 4 := by
  simp only [modField, ← BitVec.toNat_inj, BitVec.extractLsb'_toNat, Nat.shiftRight_eq_div_pow, BitVec.toNat_ofNat]
  omega

/-- A row selects the words with its opcode whose other fields are legal under it (R51, R53). -/
theorem selects_iff_fieldsLegal {r : OpcodeRow} (hr : r ∈ opcodeRows) (w : Word) :
    r.selects w = true ↔ opcField w = r.op.code ∧ r.op.FieldsLegal (commandWordOf w) := by
  simp only [opcodeRows, List.mem_cons, List.not_mem_nil, or_false] at hr
  rcases hr with rfl | rfl | rfl | rfl | rfl
  case inl => exact (selects_acc w).trans (and_congr_right' (low24_eq_zero_iff w))
  case inr.inl => exact (selects_copy w).trans (and_congr_right' (and_congr_left' (bits23_18_eq_zero_iff w)))
  case inr.inr.inl => exact (selects_fold w).trans (and_congr_right' (low24_eq_zero_iff w))
  case inr.inr.inr.inl => exact (selects_phc w).trans (and_true _).symm.to_iff
  case inr.inr.inr.inr => exact selects_fast w

/-- A row selects exactly the legal command words with its opcode (R51, R53, R57). -/
theorem selects_iff_wellFormed {r : OpcodeRow} (hr : r ∈ opcodeRows) (w : Word) :
    r.selects w = true ↔ opcField w = r.op.code ∧ (commandWordOf w).wellFormed = true :=
  (selects_iff_fieldsLegal hr w).trans (and_congr_right fun h => (wellFormed_iff_fieldsLegal h).symm)

/-- The opcode of a legal command word is the one that is selected (R53, R58). -/
theorem selectOpcode_eq_some_iff (w : Word) (op : Opcode) :
    selectOpcode w = some op ↔ opcField w = op.code ∧ (commandWordOf w).wellFormed = true := by
  constructor
  · intro h
    obtain ⟨r, hr, rfl, hw⟩ := exists_row_of_selectOpcode h
    exact (selects_iff_wellFormed hr w).mp (beq_iff_eq.mpr hw)
  · rintro ⟨hopc, hlegal⟩
    obtain ⟨r, hr, rfl⟩ := exists_row op
    have hsome : (opcodeRows.find? (·.selects w)).isSome :=
      List.find?_isSome.mpr ⟨r, hr, (selects_iff_wellFormed hr w).mpr ⟨hopc, hlegal⟩⟩
    obtain ⟨q, hfind⟩ := Option.isSome_iff_exists.mp hsome
    have hsel : q.selects w = true := List.find?_some (p := fun r : OpcodeRow => r.selects w) hfind
    obtain ⟨hq, -⟩ := (selects_iff_wellFormed (List.mem_of_find?_eq_some hfind) w).mp hsel
    rw [selectOpcode, hfind, Option.map_some, Opcode.code_injective (hq.symm.trans hopc)]

/-! ## From a command to its frame and back -/

/-- The row a command belongs to (R53). -/
def Instr.opcode : Instr → Opcode
  | .acc .. => .acc
  | .copy .. => .copy
  | .fold .. => .fold
  | .phc .. => .phc
  | .fast .. => .fast

theorem commandWord_opc (i : Instr) : i.commandWord.opc = i.opcode.code := by cases i <;> rfl

theorem encode_w0 (i : Instr) : (encode i).w0 = encodeWord0 i := by cases i <;> rfl

theorem commandWordOf_eq_iff (w : Word) (c : CommandWord) :
    commandWordOf w = c ↔ opcField w = c.opc ∧ modField w = c.mod ∧ argField w = c.arg := by
  rw [commandWordOf, CommandWord.mk.injEq]

/-- The encoder writes the command word of the command into W[0] (R51, R53). -/
theorem commandWordOf_encodeWord0 (i : Instr) : commandWordOf (encodeWord0 i) = i.commandWord := by
  rw [commandWordOf_eq_iff]
  simp only [opcField, modField, argField, field_iff, Nat.forall_lt_succ_right]
  cases i with
  | acc => simp [encodeWord0, Instr.commandWord]
  | copy sdom ddom => cases sdom <;> cases ddom <;> simp [encodeWord0, bitOfDomain, Instr.commandWord]
  | fold => simp [encodeWord0, Instr.commandWord]
  | phc => simp [encodeWord0, Instr.commandWord]
  | fast => simp [encodeWord0, Instr.commandWord]

/-- The operands are read back where the encoder put them (R52, R54). -/
theorem assemble_encode (i : Instr) : assemble i.opcode (encode i) = i := by
  have hword := commandWordOf_encodeWord0 i
  cases i with
  | acc => rfl
  | copy sdom ddom =>
    cases sdom <;> cases ddom <;> simp [Instr.opcode, assemble, encode, encodeWord0, bitOfDomain, domainOfBit]
  | fold => rfl
  | phc =>
    obtain ⟨-, hmod, harg⟩ := CommandWord.mk.inj hword
    simp only [Instr.opcode, assemble, encode, hmod, harg]
  | fast =>
    obtain ⟨-, -, harg⟩ := CommandWord.mk.inj hword
    simp only [Instr.opcode, assemble, encode, harg]

end Sys2Proof

namespace Sys2Proof.Proofs

open Sys2Proof.Machine

/-- Settles O10: W[0] of the encoding is the legal command word of the command, so it selects the row of the command,
which reads the operands back from where the encoder put them. -/
theorem decodeEncode : Obligations.DecodeEncode := by
  intro i hlegal
  have hword : commandWordOf (encode i).w0 = i.commandWord := by rw [encode_w0, commandWordOf_encodeWord0]
  have hopc : opcField (encode i).w0 = i.opcode.code := (congrArg CommandWord.opc hword).trans (commandWord_opc i)
  have hselect : selectOpcode (encode i).w0 = some i.opcode :=
    (selectOpcode_eq_some_iff _ _).mpr ⟨hopc, hword ▸ hlegal⟩
  exact (decode_command_iff _ i).mpr ⟨i.opcode, hselect, (assemble_encode i).symm⟩

/-- Settles O13: an opcode is selected exactly for its legal words, and each legal word has one of the five opcodes. -/
theorem decodesWellFormedWords : Obligations.DecodesWellFormedWords := by
  intro f
  simp only [decode_command_iff, selectOpcode_eq_some_iff]
  constructor
  · rintro ⟨_, _, ⟨_, hlegal⟩, _⟩
    exact hlegal
  · intro hlegal
    obtain ⟨op, hopc⟩ := exists_code_of_wellFormed hlegal
    exact ⟨_, op, ⟨hopc, hlegal⟩, rfl⟩

/-- Settles O15: a word that two rows select has the opcode of both, and no two rows have the same opcode. -/
theorem opcodeRowsDisjoint : Obligations.OpcodeRowsDisjoint := by
  have hcodes : opcodeRows.Pairwise (fun r q => r.op.code ≠ q.op.code) := by decide
  refine hcodes.imp_of_mem fun hr hq hne w ⟨hrw, hqw⟩ => hne ?_
  obtain ⟨hropc, -⟩ := (selects_iff_wellFormed hr w).mp hrw
  obtain ⟨hqopc, -⟩ := (selects_iff_wellFormed hq w).mp hqw
  exact hropc.symm.trans hqopc

/-- Settles O16: the five encodings are evaluated; that the frames decode to the commands is then the round trip. -/
theorem encodingExamples : Obligations.EncodingExamples := by
  intro row hrow
  suffices h : row.1.wellFormed = true ∧ encode row.1 = row.2 from ⟨h.2, h.2 ▸ decodeEncode row.1 h.1⟩
  revert row
  decide

end Sys2Proof.Proofs

namespace Sys2Proof.Machine

/-! ## One response for each command -/

/-- One response more, for this TID and with one of the five codes, and no transaction more (R55, R56, R63). -/
def AnsweredOnce (tid : Tid) (s t : State) : Prop :=
  (∃ r, t.responses = s.responses ++ [r] ∧ r.tid = tid ∧ r.r0.toNat ≤ 4) ∧ t.contexts.length = s.contexts.length

/-- No response more, and the transaction of this command behind the others (R19, R55, R63). -/
def InFlightOnce (tid : Tid) (i : Instr) (s t : State) : Prop :=
  t.responses = s.responses ∧ ∃ c, t.contexts.getLast? = some c ∧ c.tid = tid ∧ c.instr = i ∧
    t.contexts.length = s.contexts.length + 1

section Responding
variable {dest : Option ByteRange} {c : Context} {s t u : State}

theorem Touches.answeredOnce_respond (h : Touches dest s u) (tid : Tid) (st : Status) (v : Word) :
    AnsweredOnce tid s (u.respond tid st v) :=
  ⟨⟨⟨tid, st.code, v⟩, by rw [respond_responses, h.responses], rfl, of_decide_eq_true (code_le_four st)⟩,
    h.contexts.length_eq⟩

theorem Touches.answeredOnce_raise (h : Touches dest s u) (tid : Tid) (st : Status) :
    AnsweredOnce tid s (u.raise tid st) :=
  h.answeredOnce_respond tid st _

theorem Touches.inFlightOnce_park (h : Touches dest s u) {c' : Context} (same : SameIdentity c' c) :
    InFlightOnce c.tid c.instr s (u.park c') :=
  ⟨h.responses, c', by simp, same.1, same.2.2, by simp [h.contexts.length_eq]⟩

/-- However a run stops, its command has been answered once or is in flight once. -/
theorem RunStops.answeredOnce_or_inFlightOnce (h : RunStops dest c s t) :
    AnsweredOnce c.tid s t ∨ InFlightOnce c.tid c.instr s t := by
  cases h with
  | inFlight c' u hu same e => exact .inr (e ▸ hu.inFlightOnce_park same)
  | returned v u hu e => exact .inl (e ▸ hu.answeredOnce_respond c.tid .ok v)
  | faulted u hu _ _ e => exact .inl (e ▸ hu.answeredOnce_raise c.tid .copyFault)

/-- The TID a response carries is known: it was there before, or it answers the transaction that stopped. -/
theorem Confined.mem_responses (h : Confined dest c s t) {r : Response} (hr : r ∈ t.responses) :
    r ∈ s.responses ∨ r.tid = c.tid := by
  obtain ⟨_, _, ⟨_, r', e, htid⟩ | ⟨e, _⟩⟩ := h.ends
  · rw [e, List.mem_append, List.mem_singleton] at hr
    exact hr.imp_right fun (hr : r = r') => hr ▸ htid
  · exact .inl (e ▸ hr)

theorem mem_responses_raise {tid : Tid} {st : Status} {r : Response} (hr : r ∈ (s.raise tid st).responses) :
    r ∈ s.responses ∨ r.tid = tid := by
  rw [raise_responses, List.mem_append, List.mem_singleton] at hr
  exact hr.imp_right (congrArg Response.tid)

theorem mem_responses_of_runCaptured (h : runCaptured s = .next t) {r : Response} (hr : r ∈ t.responses) :
    r ∈ s.responses ∨ r.tid = s.cmd.tid := by
  unfold runCaptured at h
  split at h
  · exact (confined_of_exec h).mem_responses hr
  · cases h; exact mem_responses_raise hr

theorem mem_responses_of_acceptCaptured (h : acceptCaptured s = .next t) {r : Response} (hr : r ∈ t.responses) :
    r ∈ s.responses ∨ r.tid = s.cmd.tid := by
  rcases acceptCaptured_next h with ⟨st, rfl⟩ | ⟨i, _, rfl⟩
  · exact mem_responses_raise hr
  · exact .inl hr

end Responding

@[simp] theorem engineReset_responses (s : State) : s.engineReset.responses = [] :=
  engineReset_induct (P := (·.responses = [])) rfl (fun c _ t ht => (touches_abandon t c).responses.trans ht)

/-- Every response after a move was there before it, or carries the TID of a command that waited or was in flight. -/
theorem mem_responses_of_move {s t : State} (h : Move s t) {r : Response} (hr : r ∈ t.responses) :
    r ∈ s.responses ∨ (∃ c ∈ s.port, r.tid = c.tid) ∨ (∃ c ∈ s.contexts, r.tid = c.tid) := by
  cases h with
  | idle e => exact .inl (e ▸ hr)
  | offered c e => subst e; exact .inl hr
  | collected k e => subst e; exact .inl (List.mem_of_mem_eraseIdx hr)
  | answered a e => subst e; exact .inl hr
  | stored d a b _ e => subst e; exact .inl (poke_responses s d a.toNat b ▸ hr)
  | ran c rest waiting _ h => exact (mem_responses_of_runCaptured h hr).imp_right fun e => .inl ⟨c, waiting, e⟩
  | admitted c rest waiting _ h =>
    exact (mem_responses_of_acceptCaptured h hr).imp_right fun e => .inl ⟨c, waiting, e⟩
  | proceeded k c hk h =>
    exact ((confined_of_proceed hk h).mem_responses hr).imp_right fun e => .inr ⟨c, List.mem_of_getElem? hk, e⟩
  | reset e => simp [e] at hr

end Sys2Proof.Machine

namespace Sys2Proof.Proofs

open Sys2Proof.Machine

/-- Settles O50: a failed check raises one status; a run stops with one response or with its transaction in flight. -/
theorem oneResponseOrInFlight : Obligations.OneResponseOrInFlight := by
  intro i s t h
  rcases exec_stops h with ⟨st, _, e⟩ | ⟨_, _, _, hstops⟩
  · exact .inl (e ▸ (Touches.refl none s).answeredOnce_raise s.cmd.tid st)
  · exact hstops.answeredOnce_or_inFlightOnce

/-- Settles O54: by the move the step makes; only what was captured or let proceed writes a response. -/
theorem responsesCarryTheirTid : Obligations.ResponsesCarryTheirTid :=
  fun _ _ h _ hr => mem_responses_of_move (move_of_step h) hr

end Sys2Proof.Proofs

namespace Sys2Proof.Machine

/-! ## The laws of end-around addition -/

theorem add1c32_toNat_eq_ite (a b : Word) :
    (add1c32 a b).toNat =
      if a.toNat + b.toNat < 4294967296 then a.toNat + b.toNat else a.toNat + b.toNat - 4294967295 := by
  have ha := a.isLt
  have hb := b.isLt
  rw [add1c32_toNat]
  split <;> omega

/-- Addition with end-around carry keeps the sum modulo 2^32 - 1 (R71 (a)). -/
theorem add1c32_congr (a b : Word) : (add1c32 a b).toNat % 4294967295 = (a.toNat + b.toNat) % 4294967295 := by
  rw [add1c32_toNat]
  omega

theorem bitVec_eq_zero_iff {n : Nat} (s : BitVec n) : s = 0 ↔ s.toNat = 0 := by
  simp [BitVec.toNat_eq]

theorem add1c32_eq_zero_iff (a b : Word) : add1c32 a b = 0 ↔ a = 0 ∧ b = 0 := by
  rw [bitVec_eq_zero_iff, bitVec_eq_zero_iff, bitVec_eq_zero_iff, add1c32_eq_zero]

/-- A sum is fixed by its residue modulo 2^32 - 1, but for the two zeros, which R71 (b) keeps apart. -/
theorem eq_of_congr {s t : Word} (hcongr : s.toNat % 4294967295 = t.toNat % 4294967295) (hzero : s = 0 ↔ t = 0) :
    s = t := by
  rw [bitVec_eq_zero_iff, bitVec_eq_zero_iff] at hzero
  have hs := s.isLt
  have ht := t.isLt
  apply BitVec.eq_of_toNat_eq
  omega

@[simp] theorem add1c32_zero (a : Word) : add1c32 a 0 = a :=
  eq_of_congr (add1c32_congr a 0) (by rw [add1c32_eq_zero_iff, and_iff_left rfl])

theorem add1c32_comm (a b : Word) : add1c32 a b = add1c32 b a := by
  rw [add1c32, add1c32, Nat.add_comm a.toNat]

theorem add1c32_assoc (a b c : Word) : add1c32 (add1c32 a b) c = add1c32 a (add1c32 b c) := by
  apply eq_of_congr
  · rw [add1c32_congr, add1c32_congr, Nat.add_mod, add1c32_congr, ← Nat.add_mod, Nat.add_mod a.toNat, add1c32_congr,
      ← Nat.add_mod, Nat.add_assoc]
  · simp only [add1c32_eq_zero_iff, and_assoc]

theorem add1c32_right_comm (a b c : Word) : add1c32 (add1c32 a b) c = add1c32 (add1c32 a c) b := by
  rw [add1c32_assoc, add1c32_comm b, ← add1c32_assoc]

/-! ### Folds of end-around addition -/

theorem foldl_add1c32_perm {l m : List Word} (h : l.Perm m) (a : Word) : l.foldl add1c32 a = m.foldl add1c32 a :=
  h.foldl_eq' (fun x _ y _ z => add1c32_right_comm z x y) a

theorem foldl_add1c32_eq_zero (a : Word) (l : List Word) : l.foldl add1c32 a = 0 ↔ a = 0 ∧ ∀ x ∈ l, x = 0 := by
  induction l generalizing a with
  | nil => simp
  | cons x l ih => rw [List.foldl_cons, ih, add1c32_eq_zero_iff, List.forall_mem_cons, and_assoc]

theorem foldl_add1c32_congr (a : Word) (l : List Word) :
    (l.foldl add1c32 a).toNat % 4294967295 = (a.toNat + (l.map BitVec.toNat).sum) % 4294967295 := by
  induction l generalizing a with
  | nil => rfl
  | cons x l ih =>
    rw [List.foldl_cons, ih, Nat.add_mod, add1c32_congr, ← Nat.add_mod, List.map_cons, List.sum_cons, Nat.add_assoc]

/-- What is added first can as well be added last. -/
theorem foldl_add1c32_add1c32 (a x : Word) (l : List Word) :
    l.foldl add1c32 (add1c32 a x) = add1c32 (l.foldl add1c32 a) x := by
  induction l generalizing a with
  | nil => rfl
  | cons y l ih => rw [List.foldl_cons, List.foldl_cons, add1c32_right_comm, ih]

/-! ## The words of a byte sequence -/

/-- A 16-bit word is its two bytes, the high one first (R72). -/
theorem be16_bytes (h : Half) : be16 (h.extractLsb' 8 8) (h.extractLsb' 0 8) = h := by
  have hh := h.isLt
  apply BitVec.eq_of_toNat_eq
  rw [be16_toNat, BitVec.extractLsb'_toNat, BitVec.extractLsb'_toNat, Nat.shiftRight_eq_div_pow, Nat.shiftRight_zero]
  omega

theorem be16_eq_zero (b0 b1 : Byte) : be16 b0 b1 = 0 ↔ b0 = 0 ∧ b1 = 0 := by
  rw [bitVec_eq_zero_iff, bitVec_eq_zero_iff, bitVec_eq_zero_iff, be16_toNat]
  omega

/-- An unpaired byte is the high byte of the last word (R73). -/
theorem oddWord_eq (b : Byte) : oddWord b = be16 b 0 := rfl

theorem forall_mem_wordsOf_eq_zero (b : List Byte) : (∀ w ∈ wordsOf b, w = 0) ↔ ∀ x ∈ b, x = 0 := by
  induction b using wordsOf.induct with
  | case1 => simp [wordsOf]
  | case2 b =>
    rw [wordsOf, List.forall_mem_singleton, List.forall_mem_singleton, oddWord_eq, be16_eq_zero, and_iff_left rfl]
  | case3 b0 b1 rest ih =>
    rw [wordsOf, List.forall_mem_cons, List.forall_mem_cons, List.forall_mem_cons, ih, be16_eq_zero, and_assoc]

/-- An even number of bytes leaves no byte to pair with what follows (R75). -/
theorem wordsOf_append {a : List Byte} (ha : a.length % 2 = 0) (b : List Byte) :
    wordsOf (a ++ b) = wordsOf a ++ wordsOf b := by
  induction a using wordsOf.induct with
  | case1 => rfl
  | case2 x => exact absurd ha (by simp)
  | case3 b0 b1 rest ih =>
    have hrest : rest.length % 2 = 0 := (Nat.add_mod_right rest.length 2).symm.trans ha
    exact congrArg (be16 b0 b1 :: ·) (ih hrest)

/-- The zero byte that completes the last word of an odd sequence can as well stand in the sequence (R76). -/
theorem wordsOf_append_zero {a : List Byte} (ha : a.length % 2 = 1) : wordsOf (a ++ [0]) = wordsOf a := by
  induction a using wordsOf.induct with
  | case1 => exact absurd ha (by simp)
  | case2 x => rfl
  | case3 b0 b1 rest ih =>
    have hrest : rest.length % 2 = 1 := (Nat.add_mod_right rest.length 2).symm.trans ha
    exact congrArg (be16 b0 b1 :: ·) (ih hrest)

/-! ## The running sum of a byte sequence -/

theorem sumWords_eq_foldl (s : Word) (l : List Half) : sumWords s l = (l.map (·.setWidth 32)).foldl add1c32 s := by
  induction l generalizing s with
  | nil => rfl
  | cons w rest ih => exact ih _

theorem accBytes_eq_foldl (s : Word) (b : List Byte) :
    accBytes s b = ((wordsOf b).map (·.setWidth 32)).foldl add1c32 s :=
  sumWords_eq_foldl s (wordsOf b)

theorem accBytes_add1c32 (s x : Word) (b : List Byte) : accBytes (add1c32 s x) b = add1c32 (accBytes s b) x := by
  rw [accBytes_eq_foldl, accBytes_eq_foldl, foldl_add1c32_add1c32]

theorem toNat_setWidth_half (h : Half) : (h.setWidth 32).toNat = h.toNat := BitVec.toNat_setWidth_of_le (by decide)

theorem setWidth_half_eq_zero (h : Half) : h.setWidth 32 = 0 ↔ h = 0 := by
  rw [bitVec_eq_zero_iff, bitVec_eq_zero_iff, toNat_setWidth_half]

theorem accBytes_eq_zero (s : Word) (b : List Byte) : accBytes s b = 0 ↔ s = 0 ∧ ∀ x ∈ b, x = 0 := by
  rw [accBytes_eq_foldl, foldl_add1c32_eq_zero, List.forall_mem_map, ← forall_mem_wordsOf_eq_zero]
  simp only [setWidth_half_eq_zero]

theorem accBytes_congr (s : Word) (b : List Byte) :
    (accBytes s b).toNat % 4294967295 = (s.toNat + ((wordsOf b).map BitVec.toNat).sum) % 4294967295 := by
  have hmap : ((wordsOf b).map (·.setWidth 32)).map BitVec.toNat = (wordsOf b).map BitVec.toNat := by
    rw [List.map_map]
    exact List.map_congr_left fun w _ => toNat_setWidth_half w
  rw [accBytes_eq_foldl, foldl_add1c32_congr, hmap]

/-- The byte loop with HOLD and HOLDV ends with the sum that is still to come at its start (R74, stream form). -/
theorem foldl_feed_flush_sum (c : Context) (b : List Byte) : (b.foldl Context.feed c).flush.sum = c.total b := by
  induction b generalizing c with
  | nil => exact (total_nil c).symm
  | cons x rest ih => rw [List.foldl_cons, ih, total_cons]

theorem accBytes_of_wordsOf_append {a b ab : List Byte} (h : wordsOf ab = wordsOf a ++ wordsOf b) (s : Word) :
    accBytes s ab = accBytes (accBytes s a) b := by
  rw [accBytes_eq_foldl, h, List.map_append, List.foldl_append, ← accBytes_eq_foldl, ← accBytes_eq_foldl]

theorem accBytes_append {a : List Byte} (ha : a.length % 2 = 0) (s : Word) (b : List Byte) :
    accBytes s (a ++ b) = accBytes (accBytes s a) b :=
  accBytes_of_wordsOf_append (wordsOf_append ha b) s

theorem accBytes_append_zero_append {a : List Byte} (ha : a.length % 2 = 1) (s : Word) (b : List Byte) :
    accBytes s (a ++ [0] ++ b) = accBytes (accBytes s a) b := by
  have hwords : wordsOf (a ++ [0] ++ b) = wordsOf a ++ wordsOf b := by
    rw [wordsOf_append (by rw [List.length_append, List.length_singleton]; omega), wordsOf_append_zero ha]
  exact accBytes_of_wordsOf_append hwords s

/-- A word at an even offset can as well be added last (R71 (e)). -/
theorem accBytes_word_between {pre : List Byte} (hpre : pre.length % 2 = 0) (s : Word) (x y : Byte) (post : List Byte) :
    accBytes s (pre ++ [x, y] ++ post) = add1c32 (accBytes s (pre ++ post)) ((be16 x y).setWidth 32) := by
  rw [List.append_assoc, accBytes_append hpre, accBytes_append hpre]
  exact accBytes_add1c32 (accBytes s pre) ((be16 x y).setWidth 32) post

/-! ## The carry fold -/

theorem foldStage1_le (s : Word) : (foldStage1 s).toNat ≤ 131070 := by
  have hs := s.isLt
  rw [foldStage1_toNat]
  omega

theorem foldLoop_of_lt (n : Nat) {s : Nat} (h : s < 65536) : foldLoop n s = s := by
  cases n with
  | zero => rfl
  | succ n => exact if_pos (Nat.div_eq_of_lt h)

/-- One pass of the loop adds the upper half into the lower one; on a value with no upper half it changes nothing. -/
theorem foldLoop_succ (n s : Nat) : foldLoop (n + 1) s = foldLoop n (s % 65536 + s / 65536) := by
  by_cases h : s / 65536 = 0
  · have hlt : s < 65536 := by omega
    rw [foldLoop_of_lt _ hlt, h, Nat.add_zero, Nat.mod_eq_of_lt hlt, foldLoop_of_lt _ hlt]
  · exact if_neg h

/-- Two passes are the two stages, and no further pass changes the value (R77). -/
theorem foldLoop_add_two (n : Nat) (s : Word) : foldLoop (n + 2) s.toNat = (fold16 s).toNat := by
  rw [foldLoop_succ, foldLoop_succ, ← fold16_toNat, foldLoop_of_lt n (fold16 s).isLt]

theorem fold16_pos {s : Word} (h : s ≠ 0) : 1 ≤ (fold16 s).toNat := by
  rw [Ne, bitVec_eq_zero_iff, ← fold16_eq_zero] at h
  omega

theorem fold16_eq_ones_iff (s : Word) : fold16 s = 0xFFFF#16 ↔ s ≠ 0 ∧ s.toNat % 65535 = 0 := by
  have hlt := (fold16 s).isLt
  rw [Ne, bitVec_eq_zero_iff, ← fold16_eq_zero, ← fold16_residue, BitVec.toNat_eq, BitVec.toNat_ofNat]
  omega

theorem fold16_of_le {s : Word} (h : s.toNat ≤ 65535) : (fold16 s).toNat = s.toNat := by
  rw [fold16_toNat]
  omega

theorem fold16_add1c32_eq_zero (a b : Word) : fold16 (add1c32 a b) = 0 ↔ a = 0 ∧ b = 0 := by
  rw [bitVec_eq_zero_iff, fold16_eq_zero, ← bitVec_eq_zero_iff, add1c32_eq_zero_iff]

/-- A sum and its fold, widened again, fold alike (R78). -/
theorem sameFold_fold16 (s : Word) : SameFold s ((fold16 s).setWidth 32) where
  residue := by rw [toNat_setWidth_half, fold16_residue]
  zero := by rw [toNat_setWidth_half, fold16_eq_zero]

theorem fold16_add1c32_fold16 (a b : Word) :
    fold16 (add1c32 a b) = fold16 (add1c32 ((fold16 a).setWidth 32) ((fold16 b).setWidth 32)) := by
  rw [((sameFold_fold16 a).add b).fold16_eq, add1c32_comm, ((sameFold_fold16 b).add _).fold16_eq, add1c32_comm]

theorem be32_eq_append (b0 b1 b2 b3 : Byte) : be32 b0 b1 b2 b3 = be16 b0 b1 ++ be16 b2 b3 := by
  apply BitVec.eq_of_toNat_eq
  rw [be32_toNat, BitVec.toNat_append, ← Nat.shiftLeft_add_eq_or_of_lt (be16 b2 b3).isLt, Nat.shiftLeft_eq]

theorem fold16_add1c32_append (s : Word) (h l : Half) :
    fold16 (add1c32 s (h ++ l)) = fold16 (add1c32 (add1c32 s (h.setWidth 32)) (l.setWidth 32)) := by
  have hbytes := sameFold_be32 s (h.extractLsb' 8 8) (h.extractLsb' 0 8) (l.extractLsb' 8 8) (l.extractLsb' 0 8)
  rw [be32_eq_append, be16_bytes, be16_bytes] at hbytes
  exact hbytes.fold16_eq

/-! ## The final checksum -/

theorem csum16_eq_not (s : Word) : csum16 s = ~~~fold16 s := rfl

theorem csum16_toNat (s : Word) : (csum16 s).toNat = 65535 - (fold16 s).toNat := by
  rw [csum16_eq_not, BitVec.toNat_not]

theorem csum16_eq_zero_iff_fold16 (s : Word) : csum16 s = 0 ↔ fold16 s = 0xFFFF#16 := by
  rw [csum16_eq_not, BitVec.not_eq_comm]
  rfl

theorem csum16_eq_ones_iff (s : Word) : csum16 s = 0xFFFF#16 ↔ s = 0 := by
  rw [bitVec_eq_zero_iff, ← fold16_eq_zero, ← bitVec_eq_zero_iff, csum16_eq_not, BitVec.not_eq_comm]
  rfl

/-- A sum with its own checksum added is a multiple of 65535 and not zero (R80). -/
theorem fold16_add_csum16 (s : Word) : fold16 (add1c32 s ((csum16 s).setWidth 32)) = 0xFFFF#16 := by
  have hvalue := csum16_toNat s
  have hlt := (fold16 s).isLt
  have hresidue := fold16_residue s
  have hzero := fold16_eq_zero s
  rw [fold16_eq_ones_iff, Ne, bitVec_eq_zero_iff, add1c32_eq_zero, add1c32_residue, toNat_setWidth_half]
  omega

end Sys2Proof.Machine

namespace Sys2Proof.Proofs

open Sys2Proof.Machine

/-- Settles O1: the second addition cannot carry, so the value is the exact sum or the exact sum less 2^32 - 1. -/
theorem addEndAroundCarry : Obligations.AddEndAroundCarry := by
  refine ⟨fun a b => ?_, by decide, by decide, by decide, by decide⟩
  have ha := a.isLt
  have hb := b.isLt
  exact ⟨by omega, by omega, add1c32_toNat a b, add1c32_toNat_eq_ite a b⟩

/-- Settles O2: a sum is fixed by its residue and by being zero or not, and both are symmetric in all addends. -/
theorem addEndAroundLaws : Obligations.AddEndAroundLaws :=
  ⟨add1c32_congr, add1c32_eq_zero_iff, add1c32_zero, add1c32_comm, add1c32_assoc,
    fun a _ _ h => foldl_add1c32_perm h a, fun a l => ⟨foldl_add1c32_eq_zero a l, foldl_add1c32_congr a l⟩⟩

/-- Settles O3: AccBytes is a fold of end-around addition; a byte loop that holds no byte has that sum to come. -/
theorem runningSumForms : Obligations.RunningSumForms := by
  refine ⟨fun s b => ?_, fun _ => rfl, fun s b => ⟨accBytes_eq_zero s b, accBytes_congr s b⟩, fun c s b => ?_⟩
  · rw [accBytes_eq_foldl, List.foldl_map]
  · exact foldl_feed_flush_sum { c with sum := s, holdv := false } b

/-- Settles O4, from the words of a concatenation. -/
theorem splitAtEvenPoint : Obligations.SplitAtEvenPoint :=
  fun s _ b ha => ⟨accBytes_append ha s b, wordsOf_append ha b⟩

/-- Settles O5: the implicit zero byte of the last word is the zero byte put in between. -/
theorem splitAtOddPoint : Obligations.SplitAtOddPoint :=
  ⟨fun s _ b ha => (accBytes_append_zero_append ha s b).symm, by decide, by decide⟩

/-- Settles O6: each pass of the loop is one stage, and the fold of two stages has no upper half left. -/
theorem twoStageFold : Obligations.TwoStageFold := by
  intro s
  have hle := foldStage1_le s
  refine ⟨foldStage1_toNat s, hle, foldStage2_toNat hle, fun hcarry => by omega, ?_, fun n hn => ?_⟩
  · rw [foldLoop_add_two 0 s]
    exact Nat.div_eq_of_lt (fold16 s).isLt
  · obtain ⟨m, rfl⟩ := Nat.exists_eq_add_of_le' hn
    exact foldLoop_add_two m s

/-- Settles O7: the fold is fixed by the residue modulo 65535 and by being zero or not; 0x0001FFFF added to 0 gives
0x0001FFFF, and its two halves added one by one give 0x00010000. -/
theorem foldCharacterised : Obligations.FoldCharacterised := by
  refine ⟨by decide, fun s hs => ⟨fold16_pos hs, fold16_residue s⟩, fold16_eq_ones_iff, fun s h => fold16_of_le h,
    fun a b => ?_, fold16_add1c32_eq_zero, fold16_add1c32_fold16, fold16_add1c32_append, ?_⟩
  · rw [fold16_residue, add1c32_residue]
  · exact ⟨0#32, 1#16, 0xFFFF#16, by decide⟩

/-- Settles O8: the complement of the fold is 0 for a fold of all ones, and all ones for a fold of 0. -/
theorem finalChecksum : Obligations.FinalChecksum :=
  ⟨fun s => ⟨csum16_toNat s, csum16_eq_not s⟩, fun s => (csum16_eq_zero_iff_fold16 s).trans (fold16_eq_ones_iff s),
    csum16_eq_ones_iff, by decide, by decide, by decide⟩

/-- Settles O9: the field adds the checksum of all other words to their sum. -/
theorem selfVerification : Obligations.SelfVerification := by
  intro s pre post hpre _ field filled
  have hfield : field = csum16 (accBytes s (pre ++ post)) := by
    have hempty : (be16 0x00#8 0x00#8).setWidth 32 = (0 : Word) := rfl
    change csum16 (accBytes s (pre ++ [0x00#8, 0x00#8] ++ post)) = _
    rw [accBytes_word_between hpre, hempty, add1c32_zero]
  have hfold : fold16 (accBytes s filled) = 0xFFFF#16 := by
    rw [accBytes_word_between hpre, be16_bytes, hfield, fold16_add_csum16]
  exact ⟨hfold, (csum16_eq_zero_iff_fold16 _).mpr hfold⟩

end Sys2Proof.Proofs

namespace Sys2Proof.Machine

/-! ## Commands that read undisturbed bytes -/

/-- Without notes of racing bytes a command reads what memory holds (R49). -/
theorem ReadsAs.eq_bytes {m : Memory} {a : Nat} {b : List Byte} (h : ReadsAs m [] a b) : b = m.bytes a b.length := by
  induction b generalizing a with
  | nil => rfl
  | cons x b ih =>
    have hx : x = m.read a := (h 0 (Nat.zero_lt_succ _)).resolve_right List.not_mem_nil
    have hrest : ReadsAs m [] (a + 1) b := fun k hk => by
      rw [Nat.add_right_comm]
      exact h (k + 1) (Nat.succ_lt_succ hk)
    rw [List.length_cons, bytes_succ, ← hx, ← ih hrest]

/-- An undisturbed command starts with no notes of racing bytes. -/
theorem overwritten_of_readsUndisturbed {s : State} {i : Instr} (h : s.readsUndisturbed i = true) :
    s.overwritten i = [] :=
  overwritten_nil fun c hc => by simpa using List.all_eq_true.mp h c hc

/-- A command that reads no byte is undisturbed in every state. -/
theorem readsUndisturbed_of_empty {i : Instr} {d : Domain} {a : Nat} (hi : sourceOf i = some ⟨d, a, 0⟩) (s : State) :
    s.readsUndisturbed i = true := by
  refine List.all_eq_true.mpr fun c _ => ?_
  rw [hi]
  cases destinationOf c.instr <;> simp [rangesMeet, ByteRange.meets]

section Undisturbed
variable {c : Context} {s t : State} {i : Instr}

/-- A micro-step that keeps the transaction without notes and does not change the state. -/
def Progress.Undisturbed (s : State) : Progress → Prop := Progress.All (fun c t => c.stale = [] ∧ t = s) (· = s)

theorem undisturbed_foldPipeline (hs : c.stale = []) : (foldPipeline c s).Undisturbed s := by
  rcases foldPipeline_cases c s with ⟨_, e⟩ | ⟨_, e⟩ | ⟨_, e⟩ | ⟨_, e⟩ <;> rw [e]
  · exact ⟨hs, rfl⟩
  · exact ⟨hs, rfl⟩
  · exact ⟨hs, rfl⟩
  · exact rfl

/-- A micro-step of a command that writes nothing changes the state only where it reads a racing byte (R39, R49). -/
theorem undisturbed_tickOf (hd : destinationOf i = none) (hs : c.stale = []) : (tickOf i c s).Undisturbed s := by
  have hafter (a : Nat) : s.afterSource c a = s :=
    (sourceByte_of_no_note (d := .direct) (by rw [hs, staleAt_nil])).2
  cases i with
  | acc seed base size len =>
    change (accTick base len c s).Undisturbed s
    unfold accTick
    split
    · exact all_atAddress fun _ => ⟨(feed_stale c _).trans hs, hafter _⟩
    · exact rfl
  | copy => cases hd
  | fold => exact undisturbed_foldPipeline hs
  | phc proto len16 sum saddr daddr =>
    change (phcTick proto len16 saddr daddr c s).Undisturbed s
    unfold phcTick
    split
    · exact ⟨hs, rfl⟩
    · exact undisturbed_foldPipeline hs
  | fast words base size =>
    change (fastTick words base c s).Undisturbed s
    unfold fastTick
    split
    · split
      · exact all_atAddress fun _ => ⟨hs, by simp only [afterFastWord, hafter]⟩
      · exact undisturbed_foldPipeline hs
    · exact undisturbed_foldPipeline hs

/-- An undisturbed run of a command that writes nothing draws no free value. -/
theorem drive_draws (hd : destinationOf i = none) (hs : c.stale = []) {n : Nat} (h : drive (tickOf i) n c s = .next t) :
    t.draws = s.draws := by
  have lead {c' : Context} {s' : State} {p : Progress} (hP : c'.stale = [] ∧ s' = s) (e : tickOf i c' s' = p) :
      p.Undisturbed s := by
    obtain ⟨hs', rfl⟩ := hP
    exact e ▸ undisturbed_tickOf hd hs'
  refine drive_induct (fun c' u => c'.stale = [] ∧ u = s) (fun u => u.draws = s.draws) (fun _ _ _ _ hP e => lead hP e)
    ?park ?wait ?returned ?raised n ⟨hs, rfl⟩ h
  case park => rintro _ _ ⟨_, rfl⟩; rfl
  case wait =>
    intro _ _ _ _ hP e
    obtain ⟨_, rfl⟩ := lead hP e
    rfl
  case returned =>
    intro _ _ _ _ hP e
    obtain rfl := lead hP e
    rfl
  case raised =>
    intro c' s' _ _ _ e
    have hwithin := within_tickOf i c' s'
    rw [e] at hwithin
    obtain ⟨_, _, hdest, _⟩ := hwithin
    exact absurd hd hdest

/-- An undisturbed command that writes nothing draws one free value: a RESULT it raises, or its registers at the start. -/
theorem exec_draws (hd : destinationOf i = none) (hu : s.readsUndisturbed i = true) (h : exec i s = .next t) :
    t.draws = s.draws + 1 := by
  cases hchk : checkOf i with
  | some st =>
    rw [exec_of_failed s hchk] at h
    cases h
    rfl
  | none =>
    rw [exec_of_pure s hd hchk] at h
    have hstart : (startOf i (s.newContext i)).stale = [] := by
      have hnew := overwritten_of_readsUndisturbed hu
      cases i <;> exact hnew
    exact drive_draws hd hstart h

end Undisturbed

/-! ## Views that do not fit -/

theorem viewInvalid_of_not_fits {base size : Word} {n : Nat} (h : ¬ViewFits base size n) :
    viewInvalid base size n = true := by
  rw [viewInvalid, Bool.or_eq_true, decide_eq_true_eq, decide_eq_true_eq, addressSpace]
  omega

theorem accCheck_of_not_fits {base size len : Word} (h : ¬ViewFits base size len.toNat) :
    accCheck base size len = some .invalidLength := if_pos (viewInvalid_of_not_fits h)

end Sys2Proof.Machine

namespace Sys2Proof.Proofs

open Sys2Proof.Machine

/-- Settles O25: no byte of the source is noted as racing, so ACC reads what memory holds and draws one free value. -/
theorem accResult : Obligations.AccResult := by
  intro seed base size len s hfits hu
  obtain ⟨b, d, hlen, hreads, hrun⟩ := exec_acc (seed := seed) s (accCheck_eq_none.mpr (viewInvalid_of_fits hfits))
  rw [overwritten_of_readsUndisturbed hu] at hreads
  obtain rfl : d = s.draws + 1 := exec_draws rfl hu hrun
  rw [hrun, hreads.eq_bytes, hlen]

/-- Settles O26: the check of the view fails, and its status is raised. -/
theorem accInvalidLength : Obligations.AccInvalidLength :=
  fun seed base size len s hfits =>
    ⟨_, exec_of_failed s (i := .acc seed base size len) (accCheck_of_not_fits hfits)⟩

/-- Settles O27: an empty source is undisturbed in every state and AccBytes of no byte is the seed; a length of zero is
never over the size, so only the end of the view is left to check. -/
theorem accZeroLength : Obligations.AccZeroLength := by
  refine fun seed base size s => ⟨fun htop => ?fits, fun htop => ?top⟩
  case fits => exact accResult seed base size 0 s ⟨htop, Nat.zero_le _⟩ (readsUndisturbed_of_empty rfl s)
  case top => exact accInvalidLength seed base size 0 s fun ⟨hle, _⟩ => Nat.not_le.mpr htop hle

end Sys2Proof.Proofs

namespace Sys2Proof.Machine

/-! ## Sequences of bytes in memory -/

/-- A sequence of writes leaves every byte outside its range alone (R97). -/
theorem read_writeBytes_outside {base a : Nat} {b : List Byte} (h : a < base ∨ base + b.length ≤ a) (m : Memory) :
    (m.writeBytes base b).read a = m.read a := by
  induction b generalizing m base with
  | nil => rfl
  | cons x rest ih =>
    rw [List.length_cons] at h
    exact (ih (by omega) (m.write base x)).trans (read_write_ne (by omega) m x)

/-- The bytes written read back in order (R97). -/
theorem bytes_writeBytes (m : Memory) (base : Nat) (b : List Byte) :
    (m.writeBytes base b).bytes base b.length = b := by
  induction b generalizing m base with
  | nil => rfl
  | cons x rest ih =>
    have hfirst : ((m.write base x).writeBytes (base + 1) rest).read base = x :=
      (read_writeBytes_outside (.inl (Nat.lt_succ_self base)) _).trans (read_write_eq m base x)
    rw [List.length_cons, bytes_succ, Memory.writeBytes, hfirst, ih]

end Sys2Proof.Machine

namespace Sys2Proof.Proofs

open Sys2Proof.Machine

/-- Settles O29: the first byte is at its address and the writes behind it do not touch it. -/
theorem writeBytesReadsBack : Obligations.WriteBytesReadsBack :=
  fun m base b => ⟨bytes_writeBytes m base b, fun _ h => read_writeBytes_outside h m⟩

end Sys2Proof.Proofs

namespace Sys2Proof.Machine

/-! ## Ranges that share a byte -/

theorem ByteRange.covers_iff (r : ByteRange) (d : Domain) (a : Nat) :
    r.covers d a = true ↔ r.dom = d ∧ r.base ≤ a ∧ a < r.base + r.len := by
  simp only [ByteRange.covers, Bool.and_eq_true, decide_eq_true_eq, and_assoc]

/-- Two ranges meet exactly when there is a byte in both; the higher of the two bases is one (R105). -/
theorem ByteRange.meets_iff (r q : ByteRange) :
    r.meets q = true ↔ ∃ d a, r.covers d a = true ∧ q.covers d a = true := by
  simp only [ByteRange.covers_iff, ByteRange.meets, Bool.and_eq_true, decide_eq_true_eq]
  constructor
  · rintro ⟨⟨⟨⟨hdom, hr⟩, hq⟩, hrq⟩, hqr⟩
    exact ⟨q.dom, max r.base q.base, ⟨hdom, by omega, by omega⟩, rfl, by omega, by omega⟩
  · rintro ⟨d, a, ⟨hr, _, _⟩, hq, _, _⟩
    exact ⟨⟨⟨⟨hr.trans hq.symm, by omega⟩, by omega⟩, by omega⟩, by omega⟩

theorem rangesMeet_iff (p q : Option ByteRange) :
    rangesMeet p q = true ↔ ∃ d a, rangeCovers p d a = true ∧ rangeCovers q d a = true := by
  cases p with
  | none => simp [rangesMeet, rangeCovers]
  | some r =>
    cases q with
    | none => simp [rangesMeet, rangeCovers]
    | some q => exact r.meets_iff q

/-- A byte of one range is in no range that does not meet it. -/
theorem not_covers_of_not_meets {p q : Option ByteRange} (h : rangesMeet p q = false) {d : Domain} {a : Nat}
    (hq : rangeCovers q d a = true) : rangeCovers p d a = false := by
  rw [← Bool.not_eq_true, rangesMeet_iff] at h
  exact Bool.eq_false_iff.mpr fun hp => h ⟨d, a, hp, hq⟩

section Copy
variable {sdom ddom : Domain} {seed srcBase srcSize len dstBase dstSize : Word}

/-- A COPY overlaps itself exactly when its source and its destination share a byte of one domain (R105). -/
theorem selfOverlap_copy_iff :
    selfOverlap (.copy sdom ddom seed srcBase srcSize len dstBase dstSize) = true ↔
      sdom = ddom ∧ ∃ a, srcBase.toNat ≤ a ∧ a < srcBase.toNat + len.toNat ∧
        dstBase.toNat ≤ a ∧ a < dstBase.toNat + len.toNat := by
  simp only [selfOverlap, sourceOf, destinationOf, rangesMeet_iff, rangeCovers, ByteRange.covers_iff]
  constructor
  · rintro ⟨d, a, ⟨rfl, hs⟩, hd, ht⟩
    exact ⟨hd.symm, a, hs.1, hs.2, ht⟩
  · rintro ⟨rfl, a, h1, h2, ht⟩
    exact ⟨sdom, a, ⟨rfl, h1, h2⟩, rfl, ht⟩

/-- A COPY touches a destination in use exactly when it would write a byte that a COPY in flight writes (R49, R108). -/
theorem touchesBusy_copy_iff (s : State) :
    s.touchesBusy (.copy sdom ddom seed srcBase srcSize len dstBase dstSize) = true ↔
      ∃ c ∈ s.contexts, ∃ a, rangeCovers (destinationOf c.instr) ddom a = true ∧
        dstBase.toNat ≤ a ∧ a < dstBase.toNat + len.toNat := by
  simp only [State.touchesBusy, List.any_eq_true, destinationsMeet, destinationOf, rangesMeet_iff]
  refine exists_congr fun c => and_congr_right fun _ => ⟨?_, ?_⟩
  · rintro ⟨d, a, hcopy, hc⟩
    obtain ⟨rfl, ha⟩ := (ByteRange.covers_iff _ d a).mp hcopy
    exact ⟨a, hc, ha⟩
  · rintro ⟨a, hc, ha⟩
    exact ⟨ddom, a, (ByteRange.covers_iff _ ddom a).mpr ⟨rfl, ha⟩, hc⟩

theorem copyCheck_of_fits (hsrc : ViewFits srcBase srcSize len.toNat) (hdst : ViewFits dstBase dstSize len.toNat) :
    copyCheck srcBase srcSize len dstBase dstSize = none :=
  copyCheck_eq_none.mpr ⟨viewInvalid_of_fits hsrc, viewInvalid_of_fits hdst⟩

/-- The checks of COPY fail when a view fails, be it the source or the destination (R96). -/
theorem copyCheck_of_not_fits (h : ¬(ViewFits srcBase srcSize len.toNat ∧ ViewFits dstBase dstSize len.toNat)) :
    copyCheck srcBase srcSize len dstBase dstSize = some .invalidLength := by
  unfold copyCheck
  by_cases hsrc : ViewFits srcBase srcSize len.toNat
  · have hdst : viewInvalid dstBase dstSize len.toNat = true := viewInvalid_of_not_fits fun hdst => h ⟨hsrc, hdst⟩
    rw [if_pos hdst, ite_self]
  · rw [if_pos (viewInvalid_of_not_fits hsrc)]

end Copy

end Sys2Proof.Machine

namespace Sys2Proof.Proofs

open Sys2Proof.Machine

/-- Settles O32: with its checks passed, what is left to refuse a COPY is that it overlaps itself or touches a
destination in use, each of which is a shared byte; a run is never refused. -/
theorem copyRefusals : Obligations.CopyRefusals := by
  intro sdom ddom seed srcBase srcSize len dstBase dstSize s i overlaps busy hsrc hdst
  have hchk : checkOf i = none := copyCheck_of_fits hsrc hdst
  have hov : selfOverlap i = true ↔ overlaps := selfOverlap_copy_iff
  have hbusy : s.touchesBusy i = true ↔ busy := touchesBusy_copy_iff s
  simp only [← hov, ← hbusy, exec_eq_gate, gate, hchk, Bool.not_eq_true]
  refine ⟨fun ho => if_pos ho, fun ho hb => ?_, fun ho hb r => ?_⟩
  · simp only [ho, hb, if_true, Bool.false_eq_true, if_false]
  · simp only [ho, hb, Bool.false_eq_true, if_false]
    exact drive_not_refused _ _ _ r

/-- Settles O30: the check of one of the two views fails, and its status is raised. -/
theorem copyInvalidLength : Obligations.CopyInvalidLength :=
  fun sdom ddom seed srcBase srcSize len dstBase dstSize s h =>
    ⟨_, exec_of_failed s (i := .copy sdom ddom seed srcBase srcSize len dstBase dstSize) (copyCheck_of_not_fits h)⟩

end Sys2Proof.Proofs

namespace Sys2Proof.Machine

/-! ## CopyFault -/

/-- No check answers CopyFault: only the run of a COPY raises it (R101, R146). -/
theorem checkOf_ne_copyFault (i : Instr) : checkOf i ≠ some .copyFault := by
  cases i with
  | acc => simp [checkOf, accCheck]
  | copy => simp only [checkOf, copyCheck]; split_ifs <;> simp
  | fold => simp [checkOf, foldCheck]
  | phc => simp [checkOf, phcCheck]
  | fast => simp only [checkOf, fastCheck]; split_ifs <;> simp

theorem code_eq_one_iff (st : Status) : st.code = 1 ↔ st = .copyFault := by cases st <;> decide

/-- A micro-step of COPY raises a status only where a supervised access is faulted (R101). -/
theorem supervised_of_copyTick_raised {sdom ddom : Domain} {srcBase len dstBase : Word} {c : Context} {s t : State}
    {st : Status} (h : copyTick sdom ddom srcBase len dstBase c s = .raised st t) :
    sdom = .supervised ∨ ddom = .supervised := by
  have haddress (a : Nat) (c' : Context) (u : State) : atAddress a (.busy c' u) ≠ .raised st t := by
    rcases atAddress_cases a (.busy c' u) with ⟨_, e⟩ | ⟨_, e⟩ <;> rw [e] <;> simp
  unfold copyTick at h
  simp only at h
  split at h
  · split at h
    · unfold copyRead at h
      split at h
      · cases h
      · next hask => exact .inl (ask_faulted hask).1
      · exact absurd h (haddress _ _ _)
    · unfold copyWrite at h
      split at h
      · cases h
      · next hask => exact .inr (ask_faulted hask).1
      · exact absurd h (haddress _ _ _)
  · cases h

/-- A COPY with a side in SUPERVISED. -/
def SupervisedCopy (i : Instr) : Prop :=
  ∃ sdom ddom seed srcBase srcSize len dstBase dstSize,
    i = .copy sdom ddom seed srcBase srcSize len dstBase dstSize ∧ (sdom = .supervised ∨ ddom = .supervised)

theorem supervisedCopy_of_tickOf_raised {i : Instr} {c : Context} {s t : State} {st : Status}
    (h : tickOf i c s = .raised st t) : SupervisedCopy i := by
  have hwithin := within_tickOf i c s
  rw [h] at hwithin
  obtain ⟨_, _, hdest, _⟩ := hwithin
  cases i with
  | copy => exact ⟨_, _, _, _, _, _, _, _, rfl, supervised_of_copyTick_raised h⟩
  | _ => exact absurd rfl hdest

/-- A run that has written a response with status 1 was raised by a micro-step, after a fault of the environment. -/
theorem drive_copyFault {i : Instr} {n : Nat} {c : Context} {s t : State} (h : drive (tickOf i) n c s = .next t)
    {r : Response} (hr : t.responses = s.responses ++ [r]) (hcode : r.r0 = 1) :
    Answer.fault ∈ s.answers ∧ SupervisedCopy i := by
  have lead {c' : Context} {u : State} {p : Progress} (hu : Touches (destinationOf i) s u) (e : tickOf i c' u = p) :
      p.Within (destinationOf i) c' u := e ▸ within_tickOf i c' u
  have silent {u : State} (hu : u.responses = s.responses) (hr : u.responses = s.responses ++ [r]) :
      Answer.fault ∈ s.answers ∧ SupervisedCopy i := by simp [hu] at hr
  refine drive_induct (fun _ u => Touches (destinationOf i) s u)
    (fun u => u.responses = s.responses ++ [r] → Answer.fault ∈ s.answers ∧ SupervisedCopy i)
    (fun _ _ _ _ hu e => hu.trans (lead hu e).2) (fun _ _ hu => silent hu.responses) ?wait ?returned ?raised n
    (Touches.refl _ s) h hr
  case wait =>
    intro _ _ _ _ hu e
    obtain ⟨_, rfl, _⟩ := lead hu e
    exact silent hu.responses
  case returned =>
    intro c' _ v _ hu e hr
    have hkept := (hu.trans (lead hu e)).responses
    rw [respond_responses, hkept, List.append_cancel_left_eq, List.singleton_inj] at hr
    rw [← hr] at hcode
    exact absurd ((code_eq_one_iff .ok).mp hcode) (by decide)
  case raised =>
    intro _ _ _ _ hu e _
    obtain ⟨_, _, _, hfault⟩ := lead hu e
    exact ⟨hu.answers.subset hfault, supervisedCopy_of_tickOf_raised e⟩

end Sys2Proof.Machine

namespace Sys2Proof.Proofs

open Sys2Proof.Machine

/-- Settles O37: no check answers status 1, so a micro-step raised it, and only that of a COPY whose supervised access
is faulted raises a status. -/
theorem copyFaultNeedsSupervisedFault : Obligations.CopyFaultNeedsSupervisedFault := by
  intro i s t r h hr hcode
  rw [exec_eq_gate] at h
  rcases gate_next h with ⟨st, hchk, rfl⟩ | ⟨_, _, _, hrun⟩
  · rw [raise_responses, List.append_cancel_left_eq, List.singleton_inj] at hr
    rw [← hr, code_eq_one_iff] at hcode
    exact absurd (hcode ▸ hchk) (checkOf_ne_copyFault i)
  · exact drive_copyFault (s := s.draw) hrun hr hcode

end Sys2Proof.Proofs

namespace Sys2Proof.Machine

/-! ## COPY between disjoint buffers -/

/-- The state when a COPY has written these bytes from an address on and these answers are left (R97, R40). -/
def State.written (s : State) (d : Domain) (a : Nat) (b : List Byte) (left : List Answer) : State :=
  { s.setMem d ((s.mem d).writeBytes a b) with answers := left }

/-- No transaction in flight has a byte of this range in its source (R49). -/
def State.Unread (s : State) (r : ByteRange) : Prop :=
  ∀ c ∈ s.contexts, ∀ d a, r.covers d a = true → rangeCovers (sourceOf c.instr) d a = false

/-- What a transaction keeps when it has copied these bytes, and what it has made of them (R97, R106). -/
structure Context.HasCopied (c : Context) (b : List Byte) (c' : Context) : Prop where
  same : SameIdentity c' c
  pos : c'.pos.toNat = c.pos.toNat + b.length
  latch : c'.latch = none
  stale : c'.stale = c.stale
  total : c'.total [] = c.total b

section Written
variable (s : State) (d : Domain) (a : Nat) (b : List Byte) (left : List Answer)

@[simp] theorem written_cmd : (s.written d a b left).cmd = s.cmd := by cases d <;> rfl
@[simp] theorem written_port : (s.written d a b left).port = s.port := by cases d <;> rfl
@[simp] theorem written_contexts : (s.written d a b left).contexts = s.contexts := by cases d <;> rfl
@[simp] theorem written_responses : (s.written d a b left).responses = s.responses := by cases d <;> rfl
@[simp] theorem written_answers : (s.written d a b left).answers = left := rfl
@[simp] theorem written_agenda : (s.written d a b left).agenda = s.agenda := by cases d <;> rfl
@[simp] theorem written_mem : (s.written d a b left).mem d = (s.mem d).writeBytes a b := by cases d <;> rfl
theorem written_mem_other {e : Domain} (h : e ≠ d) : (s.written d a b left).mem e = s.mem e := by
  rw [← mem_setMem_ne h s ((s.mem d).writeBytes a b)]
  cases e <;> rfl

theorem written_nil : s.written d a [] s.answers = s := by cases d <;> rfl

theorem written_written (x : Byte) (mid : List Answer) :
    (s.written d a [x] mid).written d (a + 1) b left = s.written d a (x :: b) left := by cases d <;> rfl

/-- Bytes written change no byte outside their range, in either domain (R39). -/
theorem written_read_outside {e : Domain} {y : Nat} (h : e ≠ d ∨ y < a ∨ a + b.length ≤ y) :
    ((s.written d a b left).mem e).read y = (s.mem e).read y := by
  by_cases he : e = d
  · subst he
    rw [written_mem, read_writeBytes_outside (h.resolve_left (fun hne => hne rfl))]
  · rw [written_mem_other s d a b left he]

end Written

section Unread
variable {s : State} {r : ByteRange} {d : Domain} {a : Nat}

theorem State.Unread.congr (h : s.Unread r) {t : State} (ht : t.contexts = s.contexts) : t.Unread r := by
  unfold State.Unread
  rwa [ht]

/-- A byte no transaction reads is written without a note (R49). -/
theorem State.Unread.poke_contexts (h : s.Unread r) (ha : r.covers d a = true) (x : Byte) :
    (s.poke d a x).contexts = s.contexts := by
  rw [Machine.poke_contexts]
  exact (List.map_congr_left fun c hc => noteOverwrite_of_not_covers d a _ c (h c hc d a ha)).trans (List.map_id _)

theorem State.Unread.poke_eq (h : s.Unread r) (ha : r.covers d a = true) (x : Byte) :
    s.poke d a x = s.written d a [x] s.answers := by
  have hctx := (Machine.poke_contexts s d a x).symm.trans (h.poke_contexts ha x)
  rw [State.poke, hctx]
  cases d <;> rfl

/-- Free values in a range no transaction reads leave no note (R103). -/
theorem State.Unread.scramble_contexts (h : s.Unread r) : (s.scramble r.dom r.base r.len).contexts = s.contexts := by
  refine scramble_induct (P := fun t => t.contexts = s.contexts) r.dom r.len (fun t y x hlo hhi ht => ?_)
    (fun _ ht => ht) rfl
  exact ((h.congr ht).poke_contexts ((r.covers_iff r.dom y).mpr ⟨rfl, hlo, hhi⟩) x).trans ht

end Unread

/-- A COPY between two bytes of its own, over buffers that fit, share no byte and are disjoint from those in flight
(R37, R49, R105). -/
structure CopyAlone (sdom ddom : Domain) (srcBase len dstBase : Word) (c : Context) (s : State) : Prop where
  srcFits : srcBase.toNat + len.toNat ≤ addressSpace
  dstFits : dstBase.toNat + len.toNat ≤ addressSpace
  apart : (ByteRange.mk sdom srcBase.toNat len.toNat).meets ⟨ddom, dstBase.toNat, len.toNat⟩ = false
  unread : s.Unread ⟨ddom, dstBase.toNat, len.toNat⟩
  latch : c.latch = none
  stale : c.stale = []

section HasCopied
variable {c c' : Context} {x : Byte} {b : List Byte} {undo : List Host.Cell}

theorem hasCopied_nil (hl : c.latch = none) : c.HasCopied [] c := ⟨⟨rfl, rfl, rfl⟩, rfl, hl, rfl, rfl⟩

theorem Context.HasCopied.cons {len : Word} (hp : c.pos.toNat < len.toNat) (h : (c.copied x undo).HasCopied b c') :
    c.HasCopied (x :: b) c' where
  same := by
    obtain ⟨htid, hframe, hinstr⟩ := h.same
    exact ⟨htid.trans (feed_tid c x), hframe.trans (feed_frame c x), hinstr.trans (feed_instr c x)⟩
  pos := by rw [h.pos, copied_pos, toNat_add_one hp, List.length_cons]; omega
  latch := h.latch
  stale := h.stale.trans (copied_stale c x undo)
  total := h.total.trans (copied_total c x undo b)

end HasCopied

section Run
variable {sdom ddom : Domain} {srcBase len dstBase : Word} {c : Context} {s u : State} {n : Nat} {left : List Answer}

/-- A transaction between two bytes without notes is as alone as the one it goes on from. -/
theorem CopyAlone.congr {c' : Context} (h : CopyAlone sdom ddom srcBase len dstBase c s) (hl : c'.latch = none)
    (hs : c'.stale = c.stale) (hu : u.contexts = s.contexts) : CopyAlone sdom ddom srcBase len dstBase c' u where
  srcFits := h.srcFits
  dstFits := h.dstFits
  apart := h.apart
  unread := h.unread.congr hu
  latch := hl
  stale := hs.trans h.stale

/-- A granted read without notes fills the latch with what memory holds (R97). -/
theorem CopyAlone.tick_read (h : CopyAlone sdom ddom srcBase len dstBase c s) (hp : c.pos.toNat < len.toNat)
    (hu : s.ask sdom = .granted u) :
    copyTick sdom ddom srcBase len dstBase c s =
      .busy { c with latch := some ((s.mem sdom).read (srcBase.toNat + c.pos.toNat)) } u := by
  obtain ⟨hbyte, hafter⟩ := sourceByte_of_no_note (s := u) (c := c) (d := sdom) (a := srcBase.toNat + c.pos.toNat)
    (by rw [h.stale, staleAt_nil])
  have hmem : u.mem sdom = s.mem sdom := by
    obtain ⟨_, _, e, _⟩ := ask_granted hu
    rw [e]
    cases sdom <;> rfl
  have hfits := h.srcFits
  rw [copyTick_reads hp h.latch hu (by omega), hbyte, hafter, hmem]

/-- A granted write leaves no note with the transactions in flight (R49, R97). -/
theorem CopyAlone.tick_write (h : CopyAlone sdom ddom srcBase len dstBase c s) (hp : c.pos.toNat < len.toNat) (x : Byte)
    (hu : s.ask ddom = .granted u) :
    ∃ undo, copyTick sdom ddom srcBase len dstBase { c with latch := some x } s =
      .busy (c.copied x undo) (s.written ddom (dstBase.toNat + c.pos.toNat) [x] u.answers) := by
  have hfits := h.dstFits
  have hwrite := copyTick_writes (sdom := sdom) (srcBase := srcBase) (dstBase := dstBase)
    (c := { c with latch := some x }) hp rfl hu (by simp only; omega)
  have hcovers : (ByteRange.mk ddom dstBase.toNat len.toNat).covers ddom (dstBase.toNat + c.pos.toNat) = true :=
    (ByteRange.covers_iff _ ddom _).mpr ⟨rfl, by simp only; omega, by simp only; omega⟩
  obtain ⟨_, _, e, _⟩ := ask_granted hu
  have hpoke : u.poke ddom (dstBase.toNat + c.pos.toNat) x =
      s.written ddom (dstBase.toNat + c.pos.toNat) [x] u.answers := by
    rw [(h.unread.congr (t := u) (by rw [e])).poke_eq hcovers, e]
    cases ddom <;> rfl
  rw [feed_of_latch, hpoke] at hwrite
  exact ⟨_, hwrite⟩

/-- One byte of COPY with both its accesses answered (R97). -/
theorem CopyAlone.drive_byte (h : CopyAlone sdom ddom srcBase len dstBase c s) (hp : c.pos.toNat < len.toNat)
    (ha : s.answers = List.replicate (supervisedAccesses sdom ddom (n + 1)) .succeed ++ left) :
    ∃ undo, ∀ m, drive (copyTick sdom ddom srcBase len dstBase) (m + 2) c s =
      drive (copyTick sdom ddom srcBase len dstBase) m
        (c.copied ((s.mem sdom).read (srcBase.toNat + c.pos.toNat)) undo)
        (s.written ddom (dstBase.toNat + c.pos.toNat) [(s.mem sdom).read (srcBase.toNat + c.pos.toNat)]
          (List.replicate (supervisedAccesses sdom ddom n) .succeed ++ left)) := by
  rw [supervisedAccesses_succ] at ha
  have hread := h.tick_read hp (ask_of_succeed ha)
  set u : State := { s with answers := _ }
  have hu : CopyAlone sdom ddom srcBase len dstBase c u := h.congr h.latch rfl rfl
  obtain ⟨undo, hwrite⟩ := hu.tick_write hp ((s.mem sdom).read (srcBase.toNat + c.pos.toNat)) (ask_of_succeed rfl)
  refine ⟨undo, fun m => ?_⟩
  rw [drive, hread]
  simp only
  rw [drive, hwrite]
  cases ddom <;> rfl

/-- COPY runs through the bytes whose accesses are answered: it writes them and goes on behind them (R97, R106). -/
theorem CopyAlone.drive_bytes (h : CopyAlone sdom ddom srcBase len dstBase c s) (hn : c.pos.toNat + n ≤ len.toNat)
    (ha : s.answers = List.replicate (supervisedAccesses sdom ddom n) .succeed ++ left) :
    ∃ c', c.HasCopied ((s.mem sdom).bytes (srcBase.toNat + c.pos.toNat) n) c' ∧
      ∀ m, drive (copyTick sdom ddom srcBase len dstBase) (m + 2 * n) c s =
        drive (copyTick sdom ddom srcBase len dstBase) m c' (s.written ddom (dstBase.toNat + c.pos.toNat)
          ((s.mem sdom).bytes (srcBase.toNat + c.pos.toNat) n) left) := by
  induction n generalizing c s with
  | zero =>
    obtain rfl : s.answers = left := by simpa [supervisedAccesses] using ha
    exact ⟨c, hasCopied_nil h.latch, fun m => by rw [bytes_zero, written_nil]; rfl⟩
  | succ n ih =>
    have hp : c.pos.toNat < len.toNat := by omega
    obtain ⟨undo, hbyte⟩ := h.drive_byte hp ha
    set x := (s.mem sdom).read (srcBase.toNat + c.pos.toNat)
    set v := s.written ddom (dstBase.toNat + c.pos.toNat) [x] _ with hv
    have hnext : (c.copied x undo).pos.toNat = c.pos.toNat + 1 := by rw [copied_pos, toNat_add_one hp]
    obtain ⟨c', hcopied, hrun⟩ := ih (c := c.copied x undo) (s := v)
      (h.congr rfl (copied_stale ..) (written_contexts ..)) (by omega) rfl
    have hsource : (v.mem sdom).bytes (srcBase.toNat + (c.pos.toNat + 1)) n =
        (s.mem sdom).bytes (srcBase.toNat + c.pos.toNat + 1) n := by
      refine bytes_congr fun y hlo hhi => written_read_outside _ _ _ _ _ ?_
      have hapart := source_ne_destination (seed := 0) (srcSize := 0) (dstSize := 0) h.apart
        (j := y - srcBase.toNat) (k := c.pos.toNat) (by omega) hp
      refine hapart.imp_right fun hne => ?_
      rw [List.length_singleton]
      omega
    rw [hnext, hsource] at hcopied hrun
    rw [bytes_succ]
    refine ⟨c', hcopied.cons hp, fun m => ?_⟩
    rw [← written_written, Nat.mul_succ, ← Nat.add_assoc, hbyte]
    exact hrun m

/-- The domain of the next access of a COPY with bytes left: the read, or with a byte in the latch the write (R97). -/
def copyAsks (sdom ddom : Domain) (c : Context) : Domain := if c.latch = none then sdom else ddom

theorem copyTick_of_unanswered (hp : c.pos.toNat < len.toNat) (hasks : copyAsks sdom ddom c = .supervised)
    (ha : s.answers = []) : copyTick sdom ddom srcBase len dstBase c s = .waiting c s := by
  have hask : s.ask (copyAsks sdom ddom c) = .unanswered := by simp only [hasks, State.ask, ha]
  cases hl : c.latch with
  | none =>
    rw [copyAsks, if_pos hl] at hask
    simp only [copyTick, if_pos hp, hl, copyRead, hask]
  | some x =>
    rw [copyAsks, if_neg (by simp [hl])] at hask
    simp only [copyTick, if_pos hp, hl, copyWrite, hask]

theorem copyTick_of_faulted (hp : c.pos.toNat < len.toNat) (hasks : copyAsks sdom ddom c = .supervised)
    (ha : s.answers = .fault :: left) :
    copyTick sdom ddom srcBase len dstBase c s =
      copyFault ⟨ddom, dstBase.toNat, len.toNat⟩ { s with answers := left } := by
  have hask : s.ask (copyAsks sdom ddom c) = .faulted { s with answers := left } := by simp only [hasks, State.ask, ha]
  cases hl : c.latch with
  | none =>
    rw [copyAsks, if_pos hl] at hask
    simp only [copyTick, if_pos hp, hl, copyRead, hask]
  | some x =>
    rw [copyAsks, if_neg (by simp [hl])] at hask
    simp only [copyTick, if_pos hp, hl, copyWrite, hask]

/-- With fewer successes at hand than a byte needs, it is the read that lacks one, or else the write (R40, R97). -/
theorem read_or_write_short (hn : n < supervisedAccesses sdom ddom 1) :
    (n = 0 ∧ sdom = .supervised) ∨ (n = (if sdom = .supervised then 1 else 0) ∧ ddom = .supervised) := by
  cases sdom <;> cases ddom <;> simp [supervisedAccesses] at hn ⊢ <;> omega

/-- With fewer successes at hand than a byte needs, COPY comes to a supervised access that has none (R40, R97). -/
theorem CopyAlone.drive_short (h : CopyAlone sdom ddom srcBase len dstBase c s) (hp : c.pos.toNat < len.toNat)
    (hn : n < supervisedAccesses sdom ddom 1) (ha : s.answers = List.replicate n .succeed ++ left) (m : Nat) :
    ∃ c' m', SameIdentity c' c ∧ c'.pos = c.pos ∧ copyAsks sdom ddom c' = .supervised ∧
      drive (copyTick sdom ddom srcBase len dstBase) (m + 2) c s =
        drive (copyTick sdom ddom srcBase len dstBase) (m' + 1) c' { s with answers := left } := by
  rcases read_or_write_short hn with ⟨rfl, hsup⟩ | ⟨hcount, hsup⟩
  · obtain rfl : s.answers = left := ha
    exact ⟨c, m + 1, ⟨rfl, rfl, rfl⟩, rfl, by rw [copyAsks, if_pos h.latch, hsup], rfl⟩
  · rw [hcount] at ha
    refine ⟨{ c with latch := some ((s.mem sdom).read (srcBase.toNat + c.pos.toNat)) }, m, ⟨rfl, rfl, rfl⟩, rfl, hsup,
      ?_⟩
    rw [drive, h.tick_read hp (ask_of_succeed (n := 0) ha)]
    rfl

end Run

/-! ## COPY between disjoint buffers, executed -/

theorem supervisedAccesses_eq_mul (sdom ddom : Domain) (n : Nat) :
    supervisedAccesses sdom ddom n = n * supervisedAccesses sdom ddom 1 := by
  cases sdom <;> cases ddom <;> simp [supervisedAccesses]
  omega

theorem disjointFrom_iff (s : State) (i : Instr) :
    s.disjointFrom i = true ↔ s.readsUndisturbed i = true ∧ s.touchesBusy i = false ∧
      ∀ c ∈ s.contexts, rangesMeet (sourceOf c.instr) (destinationOf i) = false := by
  simp only [State.disjointFrom, State.readsUndisturbed, State.touchesBusy, List.all_eq_true, List.any_eq_false,
    Bool.and_eq_true, Bool.not_eq_true', Bool.not_eq_true, forall_and, and_assoc]

/-- An empty COPY shares no byte with itself or with a transaction in flight (R99). -/
theorem empty_copy_apart (sdom ddom : Domain) (seed srcBase srcSize dstBase dstSize : Word) (s : State) :
    selfOverlap (.copy sdom ddom seed srcBase srcSize 0 dstBase dstSize) = false ∧
      s.disjointFrom (.copy sdom ddom seed srcBase srcSize 0 dstBase dstSize) = true := by
  have hzero : (0 : Word).toNat = 0 := rfl
  simp only [disjointFrom_iff, ← Bool.not_eq_true, selfOverlap_copy_iff, touchesBusy_copy_iff, rangesMeet_iff,
    destinationOf, rangeCovers, ByteRange.covers_iff, hzero]
  refine ⟨?own, readsUndisturbed_of_empty rfl s, ?busy, ?read⟩
  case own => rintro ⟨_, a, h⟩; omega
  case busy => rintro ⟨_, _, a, h⟩; omega
  case read => rintro _ _ ⟨_, a, h⟩; omega

section Exec
variable {sdom ddom : Domain} {seed srcBase srcSize len dstBase dstSize : Word} {s : State} {n : Nat}
  {left : List Answer} (hsrc : ViewFits srcBase srcSize len.toNat)
  (hdst : ViewFits dstBase dstSize len.toNat)
  (hov : selfOverlap (.copy sdom ddom seed srcBase srcSize len dstBase dstSize) = false)
  (hdis : s.disjointFrom (.copy sdom ddom seed srcBase srcSize len dstBase dstSize) = true)
include hsrc hdst hov hdis

theorem copyAlone_start : CopyAlone sdom ddom srcBase len dstBase
    (copyStart seed (s.newContext (.copy sdom ddom seed srcBase srcSize len dstBase dstSize))) s.draw := by
  obtain ⟨hreads, _, hunread⟩ := (disjointFrom_iff s _).mp hdis
  exact ⟨view_fits (viewInvalid_of_fits hsrc), view_fits (viewInvalid_of_fits hdst), hov,
    fun c hc _ _ ha => not_covers_of_not_meets (hunread c hc) ha, rfl, overwritten_of_readsUndisturbed hreads⟩

/-- COPY runs through the bytes whose accesses are answered, from its first register writes on (R97). -/
theorem exec_copy_bytes (hn : n ≤ len.toNat)
    (ha : s.answers = List.replicate (supervisedAccesses sdom ddom n) .succeed ++ left) :
    ∃ c, Context.HasCopied (copyStart seed (s.newContext (.copy sdom ddom seed srcBase srcSize len dstBase dstSize)))
        ((s.mem sdom).bytes srcBase.toNat n) c ∧
      exec (.copy sdom ddom seed srcBase srcSize len dstBase dstSize) s =
        drive (copyTick sdom ddom srcBase len dstBase) (2 * (len.toNat - n) + 1) c
          (s.draw.written ddom dstBase.toNat ((s.mem sdom).bytes srcBase.toNat n) left) := by
  obtain ⟨_, hfree, _⟩ := (disjointFrom_iff s _).mp hdis
  obtain ⟨c, hcopied, hrun⟩ := (copyAlone_start hsrc hdst hov hdis).drive_bytes (by simpa [copyStart] using hn) ha
  rw [draw_mem] at hcopied hrun
  have hsteps : copySteps len = 2 * (len.toNat - n) + 1 + 2 * n := by
    rw [copySteps]
    omega
  have hexec := exec_of_admitted (i := .copy sdom ddom seed srcBase srcSize len dstBase dstSize)
    (copyCheck_of_fits hsrc hdst) hov hfree
  rw [hexec, stepsOf, hsteps]
  exact ⟨c, hcopied, hrun _⟩

/-- COPY comes to the first supervised access for which no success is at hand, with the bytes before it copied (R97). -/
theorem exec_copy_short (hn : n < supervisedAccesses sdom ddom len.toNat)
    (ha : s.answers = List.replicate n .succeed ++ left) :
    ∃ c m, c.tid = s.cmd.tid ∧ c.frame = s.cmd.frame ∧
      c.instr = .copy sdom ddom seed srcBase srcSize len dstBase dstSize ∧
      c.pos.toNat = n / supervisedAccesses sdom ddom 1 ∧ c.pos.toNat < len.toNat ∧
      copyAsks sdom ddom c = .supervised ∧
      exec (.copy sdom ddom seed srcBase srcSize len dstBase dstSize) s =
        drive (copyTick sdom ddom srcBase len dstBase) (m + 1) c
          (s.draw.written ddom dstBase.toNat ((s.mem sdom).bytes srcBase.toNat c.pos.toNat) left) := by
  set per := supervisedAccesses sdom ddom 1 with hper
  rw [supervisedAccesses_eq_mul, ← hper] at hn
  have hpos : 0 < per := Nat.pos_of_mul_pos_left (Nat.zero_lt_of_lt hn)
  have hbytes : n / per < len.toNat := (Nat.div_lt_iff_lt_mul hpos).mpr hn
  have hsplit : s.answers = List.replicate (supervisedAccesses sdom ddom (n / per)) .succeed ++
      (List.replicate (n % per) .succeed ++ left) := by
    rw [supervisedAccesses_eq_mul, ← hper, ← List.append_assoc, List.replicate_append_replicate, Nat.div_add_mod', ha]
  obtain ⟨c, hcopied, hexec⟩ := exec_copy_bytes hsrc hdst hov hdis hbytes.le hsplit
  have hat : c.pos.toNat = n / per := by rw [hcopied.pos, bytes_length]; simp [copyStart]
  set b := (s.mem sdom).bytes srcBase.toNat (n / per) with hb
  have halone : CopyAlone sdom ddom srcBase len dstBase c
      (s.draw.written ddom dstBase.toNat b (List.replicate (n % per) .succeed ++ left)) :=
    (copyAlone_start hsrc hdst hov hdis).congr hcopied.latch hcopied.stale (written_contexts ..)
  obtain ⟨c', m, hsame, hpos', hasks, hrun⟩ :=
    halone.drive_short (hat ▸ hbytes) (Nat.mod_lt n hpos) rfl (2 * (len.toNat - n / per - 1) + 1)
  obtain ⟨htid, hframe, hinstr⟩ := hcopied.same
  rw [← hpos'] at hat
  refine ⟨c', m, hsame.1.trans htid, hsame.2.1.trans hframe, hsame.2.2.trans hinstr, hat, hat ▸ hbytes, hasks, ?_⟩
  have hfuel : 2 * (len.toNat - n / per) + 1 = 2 * (len.toNat - n / per - 1) + 1 + 2 := by omega
  rw [hexec, hfuel, hat, ← hb]
  exact hrun

end Exec

end Sys2Proof.Machine

namespace Sys2Proof.Proofs

open Sys2Proof.Machine

/-- Settles O28: with all its accesses answered COPY runs through all its bytes, and then returns their sum. -/
theorem copyResult : Obligations.CopyResult := by
  intro sdom ddom seed srcBase srcSize len dstBase dstSize s rest i hsrc hdst hov hdis ha b
  obtain ⟨c, hcopied, hexec⟩ := exec_copy_bytes hsrc hdst hov hdis le_rfl ha
  have hdone : c.pos.toNat = len.toNat := by rw [hcopied.pos, bytes_length]; simp [copyStart]
  have hsum : c.flush.sum = accBytes seed b := (total_nil c).symm.trans hcopied.total
  have htid : c.tid = s.cmd.tid := hcopied.same.1
  rw [hexec, drive, copyTick, if_neg (by omega), hsum, htid]
  cases ddom <;> rfl

/-- Settles O31: an empty COPY shares no byte with anything in any state and makes no access, so it is a COPY
of no bytes between disjoint buffers; a length of zero is never over a size, so only the ends of the views are left to
check. -/
theorem copyZeroLength : Obligations.CopyZeroLength := by
  intro sdom ddom seed srcBase srcSize dstBase dstSize s
  refine ⟨fun ⟨hsrc, hdst⟩ => ?fits, fun h => copyInvalidLength _ _ _ _ _ 0 _ _ s h⟩
  obtain ⟨hov, hdis⟩ := empty_copy_apart sdom ddom seed srcBase srcSize dstBase dstSize s
  have ha : s.answers = List.replicate (supervisedAccesses sdom ddom 0) .succeed ++ s.answers := by
    rw [supervisedAccesses_eq_mul, Nat.zero_mul]
    rfl
  rw [copyResult sdom ddom seed srcBase srcSize 0 dstBase dstSize s s.answers hsrc hdst hov hdis ha]
  cases ddom <;> rfl

/-- Settles O34: COPY comes to the faulted access with its first bytes written, and there free values fill its
destination, which no other transaction reads. -/
theorem copyFaultConfined : Obligations.CopyFaultConfined := by
  intro sdom ddom seed srcBase srcSize len dstBase dstSize s k rest i hsrc hdst hov hdis hk ha
  obtain ⟨c, m, htid, _, _, _, hp, hasks, hrun⟩ := exec_copy_short hsrc hdst hov hdis hk ha
  set w := s.draw.written ddom dstBase.toNat ((s.mem sdom).bytes srcBase.toNat c.pos.toNat) rest with hw
  have hexec : exec i s = .next ((w.scramble ddom dstBase.toNat len.toNat).raise c.tid .copyFault) := by
    rw [hrun, drive, copyTick_of_faulted hp hasks rfl]
    rfl
  have hunread : w.Unread ⟨ddom, dstBase.toNat, len.toNat⟩ :=
    (copyAlone_start hsrc hdst hov hdis).unread.congr (written_contexts ..)
  refine ⟨_, Config.freeWord (w.scramble ddom dstBase.toNat len.toNat).draws, hexec, ?responses, ?outside, ?contexts,
    ?answers, ?cmd, ?port, ?agenda⟩
  case responses => rw [raise_responses, scramble_responses, hw, written_responses, htid]; rfl
  case outside =>
    intro d a h
    rw [raise_mem, scramble_read_outside _ _ _ _ h, written_read_outside _ _ _ _ _ ?_, draw_mem]
    rw [bytes_length]
    exact h.imp_right (Or.imp_right (by omega))
  case contexts => exact hunread.scramble_contexts.trans (written_contexts ..)
  case answers => rw [raise_answers, scramble_answers, hw, written_answers]
  case cmd => rw [raise_cmd, scramble_cmd, hw, written_cmd, draw_cmd]
  case port => rw [raise_port, scramble_port, hw, written_port, draw_port]
  case agenda => rw [raise_agenda, scramble_agenda, hw, written_agenda, draw_agenda]

/-- Settles O35: COPY comes to the unanswered access with its first bytes written, and waits there. -/
theorem copySuspends : Obligations.CopySuspends := by
  intro sdom ddom seed srcBase srcSize len dstBase dstSize s k i hsrc hdst hov hdis hk ha
  obtain ⟨c, m, htid, hframe, hinstr, hpos, hp, hasks, hrun⟩ :=
    exec_copy_short hsrc hdst hov hdis hk (ha.trans (List.append_nil _).symm)
  rw [drive, copyTick_of_unanswered hp hasks rfl] at hrun
  refine ⟨_, c, hrun, ?responses, ?contexts, htid, hframe, hinstr, hpos, ?copied, ?outside, rfl⟩
  case responses => rw [park_responses, written_responses, draw_responses]
  case contexts => rw [park_contexts, written_contexts, draw_contexts]
  case copied =>
    have hback := bytes_writeBytes (s.mem ddom) dstBase.toNat ((s.mem sdom).bytes srcBase.toNat c.pos.toNat)
    rwa [bytes_length, ← draw_mem, ← written_mem, ← park_mem] at hback
  case outside =>
    intro d a h
    rw [park_mem, written_read_outside _ _ _ _ _ (by rwa [bytes_length]), draw_mem]

end Sys2Proof.Proofs

/-! A frame with a known opcode is the command of its row or rejected for its must-be-zero bits (spec/30_encoding.md rules
R57, R58). -/

namespace Sys2Proof

theorem opcodeKnown_of_code {c : CommandWord} {op : Opcode} (h : c.opc = op.code) : c.opcodeKnown = true := by
  rw [CommandWord.opcodeKnown, h]
  cases op <;> rfl

theorem decode_of_code {f : Frame} {op : Opcode} (h : opcField f.w0 = op.code) :
    decode f = .command (assemble op f) ∨ decode f = .rejected (.mustBeZero op.code) := by
  cases hsel : selectOpcode f.w0 with
  | some op' =>
    obtain ⟨hopc, -⟩ := (selectOpcode_eq_some_iff _ _).mp hsel
    obtain rfl : op' = op := Opcode.code_injective (hopc.symm.trans h)
    exact .inl ((decode_command_iff _ _).mpr ⟨op', hsel, rfl⟩)
  | none =>
    have hknown : (commandWordOf f.w0).opcodeKnown = true := opcodeKnown_of_code h
    exact .inr (by simp only [decode, hsel, rejection, hknown, if_true, h])

end Sys2Proof

namespace Sys2Proof.Machine

/-! ## The checksum as a RESULT -/

theorem checksumResult_toNat (c : Half) : (checksumResult c).toNat = c.toNat := toNat_setWidth_half c

theorem checksumResult_inj {c d : Half} : checksumResult c = checksumResult d ↔ c = d := by
  rw [← BitVec.toNat_inj, checksumResult_toNat, checksumResult_toNat, BitVec.toNat_inj]

theorem checksumResult_csum16 (s : Word) :
    checksumResult (csum16 s) = BitVec.ofNat 32 (0xFFFF - (fold16 s).toNat) := by
  rw [← csum16_toNat, BitVec.ofNat_toNat, checksumResult]

theorem csum16_eq_zero_iff (s : Word) : csum16 s = 0 ↔ s ≠ 0 ∧ s.toNat % 65535 = 0 :=
  (csum16_eq_zero_iff_fold16 s).trans (fold16_eq_ones_iff s)

end Sys2Proof.Machine

namespace Sys2Proof.Proofs

open Sys2Proof.Machine

/-- Settles O40: FOLD returns the final checksum of its sum, which the rows evaluate; the RESULT is that checksum widened,
so it is 0xFFFF, 0 and below 2^16 when the checksum is. -/
theorem foldCorners : Obligations.FoldCorners := by
  refine ⟨fun row hrow => ?rows, fun sum s => ⟨_, exec_fold s sum, ?ones, ?zero, ?upper⟩⟩
  case rows =>
    suffices h : foldStage1 row.1 = row.2.1 ∧ foldStage2 row.2.1 = row.2.2.1 ∧
        checksumResult (csum16 row.1) = row.2.2.2 by
      obtain ⟨hstage1, hstage2, hresult⟩ := h
      exact ⟨hstage1, hstage2, fun s => hresult ▸ exec_fold s row.1⟩
    fin_cases hrow <;> decide
  case ones => exact (checksumResult_inj (d := 0xFFFF#16)).trans (csum16_eq_ones_iff sum)
  case zero => exact (checksumResult_inj (d := 0#16)).trans (csum16_eq_zero_iff sum)
  case upper => rw [checksumResult_toNat]; exact (csum16 sum).isLt

/-- Settles O39: FOLD returns the final checksum of its sum, whose value is 0xFFFF less the two stages; the opcode of FOLD
is known, so its frames are FOLD or have a must-be-zero bit set. -/
theorem foldResult : Obligations.FoldResult := by
  refine ⟨fun sum s => ?_, fun f hopc => decode_of_code (op := .fold) hopc, fun s => exec_fold s 0x0002479C#32⟩
  intro t1 t2
  have hfold : (fold16 sum).toNat = t2 := fold16_toNat sum
  rw [exec_fold, checksumResult_csum16, hfold]

end Sys2Proof.Proofs

/-! The length and protocol word of PHC, and the checksum of its sum as that of the pseudo-header bytes
(spec/44_pseudo_header.md rules R119 to R121). -/

namespace Sys2Proof.Machine

/-- A 32-bit word is its four bytes, the high one first (R72). -/
theorem be32_bytes (w : Word) :
    be32 (w.extractLsb' 24 8) (w.extractLsb' 16 8) (w.extractLsb' 8 8) (w.extractLsb' 0 8) = w := by
  have hw := w.isLt
  apply BitVec.eq_of_toNat_eq
  simp only [be32_toNat, be16_toNat, BitVec.extractLsb'_toNat, Nat.shiftRight_eq_div_pow]
  omega

theorem lengthProtocolWord_toNat (proto : Byte) (len16 : Half) :
    (lengthProtocolWord proto len16).toNat = proto.toNat * 2 ^ 16 + len16.toNat := by
  have hproto : (proto.setWidth 32 <<< 16).toNat = proto.toNat <<< 16 := by
    have hlt := proto.isLt
    rw [BitVec.toNat_shiftLeft, BitVec.toNat_setWidth_of_le (by decide), Nat.shiftLeft_eq]
    omega
  change (proto.setWidth 32 <<< 16 ||| len16.setWidth 32).toNat = _
  rw [BitVec.toNat_or, hproto, toNat_setWidth_half, ← Nat.shiftLeft_add_eq_or_of_lt len16.isLt, Nat.shiftLeft_eq]

theorem lengthProtocolWord_eq_ofNat (proto : Byte) (len16 : Half) :
    lengthProtocolWord proto len16 = BitVec.ofNat 32 (proto.toNat * 2 ^ 16 + len16.toNat) := by
  rw [← lengthProtocolWord_toNat, BitVec.ofNat_toNat, BitVec.setWidth_eq]

/-- LPW is the word of the last four pseudo-header bytes (R119). -/
theorem lengthProtocolWord_eq_be32 (proto : Byte) (len16 : Half) :
    lengthProtocolWord proto len16 = be32 0x00#8 proto (len16.extractLsb' 8 8) (len16.extractLsb' 0 8) := by
  apply BitVec.eq_of_toNat_eq
  rw [lengthProtocolWord_toNat, be32_toNat, be16_bytes, be16_toNat, BitVec.toNat_ofNat]
  omega

/-- The checksum of PHC's sum is that of the twelve pseudo-header bytes: each of the three words it adds folds like its
own four bytes (R121, R122). -/
theorem csum16_phcSum (proto : Byte) (len16 : Half) (sum saddr daddr : Word) :
    csum16 (phcSum proto len16 sum saddr daddr) =
      csum16 (accBytes sum (pseudoHeaderBytes proto len16 saddr daddr)) := by
  rw [pseudoHeaderBytes, ← csum16_accBytes_be32, ← csum16_accBytes_be32, ← csum16_accBytes_be32, be32_bytes, be32_bytes,
    ← lengthProtocolWord_eq_be32]
  rfl

end Sys2Proof.Machine

namespace Sys2Proof.Proofs

open Sys2Proof.Machine

/-- Settles O42: PHC and FOLD both return the final checksum of their sum, and PHC's sum has the checksum of the bytes. -/
theorem phcEqualsAccumulatorAndFolder : Obligations.PhcEqualsAccumulatorAndFolder := by
  intro proto len16 sum saddr daddr s p
  have hphc := exec_phc s proto len16 sum saddr daddr
  rw [csum16_phcSum] at hphc
  exact ⟨hphc, hphc.trans (exec_fold s (accBytes sum p)).symm⟩

/-- Settles O41: PHC returns the final checksum of its sum, whose value is 0xFFFF less the two stages; every command word
with PHC's opcode is legal, so its frames are always PHC. -/
theorem phcResult : Obligations.PhcResult := by
  refine ⟨fun proto len16 sum saddr daddr s => ?value, fun f hopc => ?always,
    fun s => exec_phc s 17#8 8#16 0 0x0A000001#32 0x0A000002#32⟩
  case value =>
    intro lpw s3 t1 t2
    have hsum : phcSum proto len16 sum saddr daddr = s3 := by rw [phcSum, lengthProtocolWord_eq_ofNat]
    have hfold : (fold16 s3).toNat = t2 := fold16_toNat s3
    rw [exec_phc, hsum, checksumResult_csum16, hfold]
  case always =>
    have hlegal : (commandWordOf f.w0).wellFormed = true := (wellFormed_iff_fieldsLegal (op := .phc) hopc).mpr trivial
    exact (decode_command_iff _ _).mpr ⟨.phc, (selectOpcode_eq_some_iff _ _).mpr ⟨hopc, hlegal⟩, rfl⟩

end Sys2Proof.Proofs

/-! The checks of FAST that fail (spec/45_fast_header.md rule R129), and its header as 32-bit words and as bytes (rules R130,
R131). -/

namespace Sys2Proof.Machine

/-! ## FAST: checks that fail -/

theorem wordCountInvalid_iff (words : Half) : wordCountInvalid words = true ↔ words.toNat < 5 ∨ 15 < words.toNat := by
  rw [wordCountInvalid, Bool.or_eq_true, decide_eq_true_eq, decide_eq_true_eq, Config.fastMin, Config.fastMax]

theorem alignmentInvalid_signal_iff (base : Word) : alignmentInvalid .signal base = true ↔ base.toNat % 4 ≠ 0 := by
  rw [alignmentInvalid, decide_eq_true_eq, ne_eq, ← BitVec.toNat_inj, BitVec.extractLsb'_toNat]
  rfl

/-- A wrong word count or a view that does not fit is InvalidLength whatever the base (R129, R146). -/
theorem fastCheck_of_length_invalid {words : Half} {base size : Word}
    (h : words.toNat < 5 ∨ 15 < words.toNat ∨ ¬ViewFits base size (4 * words.toNat)) :
    fastCheck words base size = some .invalidLength := by
  rw [← or_assoc, ← wordCountInvalid_iff] at h
  by_cases hcount : wordCountInvalid words = true
  · exact if_pos hcount
  · have hview : viewInvalid base size (fastBytes words) = true := viewInvalid_of_not_fits (h.resolve_left hcount)
    rw [fastCheck, if_neg hcount, if_pos hview]

/-- An unaligned base is InvalidAlignment once the lengths are valid (R129, R146). -/
theorem fastCheck_of_unaligned {words : Half} {base size : Word} (hmin : 5 ≤ words.toNat) (hmax : words.toNat ≤ 15)
    (hfits : ViewFits base size (4 * words.toNat)) (hunaligned : base.toNat % 4 ≠ 0) :
    fastCheck words base size = some .invalidAlignment := by
  have hcount : ¬wordCountInvalid words = true := by
    rw [wordCountInvalid_iff]
    omega
  have hview : ¬viewInvalid base size (fastBytes words) = true := Bool.eq_false_iff.mp (viewInvalid_of_fits hfits)
  rw [fastCheck, if_neg hcount, if_neg hview]
  exact if_pos ((alignmentInvalid_signal_iff base).mpr hunaligned)

/-! ## The words of a header and its bytes -/

/-- Summed as 32-bit words, a header has the checksum of its bytes (R130, R131). -/
theorem csum16_foldl_headerWords (m : Memory) (s : Word) (base n : Nat) :
    csum16 ((headerWords m base n).foldl add1c32 s) = csum16 (accBytes s (m.bytes base (4 * n))) := by
  induction n generalizing s base with
  | zero => rfl
  | succ n ih =>
    rw [headerWords, List.foldl_cons, ih, csum16_accBytes_be32]
    rfl

/-- Whether a command reads undisturbed bytes depends on its source only. -/
theorem readsUndisturbed_congr {i j : Instr} (h : sourceOf i = sourceOf j) (s : State) :
    s.readsUndisturbed i = s.readsUndisturbed j := by rw [State.readsUndisturbed, h, State.readsUndisturbed]

end Sys2Proof.Machine

namespace Sys2Proof.Proofs

open Sys2Proof.Machine

/-- Settles O43: no byte of the header is noted as racing, so FAST reads what memory holds and draws one free value. -/
theorem fastResult : Obligations.FastResult := by
  intro words base size s hmin hmax hfits haligned hu
  obtain ⟨b, d, hlen, hreads, hrun⟩ := exec_fast s (fastCheck_of_valid hmin hmax hfits haligned)
  rw [overwritten_of_readsUndisturbed hu] at hreads
  obtain rfl : d = s.draws + 1 := exec_draws rfl hu hrun
  rw [hrun, hreads.eq_bytes, hlen, checksumResult]

/-- Settles O44: the sum of the header's words has the checksum of its bytes, which FAST returns. -/
theorem fastAddsWords : Obligations.FastAddsWords := by
  intro words base size s hmin hmax hfits haligned hu
  rw [csum16_foldl_headerWords]
  exact fastResult words base size s hmin hmax hfits haligned hu

/-- Settles O46: FAST returns the checksum of the bytes, ACC over the same bytes their running sum, and FOLD the checksum
of that sum. -/
theorem fastEqualsAccThenFold : Obligations.FastEqualsAccThenFold := by
  intro words base size len s hmin hmax hfits haligned hlen hu
  have hfast := fastResult words base size s hmin hmax hfits haligned hu
  rw [← hlen] at hfits hfast ⊢
  have hsource : sourceOf (.acc 0 base size len) = sourceOf (.fast words base size) := by
    rw [sourceOf, sourceOf, hlen, fastBytes]
  have hacc := accResult 0 base size len s hfits ((readsUndisturbed_congr hsource s).trans hu)
  exact ⟨_, _, _, _, _, rfl, hfast, newResponses_of_append rfl, hacc, newResponses_of_append rfl, exec_fold _ _,
    newResponses_of_append rfl⟩

/-- Settles O45: the first check that fails gives the status, which is raised. -/
theorem fastErrors : Obligations.FastErrors := by
  refine fun words base size s => ⟨fun h => ?length, fun ⟨hmin, hmax, hfits, hunaligned⟩ => ?alignment⟩
  case length => exact ⟨_, exec_of_failed s (i := .fast words base size) (fastCheck_of_length_invalid h)⟩
  case alignment =>
    exact ⟨_, exec_of_failed s (i := .fast words base size) (fastCheck_of_unaligned hmin hmax hfits hunaligned)⟩

end Sys2Proof.Proofs

namespace Sys2Proof.Machine

/-! ## The answers a COPY still needs -/

/-- How many supervised accesses a transaction has still to make: for each byte left of a COPY a write, and a read but
for a byte in the latch (R34, R97). -/
def accessesLeft : Instr → Context → Nat
  | .copy sdom ddom _ _ _ len _ _, c =>
    (if sdom = .supervised then len.toNat - c.pos.toNat - (if c.latch = none then 0 else 1) else 0) +
      if ddom = .supervised then len.toNat - c.pos.toNat else 0
  | _, _ => 0

/-- The answers at hand to the accesses a transaction has still to make (R40). -/
def State.answersFor (s : State) (i : Instr) (c : Context) : List Answer := s.answers.take (accessesLeft i c)

/-- What a micro-step may lead to when each access left has its answer at hand: if it goes on the rest still have theirs,
it does not wait, and it raises a status only at a fault among these answers (R40, R101). -/
def Progress.Supplied (i : Instr) (c : Context) (s : State) : Progress → Prop
  | .busy c' t => accessesLeft i c' ≤ t.answers.length ∧ t.answersFor i c' ⊆ s.answersFor i c
  | .waiting _ _ => False
  | .returned _ _ => True
  | .raised _ _ => Answer.fault ∈ s.answersFor i c
  | .stopped _ => True

section Supplied
variable {i : Instr} {c c' : Context} {s t u : State} {d : Domain}

theorem supplied_atAddress (a : Nat) {p : Progress} (h : p.Supplied i c s) : (atAddress a p).Supplied i c s := by
  rcases atAddress_cases a p with ⟨_, e⟩ | ⟨_, e⟩ <;> rw [e]
  · exact h
  · trivial

/-- A granted access that is one of those left uses the first of their answers, if it is supervised (R40). -/
theorem supplied_of_granted (h : accessesLeft i c ≤ s.answers.length) (hask : s.ask d = .granted u)
    (hleft : accessesLeft i c = (if d = .supervised then 1 else 0) + accessesLeft i c')
    (ht : t.answers = u.answers) : (Progress.busy c' t).Supplied i c s := by
  obtain ⟨used, hanswers, _, _, hused⟩ := ask_granted hask
  rw [← hused] at hleft
  rw [hleft, hanswers, List.length_append] at h
  refine ⟨by rw [ht]; omega, ?_⟩
  rw [State.answersFor, State.answersFor, hleft, hanswers, ht, List.take_length_add_append]
  exact List.subset_append_right _ _

/-- A faulted access that is one of those left meets a fault among their answers (R101). -/
theorem fault_mem_answersFor (hleft : 0 < accessesLeft i c) (hask : s.ask d = .faulted u) :
    Answer.fault ∈ s.answersFor i c := by
  obtain ⟨n, hn⟩ := Nat.exists_eq_add_one_of_ne_zero hleft.ne'
  rw [State.answersFor, (ask_faulted hask).2.1, hn, List.take_succ_cons]
  exact List.mem_cons_self

/-- An access does not wait while one of those left has its answer at hand (R104). -/
theorem ask_ne_unanswered (h : accessesLeft i c ≤ s.answers.length) (hleft : 0 < accessesLeft i c) :
    s.ask d ≠ .unanswered := by
  intro hask
  rw [(ask_unanswered hask).2, List.length_nil] at h
  omega

section Copy
variable {sdom ddom : Domain} {seed srcBase srcSize len dstBase dstSize : Word}
  (hi : i = .copy sdom ddom seed srcBase srcSize len dstBase dstSize) (hp : c.pos.toNat < len.toNat)
include hi hp

/-- The read of a byte leaves one access less if it is supervised (R97). -/
theorem accessesLeft_read (hl : c.latch = none) (x : Byte) :
    accessesLeft i c = (if sdom = .supervised then 1 else 0) + accessesLeft i { c with latch := some x } := by
  subst hi
  simp only [accessesLeft, hl, if_true, reduceCtorEq, if_false]
  split <;> omega

/-- So does the write of a byte. -/
theorem accessesLeft_write {x : Byte} (hl : c.latch = some x) (hl' : c'.latch = none) (hpos : c'.pos = c.pos + 1) :
    accessesLeft i c = (if ddom = .supervised then 1 else 0) + accessesLeft i c' := by
  subst hi
  simp only [accessesLeft, hl, hl', hpos, toNat_add_one hp, if_true, reduceCtorEq, if_false]
  split <;> split <;> omega

end Copy

/-- A micro-step of COPY makes the next of the accesses left, or has none left and returns (R34, R97). -/
theorem supplied_copyTick {sdom ddom : Domain} {seed srcBase srcSize len dstBase dstSize : Word}
    (hi : i = .copy sdom ddom seed srcBase srcSize len dstBase dstSize) (h : accessesLeft i c ≤ s.answers.length) :
    (copyTick sdom ddom srcBase len dstBase c s).Supplied i c s := by
  unfold copyTick
  simp only
  split
  next hp =>
    split
    next hl =>
      have hleft := accessesLeft_read hi hp hl
      have hpos (hd : sdom = .supervised) : 0 < accessesLeft i c := by rw [hleft 0, if_pos hd]; omega
      unfold copyRead
      split
      next hask => exact ask_ne_unanswered h (hpos (ask_unanswered hask).1) hask
      next hask => exact fault_mem_answersFor (hpos (ask_faulted hask).1) hask
      next hask => exact supplied_atAddress _ (supplied_of_granted h hask (hleft _) (afterSource_answers ..))
    next x hl =>
      have hleft {c' : Context} := accessesLeft_write (c' := c') hi hp hl
      have hpos (hd : ddom = .supervised) : 0 < accessesLeft i c := by
        rw [hleft (copied_latch c x []) (copied_pos c x []), if_pos hd]; omega
      unfold copyWrite
      split
      next hask => exact ask_ne_unanswered h (hpos (ask_unanswered hask).1) hask
      next hask => exact fault_mem_answersFor (hpos (ask_faulted hask).1) hask
      next hask =>
        exact supplied_atAddress _ (supplied_of_granted h hask (hleft rfl (feed_pos c x)) (poke_answers ..))
  next => trivial

/-- A command that writes nothing makes no supervised access (R40). -/
theorem supplied_of_pure (hleft : ∀ c, accessesLeft i c = 0) {p : Progress} (hp : p.Within none c s) :
    p.Supplied i c s := by
  cases p with
  | busy c' t => simp [Progress.Supplied, State.answersFor, hleft]
  | waiting c' t => exact absurd rfl hp.2.2.2
  | returned v t => trivial
  | raised st t => exact absurd rfl hp.2.2.1
  | stopped r => trivial

theorem supplied_tickOf (h : accessesLeft i c ≤ s.answers.length) : (tickOf i c s).Supplied i c s := by
  cases i with
  | copy => exact supplied_copyTick rfl h
  | _ => exact supplied_of_pure (fun _ => rfl) (within_tickOf _ c s)

/-- A run with an answer at hand for each access left ends: with a result, or with CopyFault at a fault among these
answers (R101, R153). -/
theorem drive_ends {n : Nat} (hn : stepsLeft i c < n) (ha : accessesLeft i c ≤ s.answers.length)
    (h : drive (tickOf i) n c s = .next t) :
    ∃ u, Touches (destinationOf i) s u ∧
      ((∃ v, t = u.respond c.tid .ok v) ∨ t = u.raise c.tid .copyFault ∧ Answer.fault ∈ s.answersFor i c) := by
  induction n generalizing c s with
  | zero => omega
  | succ n ih =>
    have hwithin := within_tickOf i c s
    have hsupplied := supplied_tickOf ha
    unfold drive at h
    cases e : tickOf i c s with rw [e] at h hwithin hsupplied
    | busy c1 s1 =>
      obtain ⟨⟨htid, _, _⟩, ht⟩ := hwithin
      obtain ⟨ha1, hsub⟩ := hsupplied
      have hlt := stepsLeft_lt_of_busy e
      obtain ⟨u, hu, hend⟩ := ih (by omega) ha1 h
      rw [htid] at hend
      exact ⟨u, ht.trans hu, hend.imp_right (And.imp_right (@hsub _))⟩
    | waiting c1 s1 => exact hsupplied.elim
    | returned v u => cases h; exact ⟨u, hwithin, .inl ⟨v, rfl⟩⟩
    | raised st u =>
      cases h
      obtain ⟨rfl, hu, _, _⟩ := hwithin
      exact ⟨u, hu, .inr ⟨rfl, hsupplied⟩⟩
    | stopped r => cases h

end Supplied

/-- A COPY that has just started has all its accesses left (R34). -/
theorem accessesLeft_startOf_copy (sdom ddom : Domain) (seed srcBase srcSize len dstBase dstSize : Word) (s : State) :
    let i := Instr.copy sdom ddom seed srcBase srcSize len dstBase dstSize
    accessesLeft i (startOf i (s.newContext i)) = supervisedAccesses sdom ddom len.toNat := by
  simp [accessesLeft, startOf, copyStart, supervisedAccesses]

theorem accessesLeft_le (sdom ddom : Domain) (seed srcBase srcSize len dstBase dstSize : Word) (c : Context) :
    accessesLeft (.copy sdom ddom seed srcBase srcSize len dstBase dstSize) c ≤
      supervisedAccesses sdom ddom len.toNat := by
  simp only [accessesLeft, supervisedAccesses]
  split_ifs <;> omega

/-- With as many successes at hand as a COPY has accesses, or for any other command, each access left has its answer at
hand, and none of these answers is a fault. -/
theorem successes_at_hand {s : State} {c : Context}
    (h : ∀ sdom ddom seed srcBase srcSize len dstBase dstSize,
      c.instr = .copy sdom ddom seed srcBase srcSize len dstBase dstSize →
      ∃ rest, s.answers = List.replicate (supervisedAccesses sdom ddom len.toNat) .succeed ++ rest) :
    accessesLeft c.instr c ≤ s.answers.length ∧ Answer.fault ∉ s.answersFor c.instr c := by
  unfold State.answersFor
  cases hi : c.instr with
  | copy sdom ddom seed srcBase srcSize len dstBase dstSize =>
    obtain ⟨rest, ha⟩ := h _ _ _ _ _ _ _ _ hi
    have hle := accessesLeft_le sdom ddom seed srcBase srcSize len dstBase dstSize c
    rw [ha, List.take_append_of_le_length (by rwa [List.length_replicate])]
    refine ⟨by rw [List.length_append, List.length_replicate]; omega, fun hmem => ?_⟩
    cases List.eq_of_mem_replicate (List.mem_of_mem_take hmem)
  | _ => simp [accessesLeft]

end Sys2Proof.Machine

namespace Sys2Proof.Proofs

open Sys2Proof.Machine

/-- Settles O38: a failed check is answered at once; a run with an answer for each access does not wait, so it ends with
one response. -/
theorem copyResponds : Obligations.CopyResponds := by
  intro sdom ddom seed srcBase srcSize len dstBase dstSize s t ha h
  suffices hanswered : AnsweredOnce s.cmd.tid s t by
    obtain ⟨⟨r, hresp, htid, _⟩, hctx⟩ := hanswered
    exact ⟨r, hresp, htid, hctx⟩
  rw [exec_eq_gate] at h
  rcases gate_next h with ⟨st, _, rfl⟩ | ⟨_, _, _, hrun⟩
  · exact (Touches.refl none s).answeredOnce_raise _ st
  · have hstart := accessesLeft_startOf_copy sdom ddom seed srcBase srcSize len dstBase dstSize s
    obtain ⟨u, hu, ⟨v, rfl⟩ | ⟨rfl, _⟩⟩ :=
      drive_ends (s := s.draw) (stepsLeft_startOf _ s) (hstart.trans_le ha) hrun
    · exact hu.answeredOnce_respond _ .ok v
    · exact hu.answeredOnce_raise _ .copyFault

/-- Settles O19: a legal transaction meets no address fault and is given enough micro-steps, and with successes for the
accesses it has left it neither waits nor faults, so its run ends with a result. -/
theorem inFlightResponds : Obligations.InFlightResponds := by
  intro s k c hinv hk hsucc
  obtain ⟨hleft, hnofault⟩ := successes_at_hand hsucc
  obtain ⟨_, _, _, hreg⟩ := (contextLegal_iff c).mp (hinv.contexts_legal c (List.mem_of_getElem? hk))
  have hresume : resume k s = drive (tickOf c.instr) (stepsOf c.instr) c (s.without k) := by simp only [resume, hk]
  cases h : resume k s with
  | fault r => exact absurd h (resume_ne_fault k hinv)
  | refused r => exact absurd (hresume.symm.trans h) (drive_not_refused _ _ _ r)
  | next t =>
    obtain ⟨u, hu, ⟨v, rfl⟩ | ⟨_, hfault⟩⟩ :=
      drive_ends (stepsLeft_lt_stepsOf hreg) (s := s.without k) hleft (hresume.symm.trans h)
    · refine ⟨_, v, rfl, by rw [respond_responses, hu.responses]; rfl, ?_⟩
      obtain ⟨hlt, _⟩ := List.getElem?_eq_some_iff.mp hk
      rw [respond_contexts, hu.contexts.length_eq, without_contexts, List.length_eraseIdx_add_one hlt]
    · exact absurd hfault hnofault

end Sys2Proof.Proofs

namespace Sys2Proof.Machine

/-! ## The port while every context is busy -/

section Port
variable {s t : State} {k : Nat}

/-- A transaction that is let proceed leaves the port as it is. -/
theorem port_of_proceed (h : resume k s = .next t ∨ tick k s = .next t) : t.port = s.port := by
  cases hk : s.contexts[k]? with
  | none =>
    simp only [resume, tick, hk, or_self] at h
    cases h
    rfl
  | some c => exact (confined_of_proceed hk h).port

@[simp] theorem engineReset_port (s : State) : s.engineReset.port = s.port :=
  engineReset_induct (P := (·.port = s.port)) rfl (fun c _ t ht => (touches_abandon t c).port.trans ht)

theorem port_of_outsideStore {d : Domain} {a : Word} {b : Byte} (h : outsideStore d a b s = .next t) :
    t.port = s.port := by
  unfold outsideStore at h
  split at h
  · cases h
  · cases h; exact poke_port ..

/-- With no free context the engine lets a transaction proceed. -/
theorem advance_of_busy (room : s.hasRoom = false) : advance s = resume 0 s := by
  unfold advance
  split
  · rfl
  · rw [if_neg (by simp [room])]

/-- With no free context a waiting command is not accepted (R153). -/
theorem accept_of_busy (room : s.hasRoom = false) : accept k s = .next s := by
  unfold accept
  split
  · rfl
  · rw [if_neg (by simp [room])]

/-- With no free context only an offer changes the port (R153). -/
theorem port_of_serve (room : s.hasRoom = false) {e : Event} (he : ∀ c, e ≠ .requester (.offer c))
    (h : serve e s = .next t) : t.port = s.port := by
  cases e with
  | engine => exact port_of_proceed (.inl ((advance_of_busy room).symm.trans h))
  | requester m =>
    cases m with
    | offer c => exact absurd rfl (he c)
    | collect k => cases h; rfl
    | store d a b => exact port_of_outsideStore h
  | environment m =>
    cases m with
    | answer a => cases h; rfl
    | store d a b => exact port_of_outsideStore h
    | accept k => cases (accept_of_busy room).symm.trans h; rfl
    | tick k => exact port_of_proceed (.inr h)
    | resume k => exact port_of_proceed (.inl h)
    | reset => cases h; exact engineReset_port s

end Port

end Sys2Proof.Machine

namespace Sys2Proof.Proofs

open Sys2Proof.Machine

/-- Settles O21: an offer adds its command behind the others; with no free context every other event keeps the port. -/
theorem offeredCommandWaits : Obligations.OfferedCommandWaits := by
  intro s t room h
  cases hagenda : s.agenda with
  | nil =>
    simp only [step, hagenda, advance_of_busy room] at h
    exact .inl ⟨port_of_proceed (.inl h), by simp⟩
  | cons e rest =>
    rw [step_of_agenda_cons hagenda] at h
    by_cases he : ∃ c, e = .requester (.offer c)
    · obtain ⟨c, rfl⟩ := he
      rw [serve_offer] at h
      cases h
      exact .inr ⟨c, rest, rfl, rfl⟩
    · have hother (c : Command) : e ≠ .requester (.offer c) := fun hc => he ⟨c, hc⟩
      exact .inl ⟨port_of_serve (s := { s with agenda := rest }) room hother h, by simp [hother]⟩

end Sys2Proof.Proofs

namespace Sys2Proof

/-! ## Words that no row of the opcode map selects -/

/-- OPC is one of the five opcodes or outside their range (R53, R57). -/
theorem opcode_cases (c : Byte) : c = 1#8 ∨ c = 2#8 ∨ c = 3#8 ∨ c = 4#8 ∨ c = 5#8 ∨ c = 0#8 ∨ 6#8 ≤ c := by
  bv_omega

/-- No row selects an opcode outside the five, or a must-be-zero bit that is set (R57). -/
theorem selectOpcode_eq_none_iff (w : Word) :
    selectOpcode w = none ↔
      (w.extractLsb' 24 8 = 0x00#8 ∨ 0x06#8 ≤ w.extractLsb' 24 8 ∨
       ((w.extractLsb' 24 8 = 0x01#8 ∨ w.extractLsb' 24 8 = 0x03#8) ∧ w.extractLsb' 0 24 ≠ 0) ∨
       (w.extractLsb' 24 8 = 0x02#8 ∧ (w.extractLsb' 18 6 ≠ 0 ∨ w.extractLsb' 0 16 ≠ 0)) ∨
       (w.extractLsb' 24 8 = 0x05#8 ∧ w.extractLsb' 16 8 ≠ 0)) := by
  rw [selectOpcode_fields]
  generalize w.extractLsb' 24 8 = c
  rcases opcode_cases c with rfl | rfl | rfl | rfl | rfl | rfl | hc
  case inr.inr.inr.inr.inr.inr =>
    have hne {v : Byte} (hv : v < 6#8) : c ≠ v := by bv_omega
    simp [hc, hne]
  all_goals simp [imp_iff_not_or]

end Sys2Proof

namespace Sys2Proof.Proofs

open Sys2Proof.Machine

/-- Settles O12: a frame is rejected when no row of the opcode map selects its W[0], and raising InvalidCommand adds one
response and draws its RESULT. -/
theorem illegalFrames : Obligations.IllegalFrames := by
  refine ⟨fun f => (decode_rejected_iff f).trans (selectOpcode_eq_none_iff f.w0), fun s r h => ?_⟩
  exact ⟨Config.freeWord s.draws, runCaptured_of_rejected h⟩

end Sys2Proof.Proofs

namespace Sys2Proof.Machine

/-! ## What a reset leaves to the outside world -/

/-- Abandoning a transaction asks the environment for nothing. -/
@[simp] theorem abandon_answers (s : State) (c : Context) : (s.abandon c).answers = s.answers := by
  unfold State.abandon
  cases destinationOf c.instr with
  | none => rfl
  | some r => exact scramble_answers s r.dom r.base r.len

@[simp] theorem engineReset_answers (s : State) : s.engineReset.answers = s.answers :=
  engineReset_induct (P := (·.answers = s.answers)) rfl (fun c _ t ht => (abandon_answers t c).trans ht)

@[simp] theorem engineReset_agenda (s : State) : s.engineReset.agenda = s.agenda :=
  engineReset_induct (P := (·.agenda = s.agenda)) rfl (fun c _ t ht => (touches_abandon t c).agenda.trans ht)

/-- R161: abandoning the transactions in flight reaches their destinations only. What waits at the port plays no part,
so the hypothesis is the half of `OutOfReach` about transactions in flight. -/
theorem engineReset_read {s : State} {d : Domain} {a : Nat}
    (hflying : ∀ c ∈ s.contexts, rangeCovers (destinationOf c.instr) d a = false) :
    (s.engineReset.mem d).read a = (s.mem d).read a := by
  refine engineReset_induct (P := fun t => (t.mem d).read a = (s.mem d).read a) (by cases d <;> rfl) ?abandoned
  case abandoned =>
    intro c hc t ht
    exact ((touches_abandon t c).outside d a (hflying c hc)).trans ht

/-- R160: a reset at the head of the agenda is served with the rest of the agenda still to come. -/
theorem step_of_reset {s : State} {rest : List Event} (h : s.agenda = .environment .reset :: rest) :
    step s = .next { s with agenda := rest }.engineReset :=
  step_of_agenda_cons h

end Sys2Proof.Machine

namespace Sys2Proof.Proofs

open Sys2Proof.Machine

/-- Settles O56: a reset is the abandoning of each transaction in flight, which touches its destination only. -/
theorem resetAbandons : Obligations.ResetAbandons := by
  intro s rest h
  refine ⟨_, step_of_reset h, engineReset_contexts _, engineReset_responses _, engineReset_port _,
    engineReset_answers _, engineReset_agenda _, fun d a hflying => ?memory⟩
  case memory => exact (engineReset_read (s := { s with agenda := rest }) hflying).trans (by cases d <;> rfl)

end Sys2Proof.Proofs
